-- ==== Sys2Proof/Word.lean ====
section
/-!
DEFINITION. The value types of the block (00_scope.md R9, R11, R12, R15): the 32-bit register
word, the 4-bit hardware color index and the slot number.
-/

namespace Sys2Proof

/-- A register of the window, or a command word: 32 bits, bit 0 least significant (R11, R12). -/
abbrev Word := BitVec 32

/-- A hardware color index 0..15 (R9). -/
abbrev Color := BitVec 4

/-- A slot number (R15): a 4-color slot `(a, b)` is `2*a + b`; 2-color mode uses 0 and 1 only. -/
abbrev Slot := Fin 4

end Sys2Proof
end

