-- ==== Sys2Proof/Syntax.lean ====
section
/-!
DEFINITION. The command set "BCCD command set v1" (00_scope.md R3, 30_encoding.md R84): one
constructor per row of spec/opcode_table.json.
-/

namespace Sys2Proof

/-- The seven commands of R84. Only PROCESS has operands in its word (formats N and B, R81, R82). -/
inductive Instr where
  /-- NOP, opcode 0x00 (45_control.md R220). -/
  | nop
  /-- DETECT, opcode 0x01 (41_clash_detect.md R125). -/
  | detect
  /-- REPAIR, opcode 0x02 (43_clash_repair.md R175). -/
  | repair
  /-- PROCESS, opcode 0x03, block column BX and block row BY (44_frame_link.md R194). -/
  | process (bx by_ : Nat)
  /-- LINKRST, opcode 0x04 (44_frame_link.md R197). -/
  | linkrst
  /-- FRAMENEXT, opcode 0x05 (44_frame_link.md R198). -/
  | framenext
  /-- SRESET, opcode 0x06 (45_control.md R221). -/
  | sreset
  deriving DecidableEq, Repr

end Sys2Proof
end

