-- ==== Sys2Proof/WellFormed.lean ====
section
/-!
DEFINITION. Which commands have an encoding: both operands of PROCESS are 8-bit unsigned
(00_scope.md R11, 30_encoding.md R82); log 18.
-/

namespace Sys2Proof

/-- A block coordinate is 0..255 (R11). -/
def coordinateOk (n : Nat) : Bool := decide (n < 256)

/-- The operands fit the fields of the command's format (R81, R82). -/
def Instr.wellFormed : Instr → Bool
  | .nop => true
  | .detect => true
  | .repair => true
  | .process bx by_ => coordinateOk bx && coordinateOk by_
  | .linkrst => true
  | .framenext => true
  | .sreset => true

end Sys2Proof
end

