-- ==== Sys2Proof/Decode.lean ====
section
/-!
DEFINITION. The decoder of command words, total on all 32-bit words (30_encoding.md R80 to R86),
and the encoder of R81, R82 and R84 after it.
-/

namespace Sys2Proof

/-- Why a word is ILLEGAL (R85). -/
inductive DecodeError where
  /-- The opcode is one of the reserved 0x07..0xFF. -/
  | reservedOpcode
  /-- The opcode is legal and a must-be-zero bit is set. -/
  | nonzeroMbz
  deriving DecidableEq, Repr

/-- `OP`, bits 7:0 of every command word (R80). -/
def opcodeField (cmd : Word) : BitVec 8 := cmd.extractLsb' 0 8

/-- `BX`, bits 15:8 of a format B word (R82). -/
def bxField (cmd : Word) : BitVec 8 := cmd.extractLsb' 8 8

/-- `BY`, bits 23:16 of a format B word (R82). -/
def byField (cmd : Word) : BitVec 8 := cmd.extractLsb' 16 8

/-- The must-be-zero bits 31:8 of format N (R81). -/
def mbzFieldN (cmd : Word) : BitVec 24 := cmd.extractLsb' 8 24

/-- The must-be-zero bits 31:24 of format B (R82). -/
def mbzFieldB (cmd : Word) : BitVec 8 := cmd.extractLsb' 24 8

/-- The format N command of an opcode, if it has one (R84). -/
def formatNCommand (op : BitVec 8) : Option Instr :=
  if op = 0x00 then some .nop
  else if op = 0x01 then some .detect
  else if op = 0x02 then some .repair
  else if op = 0x04 then some .linkrst
  else if op = 0x05 then some .framenext
  else if op = 0x06 then some .sreset
  else none

/-- The decoder of R86; an error is the ILLEGAL of R85, with its reason. -/
def decode (cmd : Word) : Except DecodeError Instr :=
  if opcodeField cmd = 0x03 then
    if mbzFieldB cmd ≠ 0 then .error .nonzeroMbz
    else .ok (.process (bxField cmd).toNat (byField cmd).toNat)
  else
    match formatNCommand (opcodeField cmd) with
    | none => .error .reservedOpcode
    | some i => if mbzFieldN cmd ≠ 0 then .error .nonzeroMbz else .ok i

/-- The opcode of a command (R84). -/
def opcodeOf : Instr → Word
  | .nop => 0x00
  | .detect => 0x01
  | .repair => 0x02
  | .process _ _ => 0x03
  | .linkrst => 0x04
  | .framenext => 0x05
  | .sreset => 0x06

/-- The encoder: the word of a well-formed command (R81, R82, R84; PROCESS as R194 writes it). -/
def encode (i : Instr) : Word :=
  match i with
  | .process bx by_ => opcodeOf i ||| (BitVec.ofNat 32 bx <<< 8) ||| (BitVec.ofNat 32 by_ <<< 16)
  | .nop => opcodeOf i
  | .detect => opcodeOf i
  | .repair => opcodeOf i
  | .linkrst => opcodeOf i
  | .framenext => opcodeOf i
  | .sreset => opcodeOf i

/-- The 32-bit command word whose low `nbits` bits are those of `w`, the bits above being 0. -/
def tableWord (nbits w : Nat) : Word := BitVec.ofNat 32 (w % 2 ^ nbits)

/-- The instruction the decoder reads from a word of spec/opcode_table.json, none where it refuses. -/
def decodeTableWord (nbits w : Nat) : Option Instr :=
  match decode (tableWord nbits w) with
  | .ok i => some i
  | .error _ => none

end Sys2Proof
end

