-- ==== Sys2Proof/Config.lean ====
section
/-!
DEFINITION. What an implementation of the block fixes and the spec leaves open (00_scope.md R10):
`LINK_ENTRIES`, `SUBST` and `BCCD_BASE`, and the free values of 93_implementation_defined.md
I1 to I3. Every `opaque` constant has no body: no proof can see its value.
-/

namespace Sys2Proof

/-- `LINK_ENTRIES - 1`; any value that makes `LINK_ENTRIES` lie in 1..65535 (R10; log 6). -/
opaque Config.linkEntriesLessOne : Fin 65535

/-- The parameter `LINK_ENTRIES`, the number of records of each link bank, 1..65535 (R10, I15). -/
def Config.linkEntries : Nat := Config.linkEntriesLessOne.val + 1

/-- The contents of the substitution table, which the spec does not give (R179, D13; log 7). -/
opaque Config.substTable : Color → List Color

/-- The parameter `SUBST`: for each color an ordered list of 0..15 candidates (R10, R179, I14). -/
def Config.subst (c : Color) : List Color := (Config.substTable c).take 15

/-- The number of the 4 KiB page that holds the register window (R61, I16; log 8). -/
opaque Config.bccdPage : Nat

/-- The parameter `BCCD_BASE`, a multiple of 4096 (R60, R61). -/
def Config.bccdBase : Nat := 4096 * Config.bccdPage

/-- The value of the n-th draw of "any value" (93 I1 to I3; log 4): nothing constrains it. -/
opaque Config.freeWord : Nat → Word

/-- The two parameters that commands and register reads depend on. Operations take them as an
argument, so that what they compute can be evaluated on a table and a bank size of one's choice;
the machine supplies `Config.params`. -/
structure Params where
  /-- `LINK_ENTRIES` (R10). -/
  linkEntries : Nat
  /-- `SUBST` (R179). -/
  subst : Color → List Color

/-- The parameters of this machine. -/
def Config.params : Params := { linkEntries := Config.linkEntries, subst := Config.subst }

end Sys2Proof
end

