-- ==== Sys2Proof/Machine/State.lean ====
section
/-!
DEFINITION. The state of the block (10_state.md), the bus accesses and other events that reach it,
and the state after reset (70_reset_and_hazards.md R261).
-/

namespace Sys2Proof.Machine

/-- The reasons the machine can stop with a fault: none. The block takes no traps (R230), an error
ends a command with a result code (R236) or an access with an error answer (R238), and the machine
goes on after either (log 12; safe). -/
inductive Fault where
  deriving DecidableEq, Repr

/-- The reasons the model can refuse a step. -/
inductive Refusal where
  /-- Raised by an arm of `exec` whose command has no meaning yet (safe: nothing is proved about
  it). No arm answers with it: all seven commands have their meaning. -/
  | notModelled (mnemonic : String)
  deriving DecidableEq, Repr

/-- `CTRL.MODE` (R8, R23). -/
inductive Mode where
  /-- 0: 8×8 pixels, two slots. -/
  | twoColor
  /-- 1: 4×8 pixels, four slots. -/
  | fourColor
  deriving DecidableEq, Repr

/-- The result codes of `STATUS.ERRCODE` (R231). Codes 5..7 are reserved and never written (I6). -/
inductive ErrCode where
  /-- 0, OK: completed without error. -/
  | ok
  /-- 1, ILLEGAL: reserved opcode or nonzero MBZ bits (R232). -/
  | illegal
  /-- 2, CFG: 4-color PROCESS with no background declared (R233). -/
  | cfg
  /-- 3, NOPIX: a pixel row not written since reset (R234). -/
  | nopix
  /-- 4, INDEX: block coordinate outside the grid, or grid larger than the banks (R235). -/
  | index
  deriving DecidableEq, Repr

/-- The block stages of `STATUS.STAGE` (R29). Value 7 is reserved and never set (I7). -/
inductive Stage where
  /-- 0. -/
  | empty
  /-- 1. -/
  | pixelsLoaded
  /-- 2. -/
  | analyzed
  /-- 3. -/
  | clashed
  /-- 4, never observable: PROCESS is atomic and passes through it (R29). -/
  | slotsAssigned
  /-- 5. -/
  | clashFixed
  /-- 6. -/
  | binaryEncoded
  deriving DecidableEq, Repr

/-- The slot→color inverse mapping (R32, R141): the color of each slot, none when unassigned. -/
structure SlotTable where
  /-- The color of slot 0. -/
  s0 : Option Color
  /-- The color of slot 1. -/
  s1 : Option Color
  /-- The color of slot 2. -/
  s2 : Option Color
  /-- The color of slot 3. -/
  s3 : Option Color
  deriving DecidableEq, Repr

/-- The mapping that assigns no slot: every field of the register is 0. -/
def SlotTable.empty : SlotTable := { s0 := none, s1 := none, s2 := none, s3 := none }

/-- A link record (R40, R190). -/
structure LinkRecord where
  /-- VALID, bit 24. -/
  valid : Bool
  /-- MODE, bit 25: `CTRL.MODE` of the PROCESS that wrote the record. -/
  mode : Mode
  /-- WAS_CLASHED, bit 26: the clash test before repair. -/
  wasClashed : Bool
  /-- FINAL_CLASH, bit 27: still clashed after any requested repair. -/
  finalClash : Bool
  /-- ANOMALY, bit 28: global-table anomaly. -/
  anomaly : Bool
  /-- SKIPPED, bit 29: assignment skipped because the previous block was clashed. -/
  skipped : Bool
  /-- REPAIRED, bit 30: ClashRepair ran. -/
  repaired : Bool
  /-- Bits 19:0, the slot colors and SVALID. -/
  slots : SlotTable
  deriving DecidableEq, Repr

/-- An invalid record: every field 0 (R199). -/
def LinkRecord.invalid : LinkRecord :=
  { valid := false, mode := .twoColor, wasClashed := false, finalClash := false, anomaly := false,
    skipped := false, repaired := false, slots := SlotTable.empty }

/-- A link bank (R42, R190), the block's memory: the valid records by index, in rising order of the
index. A record that is not listed reads as `LinkRecord.invalid`, the reset contents (log 10). -/
abbrev LinkBank := List (Nat × LinkRecord)

/-- The pixel buffer, rows `PIX0`..`PIX7` (R35). -/
abbrev PixelRows := Vector Word 8

/-- The width of a bus access (R63). Only 32-bit accesses are performed. -/
inductive AccessWidth where
  /-- 8 bits. -/
  | byte
  /-- 16 bits. -/
  | half
  /-- 32 bits. -/
  | word
  deriving DecidableEq, Repr

/-- A host bus access at a window offset (R13, R100, R101). -/
inductive BusAccess where
  /-- RD: `MemRead(off, width)`. -/
  | read (width : AccessWidth) (off : BitVec 12)
  /-- WR: `MemWrite(off, width, v)`. -/
  | write (width : AccessWidth) (off : BitVec 12) (v : Word)
  deriving DecidableEq, Repr

/-- What the bus answers to an access. -/
inductive BusAnswer where
  /-- A read's data (R100). -/
  | data (v : Word)
  /-- A write that got no error, performed, ignored or dropped (R101, R102). -/
  | written
  /-- BusError of a read; the data is not defined (R238, I3). -/
  | readError (v : Word)
  /-- BusError of a write (R238). -/
  | writeError
  /-- The reset input was asserted: the block answers no access (R260, I20; log 13). -/
  | noAnswer
  deriving DecidableEq, Repr

/-- One element of the interleaving of the agents (R16, R69; log 1). -/
inductive Input where
  /-- The host makes an access. -/
  | access (a : BusAccess)
  /-- The engine has its turn: it completes the pending command, if there is one (R109). -/
  | engine
  /-- The environment drives the reset input to this level (R260). -/
  | rst (asserted : Bool)
  deriving DecidableEq, Repr

/-- The state of the machine. INVENTORY.md lists every field with its rule and reset value. -/
structure State where
  /-- `CTRL` (R23). -/
  ctrl : Word
  /-- `BG` (R24). -/
  bg : Word
  /-- `GTAB` (R25). -/
  gtab : Word
  /-- `GRID` (R26). -/
  grid : Word
  /-- `LINKSEL` (R39). -/
  linksel : Word
  /-- `STATUS.DONE` (R28). -/
  done : Bool
  /-- `STATUS.ERRCODE` (R28, R231). -/
  errcode : ErrCode
  /-- `STATUS.ERR_BUSY` (R28, R239). -/
  errBusy : Bool
  /-- `STATUS.CLASH` (R28). -/
  clash : Bool
  /-- `STATUS.WAS_CLASHED` (R28). -/
  wasClashed : Bool
  /-- `STATUS.REPAIRED` (R28). -/
  repaired : Bool
  /-- `STATUS.SKIPPED` (R28). -/
  skipped : Bool
  /-- `STATUS.ANOMALY` (R28). -/
  anomaly : Bool
  /-- `STATUS.PREV_VALID` (R28). -/
  prevValid : Bool
  /-- `STATUS.STAGE` (R29). -/
  stage : Stage
  /-- `STATUS.PIXVALID` (R36). -/
  pixvalid : BitVec 8
  /-- `DISTINCT` (R30). -/
  distinct : Word
  /-- `KEEP` (R31). -/
  keep : Word
  /-- `SLOTMAP` (R32). -/
  slotmap : SlotTable
  /-- `SUMMARY` (R33). -/
  summary : Word
  /-- `PACKED0` (R37). -/
  packed0 : Word
  /-- `PACKED1` (R37). -/
  packed1 : Word
  /-- `HIST0` (R38). -/
  hist0 : Word
  /-- `HIST1` (R38). -/
  hist1 : Word
  /-- `HIST2` (R38). -/
  hist2 : Word
  /-- `HIST3` (R38). -/
  hist3 : Word
  /-- `PIX0`..`PIX7` (R35). -/
  pix : PixelRows
  /-- `Link[CUR]` (R42, R190). -/
  cur : LinkBank
  /-- `Link[PREV]` (R42, R190). -/
  prev : LinkBank
  /-- The accepted command word while a command is pending (R42, R108; log 2). `STATUS.BUSY` is 1
  exactly when there is one. -/
  pending : Option Word
  /-- The level of the reset input (R260; log 13). -/
  rst : Bool
  /-- The model's own: the events still to come, first one first (log 1). -/
  inputs : List Input
  /-- The model's own: the answer to the last access, none before any (log 5). -/
  resp : Option BusAnswer
  /-- The model's own: how many free values have been drawn (logs 4 and 5). -/
  draws : Nat
  deriving DecidableEq, Repr

/-- The machine right after reset, the reset input released (R261). The spec gives `PIX0`..`PIX7` no
reset value: zero is the model's choice (DESIGN CHOICE, unsafe, log 3). `inputs`, `resp` and
`draws` are the model's own (DESIGN CHOICE, logs 1 and 5). -/
def State.reset : State :=
  { ctrl := 0, bg := 0, gtab := 0, grid := 0, linksel := 0
    done := false, errcode := .ok, errBusy := false
    clash := false, wasClashed := false, repaired := false, skipped := false, anomaly := false
    prevValid := false, stage := .empty, pixvalid := 0
    distinct := 0, keep := 0, slotmap := SlotTable.empty, summary := 0, packed0 := 0, packed1 := 0
    hist0 := 0, hist1 := 0, hist2 := 0, hist3 := 0
    pix := #v[0, 0, 0, 0, 0, 0, 0, 0]
    cur := [], prev := [], pending := none
    rst := false, inputs := [], resp := none, draws := 0 }

end Sys2Proof.Machine
end

