-- ==== Sys2Proof/Machine/Operands.lean ====
section
/-!
DEFINITION. Everything a command or an access reads: the fields of the configuration registers
(10_state.md R23 to R26, R39), the mode constants (R8, R120), the pixels, histogram and distinct
colors of the block (R35, R121 to R123), and the registers of the window by offset (R20).
-/

namespace Sys2Proof.Machine

/-! ### Configuration fields -/

/-- Bits 7:0 up to 31:24 of a word: byte lane k (20_memory.md R62). -/
def byteLane (w : Word) (k : Nat) : BitVec 8 := w.extractLsb' (8 * k) 8

/-- The mode of a `CTRL` value, bit 0 (R23). -/
def modeOfCtrl (ctrl : Word) : Mode := if ctrl.getLsbD 0 then .fourColor else .twoColor

/-- `CTRL.MODE` (R23). -/
def ctrlMode (s : State) : Mode := modeOfCtrl s.ctrl

/-- `CTRL.REPAIR_EN` (R23). -/
def repairEn (s : State) : Bool := s.ctrl.getLsbD 1

/-- `CTRL.FILLSEL` (R23). -/
def fillSel (s : State) : Bool := s.ctrl.getLsbD 2

/-- `CTRL.GTAB_EN` (R23). -/
def gtabEn (s : State) : Bool := s.ctrl.getLsbD 3

/-- `CTRL.IRQ_EN` (R23). -/
def irqEn (s : State) : Bool := s.ctrl.getLsbD 4

/-- `BG.BGCOL` (R24). -/
def bgCol (s : State) : Color := s.bg.extractLsb' 0 4

/-- `BG.BGEN` (R24). -/
def bgEn (s : State) : Bool := s.bg.getLsbD 4

/-- `GTAB.G01` (R25). -/
def gtabG01 (gtab : Word) : Color := gtab.extractLsb' 0 4

/-- `GTAB.G01_V` (R25). -/
def gtabG01Valid (gtab : Word) : Bool := gtab.getLsbD 4

/-- `GTAB.G10` (R25). -/
def gtabG10 (gtab : Word) : Color := gtab.extractLsb' 8 4

/-- `GTAB.G10_V` (R25). -/
def gtabG10Valid (gtab : Word) : Bool := gtab.getLsbD 12

/-- `GRID.COLS` (R26). -/
def gridCols (s : State) : Nat := (s.grid.extractLsb' 0 8).toNat

/-- `GRID.ROWS` (R26). -/
def gridRows (s : State) : Nat := (s.grid.extractLsb' 8 8).toNat

/-- `LINKSEL.INDEX` (R39). -/
def linkselIndex (s : State) : Nat := (s.linksel.extractLsb' 0 16).toNat

/-- `LINKSEL.BANK`: the bank that `LINKDATA` shows, CUR for 0 and PREV for 1 (R39). -/
def linkselBank (s : State) : LinkBank := if s.linksel.getLsbD 16 then s.prev else s.cur

/-- The bits of each read-write register that are not reserved (R23 to R26, R39, R105). -/
def ctrlMask : Word := 0x0000001F

/-- See `ctrlMask`. -/
def bgMask : Word := 0x0000001F

/-- See `ctrlMask`. -/
def gtabMask : Word := 0x00001F1F

/-- See `ctrlMask`. -/
def gridMask : Word := 0x0000FFFF

/-- See `ctrlMask`. -/
def linkselMask : Word := 0x0001FFFF

/-- `STATUS.BUSY`: a command is pending (R28, R108, R109; log 2). -/
def busy (s : State) : Bool := s.pending.isSome

/-! ### Mode constants (R8, R120, R140) -/

/-- The block width `W(MODE)` in pixels. -/
def blockWidth : Mode → Nat
  | .twoColor => 8
  | .fourColor => 4

/-- `maxSlots(MODE)`. -/
def maxSlots : Mode → Nat
  | .twoColor => 2
  | .fourColor => 4

/-- The fresh-allocation order of Pass 2 (R140). -/
def freshOrder : Mode → List Slot
  | .twoColor => [0, 1]
  | .fourColor => [1, 2, 3]

/-- The fallback order of the global-table path (R140). -/
def fallbackOrder : List Slot := [3, 2, 1]

/-! ### Pixels, histogram and distinct colors -/

/-- `PIX[y][x]` of the row word: bits 4x+3..4x (R35). -/
def pixelOf (row : Word) (x : Nat) : Color := row.extractLsb' (4 * x) 4

/-- The row word with the pixel at column x replaced (R173). -/
def setPixel (row : Word) (x : Nat) (c : Color) : Word :=
  (row &&& ~~~(0xF#32 <<< (4 * x))) ||| (c.setWidth 32 <<< (4 * x))

/-- The active pixels of one row, column 0 first (R121). -/
def rowPixels (m : Mode) (row : Word) : List Color := (List.range (blockWidth m)).map (pixelOf row)

/-- The active pixels of the block, row by row (R121): 64 or 32 of them. -/
def activePixels (m : Mode) (pix : PixelRows) : List Color := pix.toList.flatMap (rowPixels m)

/-- The sixteen colors in ascending order, the enumeration order of the block (R14, R143). -/
def colorsAscending : List Color :=
  [0, 1, 2, 3, 4, 5, 6, 7, 8, 9, 10, 11, 12, 13, 14, 15]

/-- `cnt(c)`: the number of active pixels of color c (R122). -/
def colorCount (m : Mode) (pix : PixelRows) (c : Color) : Nat := (activePixels m pix).count c

/-- `asc(S)`: the colors present in the block, ascending (R14, R123). -/
def colorsPresent (m : Mode) (pix : PixelRows) : List Color :=
  colorsAscending.filter fun c => decide (0 < colorCount m pix c)

/-- The word of `HISTk`: byte j holds the count of color 4k+j (R38). -/
def histWord (m : Mode) (pix : PixelRows) (k : Nat) : Word :=
  let lane := fun (j : Nat) => BitVec.ofNat 8 (colorCount m pix (BitVec.ofNat 4 (4 * k + j)))
  lane 3 ++ lane 2 ++ lane 1 ++ lane 0

/-- The word of `DISTINCT` (R30). -/
def distinctWord (dDetect dFinal : Nat) : Word :=
  BitVec.ofNat 19 0 ++ BitVec.ofNat 5 dFinal ++ BitVec.ofNat 3 0 ++ BitVec.ofNat 5 dDetect

/-- The bit mask of a color set: bit c is 1 when c is in it (R31). -/
def colorMask (cs : List Color) : BitVec 16 := cs.foldl (fun m c => m ||| (1#16 <<< c.toNat)) 0

/-- The word of `KEEP` (R31). -/
def keepWord (kept excluded : List Color) : Word := colorMask excluded ++ colorMask kept

/-! ### Slot tables and records as words -/

/-- The color of a slot, none when unassigned. -/
def slotColor (t : SlotTable) (s : Slot) : Option Color :=
  match s with
  | 0 => t.s0
  | 1 => t.s1
  | 2 => t.s2
  | 3 => t.s3

/-- `col(s)` of R156 and the color fields of R32: 0 when the slot is unassigned. -/
def colorField (t : SlotTable) (s : Slot) : Color := (slotColor t s).getD 0

/-- SVALID, bit s for slot s (R32). -/
def svalidField (t : SlotTable) : BitVec 4 :=
  BitVec.ofBool t.s3.isSome ++ BitVec.ofBool t.s2.isSome ++ BitVec.ofBool t.s1.isSome ++
    BitVec.ofBool t.s0.isSome

/-- The word of `SLOTMAP` (R32). -/
def slotTableWord (t : SlotTable) : Word :=
  BitVec.ofNat 12 0 ++ svalidField t ++ colorField t 3 ++ colorField t 2 ++ colorField t 1 ++
    colorField t 0

/-- The MODE bit of a mode (R8). -/
def modeBit : Mode → Bool
  | .twoColor => false
  | .fourColor => true

/-- The word of a link record as `LINKDATA` shows it (R40). -/
def recordWord (r : LinkRecord) : Word :=
  BitVec.ofNat 1 0 ++ BitVec.ofBool r.repaired ++ BitVec.ofBool r.skipped ++
    BitVec.ofBool r.anomaly ++ BitVec.ofBool r.finalClash ++ BitVec.ofBool r.wasClashed ++
    BitVec.ofBool (modeBit r.mode) ++ BitVec.ofBool r.valid ++ BitVec.ofNat 4 0 ++
    svalidField r.slots ++ colorField r.slots 3 ++ colorField r.slots 2 ++ colorField r.slots 1 ++
    colorField r.slots 0

/-! ### The registers of the window (R20) -/

/-- The registers of the window. -/
inductive Reg where
  | id | param | ctrl | bg | gtab | grid | cmd | status | distinct | keep | slotmap | summary
  | framecnt | linksel | linkdata
  /-- `PIX`y. -/
  | pix (y : Fin 8)
  | packed0 | packed1
  /-- `HIST`k. -/
  | hist (k : Fin 4)
  /-- `SUBST_LO(c)`. -/
  | substLo (c : Color)
  /-- `SUBST_HI(c)`. -/
  | substHi (c : Color)
  deriving DecidableEq, Repr

/-- The window offset of a register (R20). -/
def regOffset : Reg → BitVec 12
  | .id => 0x000
  | .param => 0x004
  | .ctrl => 0x008
  | .bg => 0x00C
  | .gtab => 0x010
  | .grid => 0x014
  | .cmd => 0x018
  | .status => 0x01C
  | .distinct => 0x020
  | .keep => 0x024
  | .slotmap => 0x028
  | .summary => 0x02C
  | .framecnt => 0x030
  | .linksel => 0x034
  | .linkdata => 0x038
  | .pix y => BitVec.ofNat 12 (0x040 + 4 * y.val)
  | .packed0 => 0x060
  | .packed1 => 0x064
  | .hist k => BitVec.ofNat 12 (0x070 + 4 * k.val)
  | .substLo c => BitVec.ofNat 12 (0x080 + 8 * c.toNat)
  | .substHi c => BitVec.ofNat 12 (0x084 + 8 * c.toNat)

/-- The register of each word offset below 0x040, `off / 4` in order; 0x03C is unmapped. -/
def lowRegs : List Reg :=
  [.id, .param, .ctrl, .bg, .gtab, .grid, .cmd, .status, .distinct, .keep, .slotmap, .summary,
    .framecnt, .linksel, .linkdata]

/-- The register at a window offset; none where the offset is misaligned or unmapped, so that an
access gets BusError (R20, R64). -/
def regAt (off : BitVec 12) : Option Reg :=
  let n := off.toNat
  if n % 4 ≠ 0 then none
  else if n < 0x040 then lowRegs[n / 4]?
  else if n < 0x060 then some (.pix (Fin.ofNat 8 ((n - 0x040) / 4)))
  else if n = 0x060 then some .packed0
  else if n = 0x064 then some .packed1
  else if n < 0x070 then none
  else if n < 0x080 then some (.hist (Fin.ofNat 4 ((n - 0x070) / 4)))
  else if n < 0x100 then
    let c := BitVec.ofNat 4 ((n - 0x080) / 8)
    some (if n % 8 = 0 then .substLo c else .substHi c)
  else none

end Sys2Proof.Machine
end

