-- ==== Sys2Proof/Machine/Flags.lean ====
section
/-!
DEFINITION. The flags: the clash test (41_clash_detect.md R124), the frame counts and the error
list (44_frame_link.md R200, R201), the word of STATUS (10_state.md R28) and the `irq` output
(60_exceptions.md R242).
-/

namespace Sys2Proof.Machine

/-- The clash test on the present colors S (R124). -/
def clashTest (m : Mode) (bgen : Bool) (bgcol : Color) (present : List Color) : Bool :=
  decide (maxSlots m < present.length) ||
    (bgen && decide (present.length = maxSlots m) && !present.contains bgcol)

/-- The clash test on the block as it stands in the pixel buffer (R124). -/
def blockClashes (s : State) : Bool :=
  clashTest (ctrlMode s) (bgEn s) (bgCol s) (colorsPresent (ctrlMode s) s.pix)

/-- Whether a record is in the frame's error list: VALID = 1 and FINAL_CLASH = 1 (R200, R201). -/
def recordFailed (r : LinkRecord) : Bool := r.valid && r.finalClash

/-- Whether a record counts as an anomaly: VALID = 1 and ANOMALY = 1 (R200). -/
def recordAnomalous (r : LinkRecord) : Bool := r.valid && r.anomaly

/-- `FRAMECNT.ERRCOUNT`, a live function of the CUR bank (R34, R200; log 20). -/
def errCount (s : State) : Nat := s.cur.countP fun e => recordFailed e.2

/-- `FRAMECNT.ANOMCOUNT`, a live function of the CUR bank (R34, R200; log 20). -/
def anomCount (s : State) : Nat := s.cur.countP fun e => recordAnomalous e.2

/-- `STATUS.FRAME_FAIL` (R200). -/
def frameFail (s : State) : Bool := decide (errCount s ≠ 0)

/-- The word of `FRAMECNT` (R34). -/
def framecntWord (s : State) : Word := BitVec.ofNat 16 (anomCount s) ++ BitVec.ofNat 16 (errCount s)

/-- The frame's error list as (block column, block row) pairs in rising index order (R201). -/
def errorList (s : State) : List (Nat × Nat) :=
  (s.cur.filter fun e => recordFailed e.2).map fun e => (e.1 % gridCols s, e.1 / gridCols s)

/-- The value of `STATUS.ERRCODE` (R231). -/
def errCodeBits : ErrCode → BitVec 3
  | .ok => 0
  | .illegal => 1
  | .cfg => 2
  | .nopix => 3
  | .index => 4

/-- The value of `STATUS.STAGE` (R29). -/
def stageBits : Stage → BitVec 3
  | .empty => 0
  | .pixelsLoaded => 1
  | .analyzed => 2
  | .clashed => 3
  | .slotsAssigned => 4
  | .clashFixed => 5
  | .binaryEncoded => 6

/-- The word of `STATUS` when no command is pending (R28): BUSY reads 0. -/
def statusWordIdle (s : State) : Word :=
  s.pixvalid ++ BitVec.ofNat 5 0 ++ stageBits s.stage ++ BitVec.ofNat 2 0 ++
    BitVec.ofBool s.prevValid ++ BitVec.ofBool s.anomaly ++ BitVec.ofBool s.skipped ++
    BitVec.ofBool s.repaired ++ BitVec.ofBool s.wasClashed ++ BitVec.ofBool s.clash ++
    BitVec.ofBool s.errBusy ++ errCodeBits s.errcode ++ BitVec.ofNat 1 0 ++
    BitVec.ofBool (frameFail s) ++ BitVec.ofBool s.done ++ BitVec.ofNat 1 0

/-- The word of `STATUS` while a command is pending (R110): BUSY reads 1, DONE 0, ERR_BUSY and
PIXVALID as stored, and the other fields are those of `any`, a free value (log 4). -/
def statusWordBusy (s : State) (any : Word) : Word :=
  s.pixvalid ++ BitVec.ofNat 5 0 ++ any.extractLsb' 16 3 ++ BitVec.ofNat 2 0 ++
    any.extractLsb' 8 6 ++ BitVec.ofBool s.errBusy ++ any.extractLsb' 4 3 ++ BitVec.ofNat 1 0 ++
    any.extractLsb' 2 1 ++ BitVec.ofNat 1 0 ++ BitVec.ofNat 1 1

/-- The `irq` output: `STATUS.DONE and CTRL.IRQ_EN` (R242). -/
def irq (s : State) : Bool := s.done && irqEn s

/-- STAGE after a write to a pixel row: PixelsLoaded once all eight rows are valid (R29, R103). -/
def stageOfPixvalid (pixvalid : BitVec 8) : Stage :=
  if pixvalid = 0xFF then .pixelsLoaded else .empty

/-- The six block flags, which every block command writes together (R125, R175, R196). -/
def setBlockFlags (clash wasClashed repaired skipped anomaly prevValid : Bool) (s : State) : State :=
  { s with
    clash := clash, wasClashed := wasClashed, repaired := repaired
    skipped := skipped, anomaly := anomaly, prevValid := prevValid }

end Sys2Proof.Machine
end

