-- ==== Sys2Proof/Machine/Ops.lean ====
section
/-!
DEFINITION. The named operations over the link banks and the sequencing state: record lookup and
update (44_frame_link.md R190, R192, R195, R199), command acceptance and completion
(40_host_access.md R108, R109), raising CmdError (60_exceptions.md R236) and Reset()
(70_reset_and_hazards.md R260).

The block takes no traps (R230) and returns from none (R244): ending a command with an error code
is the one shared operation `raiseCmdError`, and `completeWith` is the completion beside it.
-/

namespace Sys2Proof.Machine

/-! ### Link banks -/

/-- `Link[bank][i]`: the listed record, or the invalid one (R192, R199). -/
def linkRead (bank : LinkBank) (i : Nat) : LinkRecord := (bank.lookup i).getD LinkRecord.invalid

/-- The bank without its record i. -/
def linkErase (bank : LinkBank) (i : Nat) : LinkBank := bank.filter fun e => e.1 != i

/-- A record put into its place in the rising order of the indexes. -/
def linkInsert (i : Nat) (r : LinkRecord) : LinkBank → LinkBank
  | [] => [(i, r)]
  | e :: rest => if i < e.1 then (i, r) :: e :: rest else e :: linkInsert i r rest

/-- `Link[bank][i] <- r` (R195). Writing the invalid record removes the entry, so that equal banks
are equal lists. -/
def linkWrite (bank : LinkBank) (i : Nat) (r : LinkRecord) : LinkBank :=
  if r = LinkRecord.invalid then linkErase bank i else linkInsert i r (linkErase bank i)

/-- The canonical form of a bank: indexes strictly rising, and no entry equal to what an unlisted
index reads as. -/
def linkBankWf (bank : LinkBank) : Bool :=
  decide (bank.Pairwise fun a b => a.1 < b.1) && bank.all fun e => e.2 != LinkRecord.invalid

/-- `Invalidate(CUR); Invalidate(PREV)` (R199). -/
def invalidateBanks (s : State) : State := { s with cur := [], prev := [] }

/-! ### Sequencing -/

/-- The word the engine has to execute, if a command is pending (R42, R109). -/
def fetchCommand (s : State) : Option Word := s.pending

/-- Command acceptance (R108): the word becomes pending, so BUSY is 1, and DONE is cleared. -/
def acceptCommand (cmd : Word) (s : State) : State := { s with pending := some cmd, done := false }

/-- Completion (R109): ERRCODE takes the code, BUSY becomes 0, DONE becomes 1. -/
def completeWith (code : ErrCode) (s : State) : State :=
  { s with errcode := code, pending := none, done := true }

/-- `raise CmdError(code)` (R13, R236): the command completes with the code and no other effect. -/
def raiseCmdError (code : ErrCode) (s : State) : State := completeWith code s

/-- `Reset()` (R260, R261): every piece of state of the block takes its reset value at one instant
and a pending command is abandoned. The reset input, the events to come, the last bus answer and
the free-value counter belong to the outside and stay. -/
def resetBlock (s : State) : State :=
  { State.reset with rst := s.rst, inputs := s.inputs, resp := s.resp, draws := s.draws }

/-- The next free value (93 I1 to I3; log 4). -/
def freeDraw (s : State) : Word := Config.freeWord s.draws

/-- A write dropped because a command is pending: only ERR_BUSY is set (R102, R239). -/
def dropWrite (s : State) : State := { s with errBusy := true }

end Sys2Proof.Machine
end

