-- ==== Sys2Proof/Machine/ClashDetect.lean ====
section
/-!
DEFINITION. The clash detector and the DETECT command (41_clash_detect.md R120 to R127).
-/

namespace Sys2Proof.Machine

/-- `HIST0`..`HIST3` and `DISTINCT` from the block that stands in `pix`: the counts and D_FINAL are
those of `pix`, D_DETECT is given (R30, R38). -/
def writeCounts (dDetect : Nat) (m : Mode) (pix : PixelRows) (s : State) : State :=
  { s with
    hist0 := histWord m pix 0, hist1 := histWord m pix 1
    hist2 := histWord m pix 2, hist3 := histWord m pix 3
    distinct := distinctWord dDetect (colorsPresent m pix).length }

/-- The number of distinct colors of the block in the pixel buffer, D of R123. -/
def distinctCount (s : State) : Nat := (colorsPresent (ctrlMode s) s.pix).length

/-- What DETECT writes when every pixel row is valid (R125). -/
def detectUpdate (s : State) : State :=
  let k := blockClashes s
  let counted := writeCounts (distinctCount s) (ctrlMode s) s.pix s
  setBlockFlags k k false false false false
    { counted with keep := 0, stage := if k then .clashed else .analyzed }

/-- DETECT (R125). -/
def execDetect (s : State) : Host.Outcome State Fault Refusal :=
  if s.pixvalid ≠ 0xFF then .next (raiseCmdError .nopix s)
  else .next (completeWith .ok (detectUpdate s))

end Sys2Proof.Machine
end

