-- ==== Sys2Proof/Machine/ClashRepair.lean ====
section
/-!
DEFINITION. The color-substitution search engine and the REPAIR command (43_clash_repair.md R170 to
R179).
-/

namespace Sys2Proof.Machine

/-- Whether a ranks before b: more pixels, or as many and not the larger index (R170). -/
def ranksBefore (m : Mode) (pix : PixelRows) (a b : Color) : Bool :=
  decide (colorCount m pix b < colorCount m pix a) ||
    (decide (colorCount m pix a = colorCount m pix b) && decide (a.toNat ≤ b.toNat))

/-- The color put into its place in the ranking. -/
def rankInsert (m : Mode) (pix : PixelRows) (c : Color) : List Color → List Color
  | [] => [c]
  | d :: rest => if ranksBefore m pix c d then c :: d :: rest else d :: rankInsert m pix c rest

/-- `rank`: the present colors, most pixels first, equal counts by ascending index (R170). -/
def rankColors (m : Mode) (pix : PixelRows) : List Color :=
  (colorsPresent m pix).foldr (rankInsert m pix) []

/-- The kept set K of a ranking (R171). -/
def keptSet (m : Mode) (bgen : Bool) (bgcol : Color) (rank : List Color) : List Color :=
  if bgen && !(rank.take (maxSlots m)).contains bgcol then rank.take (maxSlots m - 1) ++ [bgcol]
  else rank.take (maxSlots m)

/-- `S \ K`, ascending (R172, R174). -/
def excludedSet (present kept : List Color) : List Color :=
  present.filter fun c => !kept.contains c

/-- `sub(c)` of an excluded color: the first kept candidate of its table row, else the background,
else the most-occupied color `rank[0]` (R172). -/
def substitute (subst : Color → List Color) (bgen : Bool) (bgcol : Color) (rank kept : List Color)
    (c : Color) : Color :=
  match (subst c).find? fun e => kept.contains e with
  | some e => e
  | none => if bgen then bgcol else rank.headD 0

/-- The row with every active pixel recolored; the bits that are not active pixels stay (R173). -/
def recolorRow (m : Mode) (f : Color → Color) (row : Word) : Word :=
  (List.range (blockWidth m)).foldl (fun r x => setPixel r x (f (pixelOf r x))) row

/-- The pixel buffer with every active pixel recolored (R173). -/
def recolor (m : Mode) (f : Color → Color) (pix : PixelRows) : PixelRows :=
  Vector.ofFn fun y => recolorRow m f pix[y]

/-- What ClashRepair produces (R174). -/
structure RepairResult where
  /-- K. -/
  kept : List Color
  /-- `S \ K`. -/
  excluded : List Color
  /-- The rewritten pixel buffer. -/
  pix : PixelRows

/-- `Repair()` (R174). -/
def repairBlock (subst : Color → List Color) (m : Mode) (bgen : Bool) (bgcol : Color)
    (pix : PixelRows) : RepairResult :=
  let rank := rankColors m pix
  let kept := keptSet m bgen bgcol rank
  let excluded := excludedSet (colorsPresent m pix) kept
  { kept := kept
    excluded := excluded
    pix := recolor m
      (fun c => if excluded.contains c then substitute subst bgen bgcol rank kept c else c) pix }

/-- `Repair()` on the pixel buffer of a state. -/
def repairState (p : Params) (s : State) : RepairResult :=
  repairBlock p.subst (ctrlMode s) (bgEn s) (bgCol s) s.pix

/-- What REPAIR writes on a clashed block (R175, k = 1). -/
def repairClashedUpdate (p : Params) (s : State) : State :=
  let r := repairState p s
  let counted := writeCounts (distinctCount s) (ctrlMode s) r.pix s
  setBlockFlags false true true false false false
    { counted with pix := r.pix, keep := keepWord r.kept r.excluded, stage := .clashFixed }

/-- What REPAIR writes on a block that is not clashed (R175, k = 0). -/
def repairCleanUpdate (s : State) : State :=
  let counted := writeCounts (distinctCount s) (ctrlMode s) s.pix s
  setBlockFlags false false false false false false { counted with keep := 0, stage := .analyzed }

/-- What REPAIR writes when every pixel row is valid (R175). -/
def repairUpdate (p : Params) (s : State) : State :=
  if blockClashes s then repairClashedUpdate p s else repairCleanUpdate s

/-- REPAIR (R175). -/
def execRepair (s : State) : Host.Outcome State Fault Refusal :=
  if s.pixvalid ≠ 0xFF then .next (raiseCmdError .nopix s)
  else .next (completeWith .ok (repairUpdate Config.params s))

end Sys2Proof.Machine
end

