-- ==== Sys2Proof/Machine/Control.lean ====
section
/-!
DEFINITION. The control commands NOP and SRESET (45_control.md R220, R221).
-/

namespace Sys2Proof.Machine

/-- NOP (R220): no effect but the completion. -/
def execNop (s : State) : Host.Outcome State Fault Refusal := .next (completeWith .ok s)

/-- SRESET (R221): Reset() in place of the completion, so DONE reads 0 after it. -/
def execSreset (s : State) : Host.Outcome State Fault Refusal := .next (resetBlock s)

end Sys2Proof.Machine
end

