-- ==== Sys2Proof/Machine/SlotAssign.lean ====
section
/-!
DEFINITION. The color-to-slot assignment mapper, the row packer and the summary (42_slot_assign.md
R140 to R159), which PROCESS uses.
-/

namespace Sys2Proof.Machine

/-- A slot map: a partial function from colors to slots, as its list of pairs (R14, R141). -/
abbrev SlotMap := List (Color × Slot)

/-- `map[c]`, none when c is not in `dom(map)` (R14). -/
def slotOfColor (map : SlotMap) (c : Color) : Option Slot := map.lookup c

/-- Whether a slot is taken: some color has it. -/
def slotTaken (map : SlotMap) (s : Slot) : Bool := map.any fun e => e.2 == s

/-- `map[c] <- s`, for a color that has no slot yet. -/
def assignSlot (map : SlotMap) (c : Color) (s : Slot) : SlotMap := map ++ [(c, s)]

/-- The map a block starts with: the declared background at slot 0 (R142). -/
def seedMap (bgen : Bool) (bgcol : Color) : SlotMap := if bgen then [(bgcol, 0)] else []

/-- N: the present colors other than a declared background, ascending (R143). -/
def nonBackground (bgen : Bool) (bgcol : Color) (present : List Color) : List Color :=
  present.filter fun c => !(bgen && c == bgcol)

/-- `pm[c]`: the slot of a color in the previous record, none when the record is invalid (R144;
log 15). -/
def previousSlot (prev : LinkRecord) (c : Color) : Option Slot :=
  if prev.valid then [0, 1, 2, 3].find? fun s => slotColor prev.slots s == some c else none

/-- One color of Pass 1: its previous slot if that is free, else it is deferred (R144). -/
def reuseStep (prev : LinkRecord) (acc : SlotMap × List Color) (c : Color) :
    SlotMap × List Color :=
  match previousSlot prev c with
  | some s => if slotTaken acc.1 s then (acc.1, acc.2 ++ [c]) else (assignSlot acc.1 c s, acc.2)
  | none => (acc.1, acc.2 ++ [c])

/-- Pass 1, reuse: the map and the deferred colors (R144). -/
def reusePass (prev : LinkRecord) (map : SlotMap) (colors : List Color) : SlotMap × List Color :=
  colors.foldl (reuseStep prev) (map, [])

/-- One color takes the first slot of the order that is not taken (R145, R148). When none is free
the color stays without a slot (log 14; by R157 PROCESS never gets there). -/
def allocateStep (order : List Slot) (map : SlotMap) (c : Color) : SlotMap :=
  match order.find? fun s => !slotTaken map s with
  | some s => assignSlot map c s
  | none => map

/-- Each color in turn takes the first free slot of the order (R145, R148). -/
def allocate (order : List Slot) (map : SlotMap) (colors : List Color) : SlotMap :=
  colors.foldl (allocateStep order) map

/-- The entry G01 unless it is absent or names the background (R146). -/
def effectiveG01 (gtab : Word) (bgen : Bool) (bgcol : Color) : List (Slot × Color) :=
  if gtabG01Valid gtab && !(bgen && gtabG01 gtab == bgcol) then [(1, gtabG01 gtab)] else []

/-- G: the effective global entries (R146). -/
def effectiveGlobal (gtab : Word) (bgen : Bool) (bgcol : Color) : List (Slot × Color) :=
  let g := effectiveG01 gtab bgen bgcol
  if gtabG10Valid gtab && !(bgen && gtabG10 gtab == bgcol) && !g.contains (1, gtabG10 gtab) then
    g ++ [(2, gtabG10 gtab)]
  else g

/-- The slot an effective global entry gives a color (R147). -/
def globalSlot (g : List (Slot × Color)) (c : Color) : Option Slot :=
  (g.find? fun e => e.2 == c).map fun e => e.1

/-- One color of the global match: its entry's slot, else it goes to the fallback (R147). -/
def globalStep (g : List (Slot × Color)) (acc : SlotMap × List Color) (c : Color) :
    SlotMap × List Color :=
  match globalSlot g c with
  | some s => (assignSlot acc.1 c s, acc.2)
  | none => (acc.1, acc.2 ++ [c])

/-- The global match: the map and F, the colors for the fallback (R147, R148). -/
def globalPass (g : List (Slot × Color)) (map : SlotMap) (colors : List Color) :
    SlotMap × List Color :=
  colors.foldl (globalStep g) (map, [])

/-- `{1, 2, 3} \ Ded`: the slots the table does not dedicate (R146, R149). -/
def undedicatedSlots (g : List (Slot × Color)) : List Slot :=
  [1, 2, 3].filter fun s => !g.any fun e => e.1 == s

/-- The result of the mapper. -/
structure Assignment where
  /-- The slot map. -/
  map : SlotMap
  /-- The anomaly bit (R149). -/
  anomaly : Bool

/-- The global-table path (R146 to R149). -/
def assignGlobal (gtab : Word) (bgen : Bool) (bgcol : Color) (present : List Color) : Assignment :=
  let g := effectiveGlobal gtab bgen bgcol
  let matched := globalPass g (seedMap bgen bgcol) (nonBackground bgen bgcol present)
  { map := allocate fallbackOrder matched.1 matched.2
    anomaly := decide ((undedicatedSlots g).length < matched.2.length) }

/-- The two-pass path (R144, R145); it has no anomaly (R149). -/
def assignTwoPass (m : Mode) (bgen : Bool) (bgcol : Color) (prev : LinkRecord)
    (present : List Color) : Assignment :=
  let reused := reusePass prev (seedMap bgen bgcol) (nonBackground bgen bgcol present)
  { map := allocate (freshOrder m) reused.1 reused.2, anomaly := false }

/-- Whether the mapper takes the global-table path (R150). -/
def usesGlobalTable (m : Mode) (gtabEn : Bool) : Bool :=
  match m with
  | .twoColor => false
  | .fourColor => gtabEn

/-- `Assign` (R150, R151). -/
def assignSlots (m : Mode) (bgen : Bool) (bgcol : Color) (gtabEn : Bool) (gtab : Word)
    (prev : LinkRecord) (present : List Color) : Assignment :=
  if usesGlobalTable m gtabEn then assignGlobal gtab bgen bgcol present
  else assignTwoPass m bgen bgcol prev present

/-! ### Binary encoding -/

/-- The default slot of a pixel whose color has no slot (R153). -/
def fillSlot (fillsel bgen : Bool) (bgcol : Color) (map : SlotMap) : Slot :=
  if fillsel && bgen then (slotOfColor map bgcol).getD 0 else 0

/-- `slotOf(c)` of the packer (R152). -/
def packedSlot (map : SlotMap) (fill : Slot) (c : Color) : Slot := (slotOfColor map c).getD fill

/-- The position of the lowest packed bit of column x: column 0 is most significant (R152). -/
def packShift (m : Mode) (x : Nat) : Nat :=
  match m with
  | .twoColor => 7 - x
  | .fourColor => 6 - 2 * x

/-- The packed byte of a row: the sum of the shifted slots (R152; log 16). -/
def packRow (m : Mode) (map : SlotMap) (fill : Slot) (row : Word) : BitVec 8 :=
  BitVec.ofNat 8
    ((List.range (blockWidth m)).map fun x =>
      (packedSlot map fill (pixelOf row x)).val <<< packShift m x).sum

/-- `PACKED0` for the rows 0..3 and `PACKED1` for the rows 4..7, the first row lowest (R37). -/
def packRows (m : Mode) (map : SlotMap) (fill : Slot) (r0 r1 r2 r3 : Word) : Word :=
  packRow m map fill r3 ++ packRow m map fill r2 ++ packRow m map fill r1 ++ packRow m map fill r0

/-- The color that has a slot, none when no color has it (R155). -/
def colorOfSlot (map : SlotMap) (s : Slot) : Option Color :=
  (map.find? fun e => e.2 == s).map fun e => e.1

/-- The inverse mapping slot→color (R155). -/
def inverseMap (map : SlotMap) : SlotTable :=
  { s0 := colorOfSlot map 0, s1 := colorOfSlot map 1, s2 := colorOfSlot map 2
    s3 := colorOfSlot map 3 }

/-- The word of `SUMMARY`, SUM1 above SUM0 (R33, R156). -/
def summaryWord (m : Mode) (t : SlotTable) : Word :=
  match m with
  | .twoColor => BitVec.ofNat 24 0 ++ colorField t 1 ++ colorField t 0
  | .fourColor => BitVec.ofNat 20 0 ++ colorField t 3 ++ colorField t 1 ++ colorField t 2

end Sys2Proof.Machine
end

