-- ==== Sys2Proof/Machine/FrameLink.lean ====
section
/-!
DEFINITION. The frame temporal linker and the block pipeline: PROCESS, LINKRST and FRAMENEXT
(44_frame_link.md R190 to R205).
-/

namespace Sys2Proof.Machine

/-- `idx = BY * GRID.COLS + BX` (R83, R191). -/
def blockIndex (s : State) (bx by_ : Nat) : Nat := by_ * gridCols s + bx

/-- Whether `CheckIndex` raises no error (R191). -/
def indexOk (p : Params) (s : State) (bx by_ : Nat) : Bool :=
  decide (bx < gridCols s) && decide (by_ < gridRows s) &&
    decide (gridCols s * gridRows s ≤ p.linkEntries)

/-- The error PROCESS raises, in the order CFG, NOPIX, INDEX; none when it runs (R194, R237). -/
def processError (p : Params) (s : State) (bx by_ : Nat) : Option ErrCode :=
  if ctrlMode s = .fourColor ∧ bgEn s = false then some .cfg
  else if s.pixvalid ≠ 0xFF then some .nopix
  else if indexOk p s bx by_ = false then some .index
  else none

/-- What the pipeline finds out about a block before it is encoded (R194). -/
structure BlockAnalysis where
  /-- k0, the clash test before any repair. -/
  wasClashed : Bool
  /-- kfinal. -/
  finalClash : Bool
  /-- rep. -/
  repaired : Bool
  /-- skipped. -/
  skipped : Bool
  /-- anomaly. -/
  anomaly : Bool
  /-- map. -/
  map : SlotMap
  /-- The kept colors of a repair, none without one. -/
  kept : List Color
  /-- The excluded colors of a repair, none without one. -/
  excluded : List Color
  /-- The pixel buffer after any repair. -/
  pix : PixelRows

/-- Whether the previous record stops the analysis (R193): it is keyed on WAS_CLASHED (C1). -/
def previousClashed (prev : LinkRecord) : Bool := prev.valid && prev.wasClashed

/-- The pipeline from the block's colors on, once it is clean or repaired: skip or assign (R193,
R194). -/
def finishAnalysis (s : State) (prev : LinkRecord) (k0 : Bool) (kept excluded : List Color)
    (pix : PixelRows) : BlockAnalysis :=
  if previousClashed prev then
    { wasClashed := k0, finalClash := false, repaired := k0, skipped := true, anomaly := false
      map := [], kept := kept, excluded := excluded, pix := pix }
  else
    let a := assignSlots (ctrlMode s) (bgEn s) (bgCol s) (gtabEn s) s.gtab prev
      (colorsPresent (ctrlMode s) pix)
    { wasClashed := k0, finalClash := false, repaired := k0, skipped := false
      anomaly := a.anomaly, map := a.map, kept := kept, excluded := excluded, pix := pix }

/-- The pipeline up to ENCODE, by the paths of R194 and R196. -/
def analyzeBlock (p : Params) (s : State) (prev : LinkRecord) : BlockAnalysis :=
  if blockClashes s then
    if repairEn s then
      let r := repairState p s
      finishAnalysis s prev true r.kept r.excluded r.pix
    else
      { wasClashed := true, finalClash := true, repaired := false, skipped := false
        anomaly := false, map := [], kept := [], excluded := [], pix := s.pix }
  else finishAnalysis s prev false [] [] s.pix

/-- The record PROCESS commits (R195). -/
def commitRecord (m : Mode) (a : BlockAnalysis) : LinkRecord :=
  { valid := true, mode := m, wasClashed := a.wasClashed, finalClash := a.finalClash
    anomaly := a.anomaly, skipped := a.skipped, repaired := a.repaired
    slots := inverseMap a.map }

/-- ENCODE and the commit (R194, R195): everything PROCESS writes, from the analysis of the block. -/
def encodeBlock (s : State) (idx : Nat) (prev : LinkRecord) (a : BlockAnalysis) : State :=
  let m := ctrlMode s
  let fill := fillSlot (fillSel s) (bgEn s) (bgCol s) a.map
  let pack := packRows m a.map fill
  let table := inverseMap a.map
  let counted := writeCounts (distinctCount s) m a.pix s
  setBlockFlags a.finalClash a.wasClashed a.repaired a.skipped a.anomaly prev.valid
    { counted with
      packed0 := pack a.pix[0] a.pix[1] a.pix[2] a.pix[3]
      packed1 := pack a.pix[4] a.pix[5] a.pix[6] a.pix[7]
      slotmap := table
      summary := summaryWord m table
      keep := keepWord a.kept a.excluded
      pix := a.pix
      stage := .binaryEncoded
      cur := linkWrite s.cur idx (commitRecord m a) }

/-- What PROCESS writes when it raises no error (R194). -/
def processUpdate (p : Params) (bx by_ : Nat) (s : State) : State :=
  let idx := blockIndex s bx by_
  let prev := linkRead s.prev idx
  encodeBlock s idx prev (analyzeBlock p s prev)

/-- PROCESS with its completion (R194, R236). -/
def processCommand (p : Params) (bx by_ : Nat) (s : State) : State :=
  match processError p s bx by_ with
  | some code => raiseCmdError code s
  | none => completeWith .ok (processUpdate p bx by_ s)

/-- PROCESS (R194). -/
def execProcess (bx by_ : Nat) (s : State) : Host.Outcome State Fault Refusal :=
  .next (processCommand Config.params bx by_ s)

/-- LINKRST (R197). -/
def execLinkrst (s : State) : Host.Outcome State Fault Refusal :=
  .next (completeWith .ok (invalidateBanks s))

/-- The current frame becomes the previous one (R198; log 11). -/
def advanceFrame (s : State) : State := { s with prev := s.cur, cur := [] }

/-- FRAMENEXT (R198). -/
def execFramenext (s : State) : Host.Outcome State Fault Refusal :=
  .next (completeWith .ok (advanceFrame s))

end Sys2Proof.Machine
end

