-- ==== Sys2Proof/Machine/Dispatch.lean ====
section
/-!
DEFINITION. `Execute(c)` with its completion (40_host_access.md R109): one arm per command.
-/

namespace Sys2Proof.Machine

def exec (i : Instr) (s : State) : Host.Outcome State Fault Refusal :=
  match i with
  | .nop => Sys2Proof.Machine.execNop s
  | .detect => Sys2Proof.Machine.execDetect s
  | .repair => Sys2Proof.Machine.execRepair s
  | .process bx by_ => Sys2Proof.Machine.execProcess bx by_ s
  | .linkrst => Sys2Proof.Machine.execLinkrst s
  | .framenext => Sys2Proof.Machine.execFramenext s
  | .sreset => Sys2Proof.Machine.execSreset s

end Sys2Proof.Machine
end

