-- ==== Sys2Proof/Machine/HostAccess.lean ====
section
/-!
DEFINITION. The host access family: register reads and writes, narrow, misaligned and unmapped
accesses, and accesses while a command is pending (40_host_access.md R100 to R108, R110).
-/

namespace Sys2Proof.Machine

/-! ### Where the window stands -/

/-- The host address of a window offset (R60). -/
def hostAddress (off : BitVec 12) : Nat := Config.bccdBase + off.toNat

/-- The window offset of a host address, none outside the 4 KiB window (R60, R61). -/
def windowOffset (addr : Nat) : Option (BitVec 12) :=
  if Config.bccdBase ≤ addr ∧ addr < Config.bccdBase + 4096 then
    some (BitVec.ofNat 12 (addr - Config.bccdBase))
  else none

/-! ### Reads -/

/-- The word of `PARAM` (R22): bits 19:16 are SUBST_MAXLEN = 15. -/
def paramWord (p : Params) : Word :=
  BitVec.ofNat 12 0 ++ BitVec.ofNat 4 15 ++ BitVec.ofNat 16 p.linkEntries

/-- The i-th candidate of a substitution row, 0 beyond its length (R41). -/
def candidateField (row : List Color) (i : Nat) : Color := row[i]?.getD 0

/-- The word of `SUBST_LO(c)`: the length and the candidates 0..6 (R41). -/
def substLoWord (row : List Color) : Word :=
  candidateField row 6 ++ candidateField row 5 ++ candidateField row 4 ++ candidateField row 3 ++
    candidateField row 2 ++ candidateField row 1 ++ candidateField row 0 ++
    BitVec.ofNat 4 row.length

/-- The word of `SUBST_HI(c)`: the candidates 7..14 (R41). -/
def substHiWord (row : List Color) : Word :=
  candidateField row 14 ++ candidateField row 13 ++ candidateField row 12 ++
    candidateField row 11 ++ candidateField row 10 ++ candidateField row 9 ++
    candidateField row 8 ++ candidateField row 7

/-- The word of `LINKDATA`: the selected record, 0 when the index is not below LINK_ENTRIES (R40). -/
def linkdataWord (p : Params) (s : State) : Word :=
  if linkselIndex s < p.linkEntries then recordWord (linkRead (linkselBank s) (linkselIndex s))
  else 0

/-- The value a read of a register returns when no command is pending (R100). A pixel row not
written since reset reads any value (R35; log 4). -/
def readIdle (p : Params) (s : State) (r : Reg) : Word :=
  match r with
  | .id => 0x42434344
  | .param => paramWord p
  | .ctrl => s.ctrl
  | .bg => s.bg
  | .gtab => s.gtab
  | .grid => s.grid
  | .cmd => 0
  | .status => statusWordIdle s
  | .distinct => s.distinct
  | .keep => s.keep
  | .slotmap => slotTableWord s.slotmap
  | .summary => s.summary
  | .framecnt => framecntWord s
  | .linksel => s.linksel
  | .linkdata => linkdataWord p s
  | .pix y => if s.pixvalid.getLsbD y.val then s.pix[y] else freeDraw s
  | .packed0 => s.packed0
  | .packed1 => s.packed1
  | .hist k =>
    match k with
    | 0 => s.hist0
    | 1 => s.hist1
    | 2 => s.hist2
    | 3 => s.hist3
  | .substLo c => substLoWord (p.subst c)
  | .substHi c => substHiWord (p.subst c)

/-- Whether a register keeps its value readable while a command is pending (R110); STATUS has a
rule of its own. -/
def readableWhileBusy : Reg → Bool
  | .id => true
  | .param => true
  | .ctrl => true
  | .bg => true
  | .gtab => true
  | .grid => true
  | .cmd => true
  | .status => false
  | .distinct => false
  | .keep => false
  | .slotmap => false
  | .summary => false
  | .framecnt => false
  | .linksel => true
  | .linkdata => false
  | .pix _ => false
  | .packed0 => false
  | .packed1 => false
  | .hist _ => false
  | .substLo _ => true
  | .substHi _ => true

/-- The value a read of a register returns (R100, R110). -/
def readReg (p : Params) (s : State) (r : Reg) : Word :=
  if busy s then
    if r = .status then statusWordBusy s (freeDraw s)
    else if readableWhileBusy r then readIdle p s r
    else freeDraw s
  else readIdle p s r

/-! ### Writes -/

/-- WR `PIX`y (R103). -/
def writePix (y : Fin 8) (v : Word) (s : State) : State :=
  let valid := s.pixvalid ||| (1#8 <<< y.val)
  { s with pix := s.pix.set y v, pixvalid := valid, stage := stageOfPixvalid valid }

/-- WR `CTRL` (R104): a change of MODE invalidates both banks. -/
def writeCtrl (v : Word) (s : State) : State :=
  let written := { s with ctrl := v &&& ctrlMask }
  if modeOfCtrl v = ctrlMode s then written else invalidateBanks written

/-- WR `BG` (R105). -/
def writeBg (v : Word) (s : State) : State := { s with bg := v &&& bgMask }

/-- WR `GTAB` (R105). -/
def writeGtab (v : Word) (s : State) : State := { s with gtab := v &&& gtabMask }

/-- WR `LINKSEL` (R105). -/
def writeLinksel (v : Word) (s : State) : State := { s with linksel := v &&& linkselMask }

/-- WR `GRID` (R106): every write invalidates both banks. -/
def writeGrid (v : Word) (s : State) : State := invalidateBanks { s with grid := v &&& gridMask }

/-- WR `STATUS` (R107), busy or not: write 1 to clear DONE and ERR_BUSY. -/
def writeStatus (v : Word) (s : State) : State :=
  { s with done := s.done && !v.getLsbD 1, errBusy := s.errBusy && !v.getLsbD 7 }

/-- A write to a register when no command is pending (R101); a read-only register ignores it (R65). -/
def writeIdle (r : Reg) (v : Word) (s : State) : State :=
  match r with
  | .ctrl => writeCtrl v s
  | .bg => writeBg v s
  | .gtab => writeGtab v s
  | .grid => writeGrid v s
  | .cmd => acceptCommand v s
  | .status => writeStatus v s
  | .linksel => writeLinksel v s
  | .pix y => writePix y v s
  | .id => s
  | .param => s
  | .distinct => s
  | .keep => s
  | .slotmap => s
  | .summary => s
  | .framecnt => s
  | .linkdata => s
  | .packed0 => s
  | .packed1 => s
  | .hist _ => s
  | .substLo _ => s
  | .substHi _ => s

/-- A write to a register (R101, R102). -/
def writeReg (r : Reg) (v : Word) (s : State) : State :=
  if busy s && r != .status then dropWrite s else writeIdle r v s

/-! ### Accesses -/

/-- The register an access reaches; none where it gets BusError (R63, R64, R238). -/
def accessTarget (width : AccessWidth) (off : BitVec 12) : Option Reg :=
  match width with
  | .word => regAt off
  | .half => none
  | .byte => none

/-- The answer of the bus, put where the host sees it. A read uses up one free value, whether or
not the answer shows it (log 5). -/
def answer (a : BusAnswer) (s : State) : State := { s with resp := some a }

/-- See `answer`. -/
def answerRead (a : BusAnswer) (s : State) : State :=
  { s with resp := some a, draws := s.draws + 1 }

/-- RD (R100): no side effect on the block (R67). -/
def hostRead (p : Params) (width : AccessWidth) (off : BitVec 12) (s : State) : State :=
  match accessTarget width off with
  | some r => answerRead (.data (readReg p s r)) s
  | none => answerRead (.readError (freeDraw s)) s

/-- WR (R101). -/
def hostWrite (width : AccessWidth) (off : BitVec 12) (v : Word) (s : State) : State :=
  match accessTarget width off with
  | some r => answer .written (writeReg r v s)
  | none => answer .writeError s

/-- A host access. While the reset input is asserted the block answers none (R260; log 13). -/
def hostAccess (p : Params) (a : BusAccess) (s : State) : State :=
  if s.rst then answer .noAnswer s
  else
    match a with
    | .read width off => hostRead p width off s
    | .write width off v => hostWrite width off v s

end Sys2Proof.Machine
end

