-- ==== Sys2Proof/Machine/Agents.lean ====
section
/-!
DEFINITION. What each agent does when it moves (00_scope.md R16): the engine's completion
(40_host_access.md R109), a host access, and the reset input (70_reset_and_hazards.md R260).
-/

namespace Sys2Proof.Machine

/-- The engine executes a command word and completes it; an ILLEGAL word completes with
CmdError(ILLEGAL) (R85, R109, R232). -/
def completeCommand (cmd : Word) (s : State) : Host.Outcome State Fault Refusal :=
  match decode cmd with
  | .ok i => exec i s
  | .error _ => .next (raiseCmdError .illegal s)

/-- The engine's turn: it completes the pending command; without one, or with the reset input
asserted, it does nothing (R109, R260). -/
def engineTurn (s : State) : Host.Outcome State Fault Refusal :=
  if s.rst then .next s
  else
    match fetchCommand s with
    | some cmd => completeCommand cmd s
    | none => .next s

/-- The environment drives the reset input: asserting it performs Reset(), releasing it lets the
block answer again (R260; log 13). -/
def driveReset (asserted : Bool) (s : State) : State :=
  if asserted then { resetBlock s with rst := true } else { s with rst := false }

/-- One event of the interleaving (R16, R69). -/
def runInput (e : Input) (s : State) : Host.Outcome State Fault Refusal :=
  match e with
  | .access a => .next (hostAccess Config.params a s)
  | .engine => engineTurn s
  | .rst asserted => .next (driveReset asserted s)

/-- The next event takes place; when none is left the engine has the turn, so a pending command
completes after finitely many steps (R109, R269; log 1). -/
def nextEvent (s : State) : Host.Outcome State Fault Refusal :=
  match s.inputs with
  | [] => engineTurn s
  | e :: rest => runInput e { s with inputs := rest }

/-- Whether the next event is the engine's turn. -/
def engineNext (s : State) : Bool :=
  match s.inputs with
  | [] => true
  | e :: _ => e == .engine

/-- The state in which the word has been accepted and the engine moves next (R108; log 1). -/
def withCommand (cmd : Word) (s : State) : State :=
  { acceptCommand cmd s with
    rst := false
    inputs := if engineNext s then s.inputs else .engine :: s.inputs }

end Sys2Proof.Machine
end

