-- ==== Sys2Proof/Machine/Step.lean ====
section
/-!
DEFINITION. One step of the machine, and the state whose next step runs a given command word.
-/

namespace Sys2Proof.Machine

/-- One step: the next event of the interleaving (00_scope.md R16, 20_memory.md R69). -/
def step (s : State) : Host.Outcome State Fault Refusal := nextEvent s

/-- `s` with the command word accepted and the engine's turn next, so that the very next step runs
it (40_host_access.md R108, R109; log 1). -/
def State.withFetchWord (s : State) (nbits w : Nat) : State := withCommand (tableWord nbits w) s

end Sys2Proof.Machine
end

