-- ==== Sys2Proof/Machine/HostProgram.lean ====
section
/-!
DEFINITION. The written notation of commands and host programs (30_encoding.md R87 to R89): what a
text or a line stands for, as a command, an access or a list of events. The spec writes the
notation by example; how strict the reader of a text is is the model's choice (log 22).
-/

namespace Sys2Proof.Machine

/-! ### Numbers and words of a text -/

/-- The value of a digit in a base of at most 16. -/
def digitValue (base : Nat) (c : Char) : Option Nat :=
  let v :=
    if '0' ≤ c ∧ c ≤ '9' then c.toNat - '0'.toNat
    else if 'a' ≤ c ∧ c ≤ 'f' then c.toNat - 'a'.toNat + 10
    else if 'A' ≤ c ∧ c ≤ 'F' then c.toNat - 'A'.toNat + 10
    else base
  if v < base then some v else none

/-- The digits read so far, most significant first. -/
def readDigits (base : Nat) : List Char → Nat → Option Nat
  | [], acc => some acc
  | c :: cs, acc =>
    match digitValue base c with
    | some d => readDigits base cs (acc * base + d)
    | none => none

/-- An unsigned decimal number, or a hexadecimal one after `0x` (R12, R87). -/
def readNumber (cs : List Char) : Option Nat :=
  match cs with
  | [] => none
  | '0' :: 'x' :: d :: ds => readDigits 16 (d :: ds) 0
  | _ => readDigits 10 cs 0

/-- A text without the spaces at its two ends. -/
def trimSpaces (cs : List Char) : List Char :=
  ((cs.dropWhile (· == ' ')).reverse.dropWhile (· == ' ')).reverse

/-- The text before the first occurrence of a character, and the text after it. -/
def splitAtChar (sep : Char) (cs : List Char) : List Char × List Char :=
  (cs.takeWhile (· != sep), (cs.dropWhile (· != sep)).drop 1)

/-! ### Commands (R87) -/

/-- The operandless command of a mnemonic in capitals (R84, R87). -/
def formatNMnemonic (name : List Char) : Option Instr :=
  if name = "NOP".toList then some .nop
  else if name = "DETECT".toList then some .detect
  else if name = "REPAIR".toList then some .repair
  else if name = "LINKRST".toList then some .linkrst
  else if name = "FRAMENEXT".toList then some .framenext
  else if name = "SRESET".toList then some .sreset
  else none

/-- A coordinate operand, 0..255 (R87). -/
def readCoordinate (cs : List Char) : Option Nat :=
  match readNumber (trimSpaces cs) with
  | some n => if coordinateOk n then some n else none
  | none => none

/-- The command a text is written for (R87): mnemonics are case-insensitive. -/
def readCommand (text : String) : Option Instr :=
  let parts := splitAtChar ' ' (trimSpaces text.toList)
  let name := parts.1.map Char.toUpper
  if name = "PROCESS".toList then
    let operands := splitAtChar ',' parts.2
    match readCoordinate operands.1, readCoordinate operands.2 with
    | some bx, some by_ => some (.process bx by_)
    | _, _ => none
  else if parts.2 = [] then formatNMnemonic name
  else none

/-! ### Lines (R88) -/

/-- One line of a host program. -/
inductive HostLine where
  /-- `WR NAME, value`. -/
  | wr (r : Reg) (v : Word)
  /-- `RD NAME -> label`. -/
  | rd (r : Reg) (label : String)
  /-- `; text`. -/
  | comment (text : String)
  deriving DecidableEq, Repr

/-- The registers whose names carry no index, with their names (R20). -/
def plainRegNames : List (String × Reg) :=
  [("ID", .id), ("PARAM", .param), ("CTRL", .ctrl), ("BG", .bg), ("GTAB", .gtab), ("GRID", .grid),
    ("CMD", .cmd), ("STATUS", .status), ("DISTINCT", .distinct), ("KEEP", .keep),
    ("SLOTMAP", .slotmap), ("SUMMARY", .summary), ("FRAMECNT", .framecnt), ("LINKSEL", .linksel),
    ("LINKDATA", .linkdata), ("PACKED0", .packed0), ("PACKED1", .packed1)]

/-- An index below a bound, written in decimal. -/
def readIndex (bound : Nat) (cs : List Char) : Option Nat :=
  match readDigits 10 cs 0 with
  | some n => if cs ≠ [] ∧ n < bound then some n else none
  | none => none

/-- The index of an indexed name: what stands between the prefix and the suffix (R88). -/
def indexedName (pre suf : String) (bound : Nat) (cs : List Char) : Option Nat :=
  if pre.toList.isPrefixOf cs && suf.toList.isSuffixOf cs then
    readIndex bound ((cs.drop pre.length).take (cs.length - pre.length - suf.length))
  else none

/-- The register of a name of R20; `PIX`y, `HIST`k, `SUBST_LO(c)` and `SUBST_HI(c)` by their indexed
names (R88). -/
def readRegName (cs : List Char) : Option Reg :=
  match plainRegNames.find? fun e => e.1.toList == cs with
  | some e => some e.2
  | none =>
    match indexedName "PIX" "" 8 cs, indexedName "HIST" "" 4 cs, indexedName "SUBST_LO(" ")" 16 cs,
        indexedName "SUBST_HI(" ")" 16 cs with
    | some y, _, _, _ => some (.pix (Fin.ofNat 8 y))
    | _, some k, _, _ => some (.hist (Fin.ofNat 4 k))
    | _, _, some c, _ => some (.substLo (BitVec.ofNat 4 c))
    | _, _, _, some c => some (.substHi (BitVec.ofNat 4 c))
    | _, _, _, _ => none

/-- A 32-bit number (R88). -/
def readWordNumber (cs : List Char) : Option Word :=
  match readNumber (trimSpaces cs) with
  | some n => if n < 2 ^ 32 then some (BitVec.ofNat 32 n) else none
  | none => none

/-- The line a text is written for (R88). -/
def readLine (text : String) : Option HostLine :=
  let cs := trimSpaces text.toList
  if cs.take 1 = [';'] then some (.comment (String.ofList (cs.drop 1)))
  else
    let parts := splitAtChar ' ' cs
    if parts.1 = "WR".toList then
      let operands := splitAtChar ',' parts.2
      match readRegName (trimSpaces operands.1), readWordNumber operands.2 with
      | some r, some v => some (.wr r v)
      | _, _ => none
    else if parts.1 = "RD".toList then
      let operands := splitAtChar '>' parts.2
      let name := trimSpaces operands.1
      if name.getLast? = some '-' then
        match readRegName (trimSpaces name.dropLast) with
        | some r => some (.rd r (String.ofList (trimSpaces operands.2)))
        | none => none
      else none
    else none

/-- The bus access of a line, none for a comment (R88). -/
def lineAccess : HostLine → Option BusAccess
  | .wr r v => some (.write .word (regOffset r) v)
  | .rd r _ => some (.read .word (regOffset r))
  | .comment _ => none

/-- The events of a list of lines, in their order (R69, R88). -/
def programInputs (lines : List HostLine) : List Input :=
  (lines.filterMap lineAccess).map Input.access

/-! ### Pseudo-instructions (R89) -/

/-- `CMD mnemonic operands`. -/
def cmdLine (i : Instr) : HostLine := .wr .cmd (encode i)

/-- The poll of `WAIT`: `RD STATUS -> s`. -/
def pollLine : HostLine := .rd .status "s"

/-- Whether the `WAIT` loop ends at this value of STATUS: BUSY is clear. -/
def waitEnds (status : Word) : Bool := !status.getLsbD 0

/-- `RUN mnemonic operands` when the engine completes after `polls` polls that found it busy: the
command, those polls, the completion, and the poll that ends the loop (R89, R109). -/
def runInputs (polls : Nat) (i : Instr) : List Input :=
  programInputs (cmdLine i :: List.replicate polls pollLine) ++
    .engine :: programInputs [pollLine]

/-- `LOADROWS r0, …, r7`: the eight pixel writes in that order. -/
def loadRows (rows : PixelRows) : List HostLine :=
  (List.finRange 8).map fun y => .wr (.pix y) rows[y]

/-- `LOADROWS v x8`. -/
def loadRowsSame (v : Word) : List HostLine := loadRows (Vector.ofFn fun _ => v)

/-- `ROW p0 p1 … pn`: the PIX word, pixel x in nibble x. -/
def rowWord : List Color → Word
  | [] => 0
  | p :: ps => p.setWidth 32 ||| (rowWord ps <<< 4)

end Sys2Proof.Machine
end

