-- ==== Sys2Proof/Safety.lean ====
section
/-!
DEFINITION. The terms of the claims: the block as sets of colors and counts (41_clash_detect.md R121
to R124, 43_clash_repair.md R170 to R172), the parts of the state that a command leaves unchanged,
and the invariants that every step keeps.
-/

namespace Sys2Proof.Machine

/-! ### The block as sets and counts

These say what the rules say without the lists the machine computes with. -/

/-- S: the set of colors of the active pixels (R121, R123). -/
def presentSet (m : Mode) (pix : PixelRows) : Finset Color :=
  Finset.univ.filter fun c => ∃ y : Fin 8, ∃ x ∈ Finset.range (blockWidth m), pixelOf pix[y] x = c

/-- `cnt(c)`: how many active pixels have the color (R122). -/
def pixelTotal (m : Mode) (pix : PixelRows) (c : Color) : Nat :=
  ∑ y : Fin 8, ((Finset.range (blockWidth m)).filter fun x => pixelOf pix[y] x = c).card

/-- The clash test on the set of colors (R124). -/
def Clashes (m : Mode) (bgen : Bool) (bgcol : Color) (pix : PixelRows) : Prop :=
  maxSlots m < (presentSet m pix).card ∨
    (bgen = true ∧ (presentSet m pix).card = maxSlots m ∧ bgcol ∉ presentSet m pix)

/-- The block of a state clashes. -/
def StateClashes (s : State) : Prop := Clashes (ctrlMode s) (bgEn s) (bgCol s) s.pix

/-- The present colors that rank before a color: more pixels, or as many and a smaller index
(R170). -/
def rankedBefore (m : Mode) (pix : PixelRows) (c : Color) : Finset Color :=
  (presentSet m pix).filter fun d =>
    pixelTotal m pix c < pixelTotal m pix d ∨
      (pixelTotal m pix d = pixelTotal m pix c ∧ d.toNat < c.toNat)

/-- The color is one of the first n colors of the ranking (R170, R171). -/
def AmongFirst (m : Mode) (pix : PixelRows) (n : Nat) (c : Color) : Prop :=
  c ∈ presentSet m pix ∧ (rankedBefore m pix c).card < n

/-- The color is in the kept set K (R171). -/
def Kept (m : Mode) (bgen : Bool) (bgcol : Color) (pix : PixelRows) (c : Color) : Prop :=
  (bgen = true ∧ ¬ AmongFirst m pix (maxSlots m) bgcol ∧
    (AmongFirst m pix (maxSlots m - 1) c ∨ c = bgcol)) ∨
  (¬ (bgen = true ∧ ¬ AmongFirst m pix (maxSlots m) bgcol) ∧ AmongFirst m pix (maxSlots m) c)

/-- `e` is the substitute of the excluded color `c` (R172): the first kept candidate of its row,
or, where the row has none, the declared background, or, with none declared, `rank[0]`. -/
def IsSubstitute (subst : Color → List Color) (m : Mode) (bgen : Bool) (bgcol : Color)
    (pix : PixelRows) (c e : Color) : Prop :=
  (∃ before after, subst c = before ++ e :: after ∧ Kept m bgen bgcol pix e ∧
    ∀ d ∈ before, ¬ Kept m bgen bgcol pix d) ∨
  ((∀ d ∈ subst c, ¬ Kept m bgen bgcol pix d) ∧
    ((bgen = true ∧ e = bgcol) ∨ (bgen = false ∧ AmongFirst m pix 1 e)))

/-! ### Parts of the state -/

/-- CTRL, BG, GTAB, GRID and LINKSEL are the same. -/
def SameConfig (s t : State) : Prop :=
  t.ctrl = s.ctrl ∧ t.bg = s.bg ∧ t.gtab = s.gtab ∧ t.grid = s.grid ∧ t.linksel = s.linksel

/-- The six block flags and STAGE are the same. -/
def SameFlags (s t : State) : Prop :=
  t.clash = s.clash ∧ t.wasClashed = s.wasClashed ∧ t.repaired = s.repaired ∧
    t.skipped = s.skipped ∧ t.anomaly = s.anomaly ∧ t.prevValid = s.prevValid ∧ t.stage = s.stage

/-- HIST0..HIST3 and DISTINCT are the same. -/
def SameCounts (s t : State) : Prop :=
  t.hist0 = s.hist0 ∧ t.hist1 = s.hist1 ∧ t.hist2 = s.hist2 ∧ t.hist3 = s.hist3 ∧
    t.distinct = s.distinct

/-- SLOTMAP, SUMMARY, PACKED0 and PACKED1, which only PROCESS writes, are the same. -/
def SameEncoding (s t : State) : Prop :=
  t.slotmap = s.slotmap ∧ t.summary = s.summary ∧ t.packed0 = s.packed0 ∧ t.packed1 = s.packed1

/-- The pixel buffer and its validity are the same. -/
def SamePixels (s t : State) : Prop := t.pix = s.pix ∧ t.pixvalid = s.pixvalid

/-- Every record of both link banks is the same. -/
def SameBanks (s t : State) : Prop := t.cur = s.cur ∧ t.prev = s.prev

/-- The reset input and the model's own fields are the same. -/
def SameOutside (s t : State) : Prop :=
  t.rst = s.rst ∧ t.inputs = s.inputs ∧ t.resp = s.resp ∧ t.draws = s.draws

/-- The command completed with the code (R109). -/
def Completed (code : ErrCode) (t : State) : Prop :=
  t.errcode = code ∧ t.pending = none ∧ t.done = true

/-- `t` is `s` with the command completed with the code and no other effect (R236). -/
def OnlyCompleted (code : ErrCode) (s t : State) : Prop :=
  t = { s with errcode := code, pending := none, done := true }

/-- The packed byte of row y (R37). -/
def packedByte (t : State) (y : Nat) : BitVec 8 :=
  byteLane (if y < 4 then t.packed0 else t.packed1) (y % 4)

/-- `HIST`k of a state (R38). -/
def histReg (t : State) (k : Fin 4) : Word :=
  match k with
  | 0 => t.hist0
  | 1 => t.hist1
  | 2 => t.hist2
  | 3 => t.hist3

/-- HIST0..HIST3 and DISTINCT report the block in `pix`, with D_DETECT given (R30, R38). -/
def ReportsCounts (dDetect : Nat) (m : Mode) (pix : PixelRows) (t : State) : Prop :=
  (∀ k j : Fin 4, (byteLane (histReg t k) j.val).toNat =
    pixelTotal m pix (BitVec.ofNat 4 (4 * k.val + j.val))) ∧
  (t.distinct.extractLsb' 0 5).toNat = dDetect ∧
  (t.distinct.extractLsb' 8 5).toNat = (presentSet m pix).card ∧
  t.distinct &&& ~~~(0x00001F1F : Word) = 0

/-- The conditions under which PROCESS runs (R191, R233 to R235). -/
def ProcessAllowed (s : State) (bx by_ : Nat) : Prop :=
  (ctrlMode s = .fourColor → bgEn s = true) ∧ s.pixvalid = 0xFF ∧
    bx < gridCols s ∧ by_ < gridRows s ∧ gridCols s * gridRows s ≤ Config.linkEntries

/-- The record PROCESS finds for a block in the previous frame (R192). -/
def previousRecord (s : State) (bx by_ : Nat) : LinkRecord :=
  linkRead s.prev (blockIndex s bx by_)

/-- The record PROCESS has written for a block (R195). -/
def committedRecord (s t : State) (bx by_ : Nat) : LinkRecord :=
  linkRead t.cur (blockIndex s bx by_)

/-- The slot of the pixel at column x, read from a packed byte (R152, R158). -/
def packedPixel (m : Mode) (b : BitVec 8) (x : Nat) : Nat :=
  match m with
  | .twoColor => b.toNat / 2 ^ (7 - x) % 2
  | .fourColor => b.toNat / 2 ^ (6 - 2 * x) % 4

/-- The present colors other than a declared background (R143). -/
def nonBackgroundSet (s : State) (pix : PixelRows) : Finset Color :=
  (presentSet (ctrlMode s) pix).filter fun c => ¬ (bgEn s = true ∧ c = bgCol s)

/-- `pm[c] = slot`: the color had the slot in the previous record (R144). -/
def PriorSlot (prev : LinkRecord) (c : Color) (slot : Slot) : Prop :=
  prev.valid = true ∧ slotColor prev.slots slot = some c

/-- The entry G01 of the global table takes effect (R146). -/
def G01Effective (s : State) : Prop :=
  gtabG01Valid s.gtab = true ∧ ¬ (bgEn s = true ∧ gtabG01 s.gtab = bgCol s)

/-- The entry G10 of the global table takes effect (R146). -/
def G10Effective (s : State) : Prop :=
  gtabG10Valid s.gtab = true ∧ ¬ (bgEn s = true ∧ gtabG10 s.gtab = bgCol s) ∧
    ¬ (G01Effective s ∧ gtabG10 s.gtab = gtabG01 s.gtab)

/-- `t` is what PROCESS leaves of `s` when it raises no error. -/
def Processed (s : State) (bx by_ : Nat) (t : State) : Prop :=
  ProcessAllowed s bx by_ ∧ exec (.process bx by_) s = .next t

/-- PROCESS gave the block a slot map: it is not left clashed and not skipped (R194, R196). -/
def ReachedAssign (t : State) : Prop := t.clash = false ∧ t.skipped = false

/-! ### Events -/

/-- The step of `s` is the completion of the command `i` (R109). -/
def EngineRuns (s : State) (i : Instr) : Prop :=
  s.rst = false ∧ (s.inputs = [] ∨ ∃ rest, s.inputs = .engine :: rest) ∧
    ∃ cmd, s.pending = some cmd ∧ decode cmd = .ok i

/-- The step of `s` is a write of `v` to the register, performed because the block is neither busy
nor held in reset (R101). -/
def HostWrites (s : State) (r : Reg) (v : Word) : Prop :=
  s.rst = false ∧ s.pending = none ∧
    ∃ rest, s.inputs = .access (.write .word (regOffset r) v) :: rest

/-- The step of `s` asserts the reset input (R260). -/
def ResetAsserted (s : State) : Prop := ∃ rest, s.inputs = .rst true :: rest

/-! ### Invariants -/

/-- Reserved bits hold 0 (R65, R25, R30, R33). -/
def ReservedZero (s : State) : Prop :=
  s.ctrl &&& ~~~ctrlMask = 0 ∧ s.bg &&& ~~~bgMask = 0 ∧ s.gtab &&& ~~~gtabMask = 0 ∧
    s.grid &&& ~~~gridMask = 0 ∧ s.linksel &&& ~~~linkselMask = 0 ∧
    s.distinct &&& ~~~(0x00001F1F : Word) = 0 ∧ s.summary &&& ~~~(0x0000FFFF : Word) = 0

/-- The flags, the stage and DONE fit together (R28, R29, R36, R108, R196). -/
def StatusLegal (s : State) : Prop :=
  (s.pending.isSome = true → s.done = false) ∧
  (s.stage = .empty ↔ s.pixvalid ≠ 0xFF) ∧ s.stage ≠ .slotsAssigned ∧
  (s.wasClashed = true ↔ s.clash = true ∨ s.repaired = true) ∧
  (s.clash = true → s.repaired = false ∧ s.skipped = false) ∧
  (s.skipped = true → s.prevValid = true) ∧
  (s.anomaly = true → s.clash = false ∧ s.skipped = false)

/-- No color has two slots (R141). -/
def TableInjective (t : SlotTable) : Prop :=
  ∀ a b : Slot, ∀ c : Color, slotColor t a = some c → slotColor t b = some c → a = b

/-- A record some PROCESS in this mode can have written (R195, R196). -/
def RecordLegal (m : Mode) (r : LinkRecord) : Prop :=
  r.valid = true ∧ r.mode = m ∧
  (r.wasClashed = true ↔ r.finalClash = true ∨ r.repaired = true) ∧
  (r.finalClash = true → r.repaired = false ∧ r.skipped = false) ∧
  (r.finalClash = true ∨ r.skipped = true → r.slots = SlotTable.empty ∧ r.anomaly = false) ∧
  (r.anomaly = true → m = .fourColor) ∧
  (m = .twoColor → r.slots.s2 = none ∧ r.slots.s3 = none) ∧
  TableInjective r.slots

/-- A bank is canonical, has no record beyond LINK_ENTRIES, and its records are legal ones of the
current mode (R190, R195; a change of MODE invalidates both banks, R104). -/
def BankLegal (m : Mode) (bank : LinkBank) : Prop :=
  linkBankWf bank = true ∧ ∀ e ∈ bank, e.1 < Config.linkEntries ∧ RecordLegal m e.2

/-- Both link banks are legal. -/
def BanksLegal (s : State) : Prop :=
  BankLegal (ctrlMode s) s.cur ∧ BankLegal (ctrlMode s) s.prev

end Sys2Proof.Machine
end

