-- ==== Sys2Proof/Certificates/Slice0/Obligations.lean ====
section
/-!
DEFINITION. The statements for the provers. Each docstring names the rule of spec/ it formalises, or
says that it states a choice of the model.
-/

open Sys2Proof Sys2Proof.Machine

/-! ### Encoding -/

/-- R82, R84, R86: decoding the word of a well-formed command gives the command back. -/
def Obligations.DecodeOfEncode : Prop :=
  ∀ i : Instr, i.wellFormed = true → decode (encode i) = .ok i

/-- R84, R86: a word that decodes is the word of the command it decodes to. -/
def Obligations.EncodeOfDecode : Prop :=
  ∀ (w : Word) (i : Instr), decode w = .ok i → i.wellFormed = true ∧ encode i = w

/-- R85: the illegal words are those with a reserved opcode and those with a legal opcode and a
nonzero MBZ bit, said with the numeric value of the word. -/
def Obligations.IllegalWords : Prop :=
  ∀ w : Word, (∃ e, decode w = .error e) ↔
    (6 < w.toNat % 256 ∨ (w.toNat % 256 = 3 ∧ 2 ^ 24 ≤ w.toNat) ∨
      (w.toNat % 256 ≠ 3 ∧ 256 ≤ w.toNat))

/-- R84: the words of the opcode table, and one PROCESS word of R87, decode to their commands. -/
def Obligations.TableWordsDecode : Prop :=
  decode 0x00000000 = .ok .nop ∧ decode 0x00000001 = .ok .detect ∧
  decode 0x00000002 = .ok .repair ∧ decode 0x00020303 = .ok (.process 3 2) ∧
  decode 0x00000004 = .ok .linkrst ∧ decode 0x00000005 = .ok .framenext ∧
  decode 0x00000006 = .ok .sreset

/-- R20, R64: an aligned word access reaches a register exactly at the register's offset, and every
other offset is misaligned or unmapped. -/
def Obligations.RegistersAtTheirOffsets : Prop :=
  (∀ r : Reg, regAt (regOffset r) = some r) ∧
  (∀ (off : BitVec 12) (r : Reg), regAt off = some r → regOffset r = off) ∧
  (∀ off : BitVec 12, regAt off = none ↔
    (off.toNat % 4 ≠ 0 ∨ off.toNat = 0x03C ∨ off.toNat = 0x068 ∨ off.toNat = 0x06C ∨
      0x100 ≤ off.toNat))

/-- R60, R61: the window is the 4096 bytes at BCCD_BASE, a multiple of 4096. -/
def Obligations.WindowAddresses : Prop :=
  Config.bccdBase % 4096 = 0 ∧ (∀ off : BitVec 12, windowOffset (hostAddress off) = some off) ∧
  (∀ addr : Nat, (∀ off : BitVec 12, addr ≠ hostAddress off) → windowOffset addr = none)

/-! ### Steps and commands -/

/-- R109, R85, R232: a step at which the engine moves runs the decoded pending command, and nothing
else; where the pending word is illegal it completes with ILLEGAL and changes nothing else. With
no event left the engine moves; that is the model's choice (log 1). -/
def Obligations.StepRunsThePendingCommand : Prop :=
  ∀ (s : State) (cmd : Word), s.rst = false → s.pending = some cmd →
    (∀ i, decode cmd = .ok i →
      (s.inputs = [] → step s = exec i s) ∧
      (∀ rest, s.inputs = .engine :: rest → step s = exec i { s with inputs := rest })) ∧
    (∀ e, decode cmd = .error e →
      (s.inputs = [] → ∃ t, step s = .next t ∧ OnlyCompleted .illegal s t) ∧
      (∀ rest, s.inputs = .engine :: rest →
        ∃ t, step s = .next t ∧ OnlyCompleted .illegal { s with inputs := rest } t))

/-- The model's own loading of a command word (log 1): the very next step runs the instruction the
decoder reads from it. -/
def Obligations.FetchWordRunsNext : Prop :=
  ∀ (s : State) (nbits w : Nat) (i : Instr), decodeTableWord nbits w = some i →
    ∃ rest, step (s.withFetchWord nbits w) =
        exec i { s with
          pending := some (tableWord nbits w), done := false, rst := false, inputs := rest } ∧
      (s.inputs = [] → rest = []) ∧
      (∀ more, s.inputs = .engine :: more → rest = more) ∧
      (∀ a more, s.inputs = .access a :: more → rest = s.inputs)

/-- R85, R232, R233, R234, R235, R236, R237: which code a command that cannot run reports, first
cause first, and that it then writes nothing but ERRCODE, BUSY and DONE. -/
def Obligations.CommandErrorsInOrder : Prop :=
  ∀ s : State,
    (∀ cmd e, decode cmd = .error e →
      ∃ t, completeCommand cmd s = .next t ∧ OnlyCompleted .illegal s t) ∧
    (s.pixvalid ≠ 0xFF →
      (∃ t, exec .detect s = .next t ∧ OnlyCompleted .nopix s t) ∧
      (∃ t, exec .repair s = .next t ∧ OnlyCompleted .nopix s t)) ∧
    (∀ bx by_ : Nat,
      (ctrlMode s = .fourColor ∧ bgEn s = false →
        ∃ t, exec (.process bx by_) s = .next t ∧ OnlyCompleted .cfg s t) ∧
      (¬ (ctrlMode s = .fourColor ∧ bgEn s = false) → s.pixvalid ≠ 0xFF →
        ∃ t, exec (.process bx by_) s = .next t ∧ OnlyCompleted .nopix s t) ∧
      (¬ (ctrlMode s = .fourColor ∧ bgEn s = false) → s.pixvalid = 0xFF →
        (gridCols s ≤ bx ∨ gridRows s ≤ by_ ∨ Config.linkEntries < gridCols s * gridRows s) →
        ∃ t, exec (.process bx by_) s = .next t ∧ OnlyCompleted .index s t))

/-- R220: NOP completes with OK and has no other effect, in every state, and raises irq where
enabled; a NOP opcode with a nonzero MBZ bit is not a NOP. -/
def Obligations.NopOnlyCompletes : Prop :=
  decode 0x00000000 = .ok .nop ∧ (∃ e, decode 0x00000100 = .error e) ∧
  ∀ s : State, ∃ t, exec .nop s = .next t ∧ OnlyCompleted .ok s t ∧ irq t = s.ctrl.getLsbD 4

/-- R125, R30, R31, R38: with every row written DETECT completes, reports the clash test and the
counts of the block, and changes nothing else. -/
def Obligations.DetectReportsTheBlock : Prop :=
  ∀ s : State, s.pixvalid = 0xFF → ∃ t, exec .detect s = .next t ∧ Completed .ok t ∧
    (t.clash = true ↔ StateClashes s) ∧ (t.wasClashed = true ↔ StateClashes s) ∧
    t.repaired = false ∧ t.skipped = false ∧ t.anomaly = false ∧ t.prevValid = false ∧
    (StateClashes s → t.stage = .clashed) ∧ (¬ StateClashes s → t.stage = .analyzed) ∧
    ReportsCounts (presentSet (ctrlMode s) s.pix).card (ctrlMode s) s.pix t ∧ t.keep = 0 ∧
    SamePixels s t ∧ SameEncoding s t ∧ SameBanks s t ∧ SameConfig s t ∧ SameOutside s t ∧
    t.errBusy = s.errBusy

/-- R124: the clash test of the machine is the one of the rule, in both modes, with a background
declared or not. R125 (corner cases): one color never clashes and sixteen always do. -/
def Obligations.ClashTestOfTheBlock : Prop :=
  ∀ (m : Mode) (bgen : Bool) (bgcol : Color) (pix : PixelRows),
    (clashTest m bgen bgcol (colorsPresent m pix) = true ↔ Clashes m bgen bgcol pix) ∧
    ((presentSet m pix).card = 1 → ¬ Clashes m bgen bgcol pix) ∧
    ((presentSet m pix).card = 16 → Clashes m bgen bgcol pix)

/-- R122, R123: the counts of the sixteen colors sum to the number of active pixels, 64 or 32, and
the block has 1 to 16 colors. -/
def Obligations.CountsSumToThePixels : Prop :=
  ∀ (m : Mode) (pix : PixelRows),
    (∑ c : Color, colorCount m pix c) = 8 * blockWidth m ∧
    1 ≤ (colorsPresent m pix).length ∧ (colorsPresent m pix).length ≤ 16

/-- R175: with every row written REPAIR completes, reports what it found and what it left, and
changes nothing but the pixels, the counts, KEEP and the flags. -/
def Obligations.RepairReportsTheBlock : Prop :=
  ∀ s : State, s.pixvalid = 0xFF → ∃ t, exec .repair s = .next t ∧ Completed .ok t ∧
    t.clash = false ∧ (t.wasClashed = true ↔ StateClashes s) ∧
    (t.repaired = true ↔ StateClashes s) ∧
    t.skipped = false ∧ t.anomaly = false ∧ t.prevValid = false ∧
    (StateClashes s → t.stage = .clashFixed) ∧
    (¬ StateClashes s → t.stage = .analyzed ∧ t.keep = 0 ∧ t.pix = s.pix) ∧
    ReportsCounts (presentSet (ctrlMode s) s.pix).card (ctrlMode s) t.pix t ∧
    t.pixvalid = s.pixvalid ∧ SameEncoding s t ∧ SameBanks s t ∧ SameConfig s t ∧
    SameOutside s t ∧ t.errBusy = s.errBusy

/-- R170, R171, R172, R173: on a clashed block REPAIR leaves every active pixel of a kept color as it
is, gives every other active pixel the substitute of its color, and changes no other bit of the
pixel buffer; KEEP shows the kept and the excluded colors. -/
def Obligations.RepairRewritesExcludedPixels : Prop :=
  ∀ s t : State, s.pixvalid = 0xFF → StateClashes s → exec .repair s = .next t →
    let m := ctrlMode s
    let kept := Kept m (bgEn s) (bgCol s) s.pix
    (∀ y : Fin 8, ∀ x : Nat, x < blockWidth m →
      (kept (pixelOf s.pix[y] x) → pixelOf t.pix[y] x = pixelOf s.pix[y] x) ∧
      (¬ kept (pixelOf s.pix[y] x) →
        IsSubstitute Config.subst m (bgEn s) (bgCol s) s.pix (pixelOf s.pix[y] x)
          (pixelOf t.pix[y] x))) ∧
    (∀ y : Fin 8, ∀ x : Nat, blockWidth m ≤ x → x < 8 →
      pixelOf t.pix[y] x = pixelOf s.pix[y] x) ∧
    (∀ c : Color, (t.keep.getLsbD c.toNat = true ↔ kept c) ∧
      (t.keep.getLsbD (16 + c.toNat) = true ↔ c ∈ presentSet m s.pix ∧ ¬ kept c))

/-- R176: after a repair every color of the block is a kept one, a declared background is kept, a
block with maxSlots colors has all the kept ones, and the clash test gives 0. -/
def Obligations.RepairLeavesNoClash : Prop :=
  ∀ s t : State, s.pixvalid = 0xFF → exec .repair s = .next t →
    ¬ StateClashes t ∧
    (StateClashes s →
      let kept := Kept (ctrlMode s) (bgEn s) (bgCol s) s.pix
      (∀ c ∈ presentSet (ctrlMode s) t.pix, kept c) ∧ (bgEn s = true → kept (bgCol s)) ∧
      ((presentSet (ctrlMode s) t.pix).card = maxSlots (ctrlMode s) →
        ∀ c, kept c → c ∈ presentSet (ctrlMode s) t.pix))

/-- R177: the repair rules change no pixel of a block that passes the clash test, and REPAIR issued
twice leaves the pixel buffer that REPAIR issued once leaves. -/
def Obligations.RepairIsIdempotent : Prop :=
  (∀ (subst : Color → List Color) (m : Mode) (bgen : Bool) (bgcol : Color) (pix : PixelRows),
    ¬ Clashes m bgen bgcol pix → (repairBlock subst m bgen bgcol pix).pix = pix) ∧
  (∀ s t u : State, s.pixvalid = 0xFF → exec .repair s = .next t → exec .repair t = .next u →
    u.pix = t.pix)

/-! ### PROCESS -/

/-- R194, R196: where no error applies PROCESS completes; its flags are those of its path, and it
changes nothing but the pixels on a repair, the results, the flags and the CUR bank; the PREV bank
stays as it is. -/
def Obligations.ProcessCompletesByItsPath : Prop :=
  ∀ (s : State) (bx by_ : Nat), ProcessAllowed s bx by_ →
    let prev := previousRecord s bx by_
    let skip := prev.valid = true ∧ prev.wasClashed = true
    ∃ t, exec (.process bx by_) s = .next t ∧ Completed .ok t ∧ t.stage = .binaryEncoded ∧
      (t.wasClashed = true ↔ StateClashes s) ∧
      (t.clash = true ↔ StateClashes s ∧ repairEn s = false) ∧
      (t.repaired = true ↔ StateClashes s ∧ repairEn s = true) ∧
      (t.skipped = true ↔ (StateClashes s → repairEn s = true) ∧ skip) ∧
      (t.anomaly = true → ctrlMode s = .fourColor ∧ gtabEn s = true ∧ ReachedAssign t) ∧
      t.prevValid = prev.valid ∧
      (t.repaired = true → ∃ u, exec .repair s = .next u ∧ t.pix = u.pix ∧ t.keep = u.keep) ∧
      (t.repaired = false → t.pix = s.pix ∧ t.keep = 0) ∧
      ReportsCounts (presentSet (ctrlMode s) s.pix).card (ctrlMode s) t.pix t ∧
      t.prev = s.prev ∧ t.pixvalid = s.pixvalid ∧ SameConfig s t ∧ SameOutside s t ∧
      t.errBusy = s.errBusy

/-- R195: PROCESS commits the block's record to CUR and changes no other record of either bank. -/
def Obligations.ProcessCommitsOneRecord : Prop :=
  ∀ (s t : State) (bx by_ : Nat), Processed s bx by_ t →
    let r := committedRecord s t bx by_
    r.valid = true ∧ r.mode = ctrlMode s ∧ r.wasClashed = t.wasClashed ∧
    r.finalClash = t.clash ∧ r.anomaly = t.anomaly ∧ r.skipped = t.skipped ∧
    r.repaired = t.repaired ∧ r.slots = t.slotmap ∧
    (∀ j : Nat, j ≠ blockIndex s bx by_ → linkRead t.cur j = linkRead s.cur j) ∧
    (∀ j : Nat, linkRead t.prev j = linkRead s.prev j)

/-- R194, R240: an unrepaired clash completes without an error code, is reported in CLASH, in the
committed record and in the frame counts, and leaves the pixels as they are. -/
def Obligations.UnrepairedClashFailsTheFrame : Prop :=
  ∀ (s t : State) (bx by_ : Nat), Processed s bx by_ t → StateClashes s → repairEn s = false →
    t.errcode = .ok ∧ t.clash = true ∧ (committedRecord s t bx by_).finalClash = true ∧
    0 < errCount t ∧ frameFail t = true ∧ t.pix = s.pix

/-- R194 (corner cases), R153: a block left clashed or skipped has an empty map and every pixel packs
as slot 0. -/
def Obligations.EmptyMapPacksSlotZero : Prop :=
  ∀ (s t : State) (bx by_ : Nat), Processed s bx by_ t → t.clash = true ∨ t.skipped = true →
    t.slotmap = SlotTable.empty ∧ t.summary = 0 ∧ t.packed0 = 0 ∧ t.packed1 = 0 ∧
    t.anomaly = false

/-- R193: a valid previous record with WAS_CLASHED = 1 stops the assignment, also when repair had
cleared that block's clash, and the block is not in the error list unless it is still clashed. -/
def Obligations.SkipAfterAClashedPredecessor : Prop :=
  ∀ (s t : State) (bx by_ : Nat), Processed s bx by_ t →
    (previousRecord s bx by_).valid = true → (previousRecord s bx by_).wasClashed = true →
    (∀ slot : Slot, slotColor t.slotmap slot = none) ∧ (t.clash = false → t.skipped = true) ∧
    ((committedRecord s t bx by_).finalClash = true ↔ StateClashes s ∧ repairEn s = false)

/-- R141, R147, R155, R157: a block that reaches Assign gets a slot for each of its colors, no color
two, and SLOTMAP names no color but those of the block and the declared background, at slot 0. -/
def Obligations.EveryColorGetsItsOwnSlot : Prop :=
  ∀ (s t : State) (bx by_ : Nat), Processed s bx by_ t → ReachedAssign t →
    (∀ c ∈ presentSet (ctrlMode s) t.pix, ∃ slot, slotColor t.slotmap slot = some c) ∧
    TableInjective t.slotmap ∧
    (∀ (slot : Slot) (c : Color), slotColor t.slotmap slot = some c →
      c ∈ presentSet (ctrlMode s) t.pix ∨ (bgEn s = true ∧ c = bgCol s ∧ slot = 0))

/-- R142, R159: on every map Assign returns with a declared background, the background has slot 0
and no other slot, whether or not it is present in the block. -/
def Obligations.BackgroundHasSlotZero : Prop :=
  ∀ (s t : State) (bx by_ : Nat), Processed s bx by_ t → ReachedAssign t → bgEn s = true →
    slotColor t.slotmap 0 = some (bgCol s) ∧
    ∀ slot, slotColor t.slotmap slot = some (bgCol s) → slot = 0

/-- R143, R144, R145: the two-pass path. With no valid previous record the colors other than the
background take the slots of the fresh-allocation order in ascending order. With one, a color that
had a slot takes it again unless it is slot 0 and a background is declared, which has it now; every
other color is deferred and takes, in ascending order, the slots of the fresh-allocation order
that neither the background nor such a color has. `BanksLegal`, which gives the previous record no
color with two slots, holds of every state a step reaches. -/
def Obligations.FreshSlotsAscend : Prop :=
  ∀ (s t : State) (bx by_ : Nat), Processed s bx by_ t → ReachedAssign t →
    usesGlobalTable (ctrlMode s) (gtabEn s) = false →
    ((previousRecord s bx by_).valid = false →
      ∀ c ∈ nonBackgroundSet s t.pix, ∃ slot : Slot, slotColor t.slotmap slot = some c ∧
        slot.val = ((nonBackgroundSet s t.pix).filter fun d => d.toNat < c.toNat).card +
          (if bgEn s then 1 else 0)) ∧
    (BanksLegal s →
      let reuses := fun (c : Color) (slot : Slot) => c ∈ nonBackgroundSet s t.pix ∧
        PriorSlot (previousRecord s bx by_) c slot ∧ ¬ (bgEn s = true ∧ slot = 0)
      let deferred := fun (c : Color) => c ∈ nonBackgroundSet s t.pix ∧ ∀ slot, ¬ reuses c slot
      (∀ c slot, reuses c slot → slotColor t.slotmap slot = some c) ∧
      (∀ (c : Color) (before : Finset Color) (free : List Slot), deferred c →
        (∀ d, d ∈ before ↔ deferred d ∧ d.toNat < c.toNat) →
        List.Sublist free (freshOrder (ctrlMode s)) →
        (∀ slot : Slot, slot ∈ free ↔ slot ∈ freshOrder (ctrlMode s) ∧
          ¬ (bgEn s = true ∧ slot = 0) ∧ ∀ d, ¬ reuses d slot) →
        ∃ slot, free[before.card]? = some slot ∧ slotColor t.slotmap slot = some c))

/-- R146, R147, R148, R149: on the global-table path the effective entries that are present get
their slots, the other colors take (1,1), (1,0), (0,1) as far as they are free, in ascending order,
and the anomaly bit says that they are more than the slots the table leaves to them. -/
def Obligations.GlobalTableAssignment : Prop :=
  ∀ (s t : State) (bx by_ : Nat), Processed s bx by_ t → ReachedAssign t →
    usesGlobalTable (ctrlMode s) (gtabEn s) = true →
    let colors := nonBackgroundSet s t.pix
    let g1 := G01Effective s ∧ gtabG01 s.gtab ∈ colors
    let g2 := G10Effective s ∧ gtabG10 s.gtab ∈ colors
    let fallback := fun c => c ∈ colors ∧ ¬ (G01Effective s ∧ c = gtabG01 s.gtab) ∧
      ¬ (G10Effective s ∧ c = gtabG10 s.gtab)
    (g1 → slotColor t.slotmap 1 = some (gtabG01 s.gtab)) ∧
    (g2 → slotColor t.slotmap 2 = some (gtabG10 s.gtab)) ∧
    (∀ (c : Color) (before : Finset Color) (free : List Slot), fallback c →
      (∀ d, d ∈ before ↔ fallback d ∧ d.toNat < c.toNat) →
      List.Sublist free [3, 2, 1] →
      (∀ slot : Slot, slot ∈ free ↔ slot ≠ 0 ∧ ¬ (g1 ∧ slot = 1) ∧ ¬ (g2 ∧ slot = 2)) →
      ∃ slot, free[before.card]? = some slot ∧ slotColor t.slotmap slot = some c) ∧
    (∀ (all : Finset Color) (slots : Finset Slot), (∀ c, c ∈ all ↔ fallback c) →
      (∀ slot, slot ∈ slots ↔ slot ≠ 0 ∧ ¬ (G01Effective s ∧ slot = 1) ∧
        ¬ (G10Effective s ∧ slot = 2)) →
      (t.anomaly = true ↔ slots.card < all.card))

/-- R152, R155, R158: the packed bits of every pixel whose color has a slot, read as a slot, give the
pixel's color back through SLOTMAP. `BanksLegal` holds of every state a step reaches. -/
def Obligations.PackedRowsDecodeToPixels : Prop :=
  ∀ (s t : State) (bx by_ : Nat), BanksLegal s → Processed s bx by_ t →
    ∀ (y : Fin 8) (x : Nat), x < blockWidth (ctrlMode s) →
      (∃ slot, slotColor t.slotmap slot = some (pixelOf t.pix[y] x)) →
      ∃ slot : Slot, slot.val = packedPixel (ctrlMode s) (packedByte t y.val) x ∧
        slotColor t.slotmap slot = some (pixelOf t.pix[y] x)

/-- R156: SUMMARY holds the colors of slots 0 and 1 in 2-color mode, of slots 2, 1 and 3 in 4-color
mode, 0 for a slot without a color, and nothing else. -/
def Obligations.SummaryFollowsTheSlots : Prop :=
  ∀ (s t : State) (bx by_ : Nat), Processed s bx by_ t →
    (ctrlMode s = .twoColor →
      t.summary.toNat = (colorField t.slotmap 1).toNat * 16 + (colorField t.slotmap 0).toNat) ∧
    (ctrlMode s = .fourColor →
      t.summary.toNat = (colorField t.slotmap 3).toNat * 256 +
        (colorField t.slotmap 1).toNat * 16 + (colorField t.slotmap 2).toNat)

/-! ### Frames -/

/-- R204: a color keeps its slot from one frame to the next, under the conditions of the rule: the
first block was not clashed, one FRAMENEXT lies between, the same BG, the two-pass path in the
second frame, and the second block is not left clashed. -/
def Obligations.ContinuityAcrossFrames : Prop :=
  ∀ (s t f s' t' : State) (bx by_ bx' by' : Nat) (c : Color) (slot : Slot),
    Processed s bx by_ t → t.wasClashed = false →
    slotColor (committedRecord s t bx by_).slots slot = some c →
    exec .framenext t = .next f → s'.prev = f.prev →
    blockIndex s' bx' by' = blockIndex s bx by_ → s'.bg = s.bg →
    usesGlobalTable (ctrlMode s') (gtabEn s') = false →
    Processed s' bx' by' t' → t'.clash = false → c ∈ presentSet (ctrlMode s') t'.pix →
    slotColor t'.slotmap slot = some c

/-- R197, R199: 0x00000004 is LINKRST; it completes with every record of both banks invalid and changes nothing else;
the frame counts read 0 after it. -/
def Obligations.LinkrstInvalidatesBothBanks : Prop :=
  decode 0x00000004 = .ok .linkrst ∧ ∀ s : State, ∃ t, exec .linkrst s = .next t ∧
    OnlyCompleted .ok { s with cur := t.cur, prev := t.prev } t ∧
    (∀ i : Nat, linkRead t.cur i = LinkRecord.invalid ∧ linkRead t.prev i = LinkRecord.invalid) ∧
    framecntWord t = 0 ∧ frameFail t = false

/-- R198: 0x00000005 is FRAMENEXT; it completes with PREV a copy of CUR and CUR invalid, and changes
nothing else. -/
def Obligations.FramenextAdvancesTheFrame : Prop :=
  decode 0x00000005 = .ok .framenext ∧ ∀ s : State, ∃ t, exec .framenext s = .next t ∧
    OnlyCompleted .ok { s with cur := t.cur, prev := t.prev } t ∧
    (∀ i : Nat, linkRead t.prev i = linkRead s.cur i ∧ linkRead t.cur i = LinkRecord.invalid) ∧
    framecntWord t = 0 ∧ frameFail t = false

/-- R205: PROCESS changes no record but the block's own in CUR; PREV changes only by FRAMENEXT, LINKRST, an
invalidating register write and reset. -/
def Obligations.PreviousFrameIsImmutable : Prop :=
  (∀ (s t : State) (bx by_ : Nat), exec (.process bx by_) s = .next t → t.prev = s.prev ∧
    ∀ j : Nat, j ≠ blockIndex s bx by_ → linkRead t.cur j = linkRead s.cur j) ∧
  (∀ s t : State, step s = .next t → t.prev ≠ s.prev →
    EngineRuns s .framenext ∨ EngineRuns s .linkrst ∨ EngineRuns s .sreset ∨
    (∃ v, HostWrites s .grid v) ∨
    (∃ v, HostWrites s .ctrl v ∧ v.getLsbD 0 ≠ s.ctrl.getLsbD 0) ∨ ResetAsserted s)

/-- R200: the frame counts are the numbers of CUR records below LINK_ENTRIES that are valid and
still clashed, valid and anomalous, and fit their fields. -/
def Obligations.FrameCountsCountTheBank : Prop :=
  ∀ s : State, BanksLegal s →
    errCount s = ((Finset.range Config.linkEntries).filter fun i =>
      (linkRead s.cur i).valid = true ∧ (linkRead s.cur i).finalClash = true).card ∧
    anomCount s = ((Finset.range Config.linkEntries).filter fun i =>
      (linkRead s.cur i).valid = true ∧ (linkRead s.cur i).anomaly = true).card ∧
    ((framecntWord s).extractLsb' 0 16).toNat = errCount s ∧
    ((framecntWord s).extractLsb' 16 16).toNat = anomCount s ∧
    (frameFail s = true ↔ errCount s ≠ 0)

/-- R201: the error list is the coordinates of the valid and still clashed CUR records in ascending
index order. -/
def Obligations.ErrorListInIndexOrder : Prop :=
  ∀ s : State, BanksLegal s →
    errorList s = ((List.range Config.linkEntries).filter fun i =>
      (linkRead s.cur i).valid && (linkRead s.cur i).finalClash).map
        fun i => (i % gridCols s, i / gridCols s)

/-! ### Reset -/

/-- R221, R260: 0x00000006 is SRESET; it completes by Reset(): every piece of state of the block has
its reset value, in particular STATUS reads 0 and irq is low. The reset input, the events to come,
the last answer and the counter of free values stay (the model's own, logs 1, 5 and 13). The spec
gives PIX0..PIX7 no reset value: that the equality puts 0 there is the model's choice (log 3). -/
def Obligations.SresetIsReset : Prop :=
  decode 0x00000006 = .ok .sreset ∧ ∀ s : State, ∃ t, exec .sreset s = .next t ∧
    t = { State.reset with rst := s.rst, inputs := s.inputs, resp := s.resp, draws := s.draws } ∧
    statusWordIdle t = 0 ∧ t.pending = none ∧ irq t = false

/-- R261: what reset leaves, for the state the spec gives a reset value. -/
def Obligations.ResetValues : Prop :=
  let s := State.reset
  s.ctrl = 0 ∧ s.bg = 0 ∧ s.gtab = 0 ∧ s.grid = 0 ∧ s.linksel = 0 ∧ busy s = false ∧
  statusWordIdle s = 0 ∧ s.distinct = 0 ∧ s.keep = 0 ∧ slotTableWord s.slotmap = 0 ∧
  s.summary = 0 ∧ s.packed0 = 0 ∧ s.packed1 = 0 ∧ s.hist0 = 0 ∧ s.hist1 = 0 ∧ s.hist2 = 0 ∧
  s.hist3 = 0 ∧ framecntWord s = 0 ∧ irq s = false ∧
  ∀ i : Nat, recordWord (linkRead s.cur i) = 0 ∧ recordWord (linkRead s.prev i) = 0

/-- R260: asserting the reset input resets the block at once and abandons a pending command. That an
access is not answered while it is asserted, and how the model shows that, is log 13. The spec
gives PIX0..PIX7 no reset value: that the equality puts 0 there is the model's choice (log 3).
The fields `inputs`, `resp` and `draws` are the model's own (logs 1 and 5). -/
def Obligations.ResetInputResets : Prop :=
  ∀ (s : State) (rest : List Input), s.inputs = .rst true :: rest →
    ∃ t, step s = .next t ∧ t.pending = none ∧
      t = { State.reset with rst := true, inputs := rest, resp := s.resp, draws := s.draws } ∧
      ∀ a more, rest = .access a :: more →
        step t = .next { t with inputs := more, resp := some .noAnswer }

/-! ### Host accesses

In the statements about a step, the event list `inputs`, the place `resp` of the bus answer and the
counter `draws` are the model's own fields (logs 1, 4 and 5), no part of the spec's block. -/

/-- R101, R102: a write while a command is pending is dropped and sets ERR_BUSY, but for a write to
STATUS; a write that gets BusError does not set it.
The fields `inputs`, `resp` and `draws` are the model's own (logs 1 and 5). -/
def Obligations.WriteWhileBusyIsDropped : Prop :=
  ∀ (s : State) (rest : List Input) (off : BitVec 12) (v : Word),
    s.rst = false → s.pending.isSome = true →
    s.inputs = .access (.write .word off v) :: rest →
    (∀ r : Reg, off = regOffset r → r ≠ .status →
      step s = .next { s with inputs := rest, errBusy := true, resp := some .written }) ∧
    (off = regOffset .status →
      step s = .next { s with
        inputs := rest, resp := some .written
        done := s.done && !v.getLsbD 1, errBusy := s.errBusy && !v.getLsbD 7 }) ∧
    ((∀ r : Reg, off ≠ regOffset r) →
      step s = .next { s with inputs := rest, resp := some .writeError })

/-- R63, R64, R238: a narrow, misaligned or unmapped access gets an error answer and has no effect
on the block. The answer's place and the draw of the data are the model's own (logs 4, 5). -/
def Obligations.BusErrorHasNoEffect : Prop :=
  ∀ (s : State) (rest : List Input) (width : AccessWidth) (off : BitVec 12) (v : Word),
    s.rst = false → (width ≠ .word ∨ off.toNat % 4 ≠ 0 ∨ ∀ r : Reg, off ≠ regOffset r) →
    (s.inputs = .access (.write width off v) :: rest →
      step s = .next { s with inputs := rest, resp := some .writeError }) ∧
    (s.inputs = .access (.read width off) :: rest →
      ∃ any, step s = .next { s with
        inputs := rest, resp := some (.readError any), draws := s.draws + 1 })

/-- R67, R100: a read, of any width at any offset, busy or not, changes nothing of the block; a word
read at the offset of a register answers what the register reads. The fields `inputs`, `resp` and
`draws` are the model's own (logs 1 and 5). -/
def Obligations.ReadsHaveNoSideEffect : Prop :=
  ∀ (s : State) (rest : List Input) (width : AccessWidth) (off : BitVec 12),
    s.inputs = .access (.read width off) :: rest →
    (∃ t, step s = .next t ∧
      t = { s with inputs := rest, resp := t.resp, draws := t.draws }) ∧
    (∀ r : Reg, s.rst = false → width = .word → off = regOffset r →
      step s = .next { s with
        inputs := rest, resp := some (.data (readReg Config.params s r)), draws := s.draws + 1 })

/-- R103, R35, R36: a write to a pixel row, not busy, stores all 32 bits in either mode, makes the
row valid, sets the stage and changes nothing else; the row then reads back what was written.
The fields `inputs`, `resp` and `draws` are the model's own (logs 1 and 5). -/
def Obligations.PixelRowWrite : Prop :=
  ∀ (s : State) (rest : List Input) (y : Fin 8) (v : Word),
    s.rst = false → s.pending = none →
    s.inputs = .access (.write .word (regOffset (.pix y)) v) :: rest →
    ∃ t, step s = .next t ∧
      t = { s with
        inputs := rest, resp := some .written, pix := t.pix, pixvalid := t.pixvalid
        stage := t.stage } ∧
      t.pix[y] = v ∧ (∀ z : Fin 8, z ≠ y → t.pix[z] = s.pix[z]) ∧
      (∀ k : Nat, t.pixvalid.getLsbD k = (s.pixvalid.getLsbD k || decide (k = y.val))) ∧
      (t.pixvalid = 0xFF → t.stage = .pixelsLoaded) ∧ (t.pixvalid ≠ 0xFF → t.stage = .empty) ∧
      readReg Config.params t (.pix y) = v

/-- R65, R104, R105, R106: writes to the configuration registers and to the read-only ones, not busy:
a configuration register takes its bits of the value, reserved bits 0; a change of MODE and every
GRID write invalidate both banks; a read-only register ignores the write; nothing else changes.
The fields `inputs`, `resp` and `draws` are the model's own (logs 1 and 5). -/
def Obligations.RegisterWrites : Prop :=
  ∀ (s : State) (rest : List Input) (r : Reg) (v : Word),
    s.rst = false → s.pending = none →
    s.inputs = .access (.write .word (regOffset r) v) :: rest →
    (r = .ctrl → v.getLsbD 0 = s.ctrl.getLsbD 0 →
      step s = .next { s with inputs := rest, resp := some .written, ctrl := v &&& 0x0000001F }) ∧
    (r = .ctrl → v.getLsbD 0 ≠ s.ctrl.getLsbD 0 →
      step s = .next { s with
        inputs := rest, resp := some .written, ctrl := v &&& 0x0000001F, cur := [], prev := [] }) ∧
    (r = .bg →
      step s = .next { s with inputs := rest, resp := some .written, bg := v &&& 0x0000001F }) ∧
    (r = .gtab →
      step s = .next { s with inputs := rest, resp := some .written, gtab := v &&& 0x00001F1F }) ∧
    (r = .linksel →
      step s = .next { s with
        inputs := rest, resp := some .written, linksel := v &&& 0x0001FFFF }) ∧
    (r = .grid →
      step s = .next { s with
        inputs := rest, resp := some .written, grid := v &&& 0x0000FFFF, cur := [], prev := [] }) ∧
    (r ∉ [Reg.ctrl, .bg, .gtab, .grid, .cmd, .status, .linksel] → (∀ y, r ≠ .pix y) →
      step s = .next { s with inputs := rest, resp := some .written })

/-- R107: a write to STATUS acts only on DONE and ERR_BUSY, each cleared by a 1.
The fields `inputs`, `resp` and `draws` are the model's own (logs 1 and 5). -/
def Obligations.StatusWriteClears : Prop :=
  ∀ (s : State) (rest : List Input) (v : Word), s.rst = false →
    s.inputs = .access (.write .word (regOffset .status) v) :: rest →
    ∃ t, step s = .next t ∧
      t = { s with inputs := rest, resp := some .written, done := t.done, errBusy := t.errBusy } ∧
      (v.getLsbD 1 = true → t.done = false) ∧ (v.getLsbD 1 = false → t.done = s.done) ∧
      (v.getLsbD 7 = true → t.errBusy = false) ∧ (v.getLsbD 7 = false → t.errBusy = s.errBusy)

/-- R108: a write to CMD, not busy, makes any word the pending command, sets BUSY and clears DONE;
nothing else changes.
The fields `inputs`, `resp` and `draws` are the model's own (logs 1 and 5). -/
def Obligations.CommandAcceptance : Prop :=
  ∀ (s : State) (rest : List Input) (cmd : Word), s.rst = false → s.pending = none →
    s.inputs = .access (.write .word (regOffset .cmd) cmd) :: rest →
    ∃ t, step s = .next t ∧ busy t = true ∧ t.done = false ∧
      t = { s with inputs := rest, resp := some .written, pending := some cmd, done := false }

/-- R110: while a command is pending, STATUS reads BUSY = 1, DONE = 0, ERR_BUSY and PIXVALID as
stored and 0 in the reserved bits, and the configuration registers and constants read their values. -/
def Obligations.ReadsWhileBusy : Prop :=
  ∀ (p : Params) (s : State), s.pending.isSome = true →
    ((readReg p s .status).getLsbD 0 = true ∧ (readReg p s .status).getLsbD 1 = false ∧
      (readReg p s .status).getLsbD 7 = s.errBusy ∧
      (readReg p s .status).extractLsb' 24 8 = s.pixvalid ∧
      readReg p s .status &&& 0x00F8C008 = 0) ∧
    readReg p s .ctrl = s.ctrl ∧ readReg p s .bg = s.bg ∧ readReg p s .gtab = s.gtab ∧
    readReg p s .grid = s.grid ∧ readReg p s .linksel = s.linksel ∧ readReg p s .cmd = 0 ∧
    readReg p s .id = 0x42434344 ∧
    ∀ r : Reg, (r = .param ∨ ∃ c, r = .substLo c ∨ r = .substHi c) →
      readReg p s r = readReg p { s with pending := none } r

/-- R28, R29, R231: where each field of STATUS stands when no command is pending, and the numbers of
the result codes and of the stages. -/
def Obligations.StatusFields : Prop :=
  ∀ (p : Params) (s : State), s.pending = none →
    let w := readReg p s .status
    w.getLsbD 0 = false ∧ w.getLsbD 1 = s.done ∧ w.getLsbD 2 = frameFail s ∧
    w.extractLsb' 4 3 = errCodeBits s.errcode ∧ w.getLsbD 7 = s.errBusy ∧
    w.getLsbD 8 = s.clash ∧ w.getLsbD 9 = s.wasClashed ∧ w.getLsbD 10 = s.repaired ∧
    w.getLsbD 11 = s.skipped ∧ w.getLsbD 12 = s.anomaly ∧ w.getLsbD 13 = s.prevValid ∧
    w.extractLsb' 16 3 = stageBits s.stage ∧ w.extractLsb' 24 8 = s.pixvalid ∧
    w &&& 0x00F8C008 = 0 ∧
    (s.errcode = .ok → w.extractLsb' 4 3 = 0) ∧ (s.errcode = .illegal → w.extractLsb' 4 3 = 1) ∧
    (s.errcode = .cfg → w.extractLsb' 4 3 = 2) ∧ (s.errcode = .nopix → w.extractLsb' 4 3 = 3) ∧
    (s.errcode = .index → w.extractLsb' 4 3 = 4) ∧
    (s.stage = .empty → w.extractLsb' 16 3 = 0) ∧
    (s.stage = .pixelsLoaded → w.extractLsb' 16 3 = 1) ∧
    (s.stage = .analyzed → w.extractLsb' 16 3 = 2) ∧
    (s.stage = .clashed → w.extractLsb' 16 3 = 3) ∧
    (s.stage = .slotsAssigned → w.extractLsb' 16 3 = 4) ∧
    (s.stage = .clashFixed → w.extractLsb' 16 3 = 5) ∧
    (s.stage = .binaryEncoded → w.extractLsb' 16 3 = 6)

/-- R21, R22, R41: the constant registers: ID, PARAM and the view of the substitution table. -/
def Obligations.ConstantRegisters : Prop :=
  ∀ s : State,
    readReg Config.params s .id = 0x42434344 ∧
    ((readReg Config.params s .param).extractLsb' 0 16).toNat = Config.linkEntries ∧
    (readReg Config.params s .param).extractLsb' 16 4 = 15 ∧
    (readReg Config.params s .param).extractLsb' 20 12 = 0 ∧
    ∀ c : Color,
      ((readReg Config.params s (.substLo c)).extractLsb' 0 4).toNat = (Config.subst c).length ∧
      (∀ i : Nat, i < 7 → (readReg Config.params s (.substLo c)).extractLsb' (4 * i + 4) 4 =
        (Config.subst c)[i]?.getD 0) ∧
      (∀ i : Nat, 7 ≤ i → i < 15 →
        (readReg Config.params s (.substHi c)).extractLsb' (4 * (i - 7)) 4 =
          (Config.subst c)[i]?.getD 0)

/-- R40: LINKDATA shows the selected record field by field, and 0 beyond LINK_ENTRIES. -/
def Obligations.LinkdataShowsTheRecord : Prop :=
  ∀ s : State, s.pending = none →
    let i := (s.linksel.extractLsb' 0 16).toNat
    let r := linkRead (if s.linksel.getLsbD 16 then s.prev else s.cur) i
    let w := readReg Config.params s .linkdata
    (Config.linkEntries ≤ i → w = 0) ∧
    (i < Config.linkEntries →
      (∀ slot : Slot, w.extractLsb' (4 * slot.val) 4 = colorField r.slots slot ∧
        w.getLsbD (16 + slot.val) = (slotColor r.slots slot).isSome) ∧
      w.getLsbD 24 = r.valid ∧ w.getLsbD 25 = decide (r.mode = .fourColor) ∧
      w.getLsbD 26 = r.wasClashed ∧ w.getLsbD 27 = r.finalClash ∧ w.getLsbD 28 = r.anomaly ∧
      w.getLsbD 29 = r.skipped ∧ w.getLsbD 30 = r.repaired ∧ w &&& 0x80F00000 = 0)

/-- R242: irq is DONE and CTRL.IRQ_EN; a completion other than SRESET's raises it when enabled, and
accepting a command lowers it. -/
def Obligations.InterruptFollowsDone : Prop :=
  (∀ s : State, irq s = true ↔ s.done = true ∧ s.ctrl.getLsbD 4 = true) ∧
  (∀ (i : Instr) (s t : State), i ≠ .sreset → exec i s = .next t →
    irq t = s.ctrl.getLsbD 4 ∧ t.pending = none) ∧
  (∀ (s : State) (cmd : Word), irq (acceptCommand cmd s) = false)

/-! ### The whole machine -/

/-- R230, R127: nothing stops the machine; every step answers a next state. -/
def Obligations.StepNeverStops : Prop := ∀ s : State, ∃ t, step s = .next t

/-- R109, R269: whatever events are still to come, a command is no longer pending after finitely many
steps; and where no event asserts the reset input, the command has then completed: the state is
the one its completion leaves, but for ERR_BUSY. That the engine moves when no event is left is the
model's choice (log 1); `inputs`, `resp` and `draws` are the model's own (logs 1 and 5). -/
def Obligations.PendingCommandCompletes : Prop :=
  ∀ (s : State) (cmd : Word), s.rst = false → s.pending = some cmd →
    (∃ (k : Nat) (t : State), k ≤ s.inputs.length + 1 ∧
      Host.Core.run Sys2Proof.core k s = .next t ∧ t.pending = none) ∧
    (Input.rst true ∉ s.inputs →
      ∃ (k : Nat) (t u : State), k ≤ s.inputs.length + 1 ∧
        Host.Core.run Sys2Proof.core k s = .next t ∧ completeCommand cmd s = .next u ∧
        t = { u with
          errBusy := t.errBusy, inputs := s.inputs.drop k, resp := t.resp, draws := t.draws })

/-- R109, R268: what a command leaves does not depend on when it completes: host accesses while it
is pending change nothing of it but ERR_BUSY (and the model's own answer and counter). -/
def Obligations.ResultIndependentOfLatency : Prop :=
  ∀ (s : State) (accesses : List BusAccess), s.rst = false → s.pending.isSome = true →
    s.inputs = accesses.map Input.access ++ [.engine] →
    ∃ t u : State, Host.Core.run Sys2Proof.core (accesses.length + 1) s = .next t ∧
      step { s with inputs := [.engine] } = .next u ∧
      t = { u with errBusy := t.errBusy, resp := t.resp, draws := t.draws }

/-- R239: ERR_BUSY is set by every write dropped because a command is pending, becomes 1 by nothing
else, and becomes 0 only by a write of 1 to STATUS bit 7 or by reset. -/
def Obligations.ErrBusyChanges : Prop :=
  ∀ s t : State, step s = .next t →
    (∀ rest r v, s.rst = false → s.pending.isSome = true → r ≠ Reg.status →
      s.inputs = .access (.write .word (regOffset r) v) :: rest → t.errBusy = true) ∧
    (s.errBusy = false → t.errBusy = true → s.pending.isSome = true ∧
      ∃ rest r v, r ≠ .status ∧ s.inputs = .access (.write .word (regOffset r) v) :: rest) ∧
    (s.errBusy = true → t.errBusy = false →
      (∃ rest v, s.inputs = .access (.write .word (regOffset .status) v) :: rest ∧
        v.getLsbD 7 = true) ∨ EngineRuns s .sreset ∨ ResetAsserted s)

/-- R65: every step keeps the reserved bits at 0. -/
def Obligations.StepKeepsReservedZero : Prop :=
  ∀ s t : State, ReservedZero s → step s = .next t → ReservedZero t

/-- R29, R36, R108, R196: every step keeps the flags, the stage and DONE consistent. -/
def Obligations.StepKeepsStatusLegal : Prop :=
  ∀ s t : State, StatusLegal s → step s = .next t → StatusLegal t

/-- R104, R106, R190, R195, R198, R199: every step keeps both banks inside LINK_ENTRIES and filled
with legal records of the current mode, and in the canonical form `linkBankWf`, which is the model's
own choice of how a bank is held (log 10). -/
def Obligations.StepKeepsBanksLegal : Prop :=
  ∀ s t : State, BanksLegal s → step s = .next t → BanksLegal t

/-- The invariants hold at reset (R261). -/
def Obligations.ResetMeetsTheInvariants : Prop :=
  ReservedZero State.reset ∧ StatusLegal State.reset ∧ BanksLegal State.reset

/-! ### Host programs -/

/-- R89: `RUN` of a command from an idle state ends with the command's effect and the block idle,
after any number of polls that find it busy, and the last poll ends the WAIT loop.
The fields `inputs`, `resp` and `draws` are the model's own (logs 1 and 5). -/
def Obligations.RunCompletesTheCommand : Prop :=
  ∀ (s : State) (polls : Nat) (i : Instr), i.wellFormed = true → s.rst = false →
    s.pending = none → s.inputs = runInputs polls i →
    ∃ t u v, Host.Core.run Sys2Proof.core (polls + 3) s = .next t ∧
      exec i { s with pending := some (encode i), done := false } = .next u ∧
      t = { u with inputs := [], resp := some (.data v), draws := t.draws } ∧
      t.pending = none ∧ waitEnds v = true

/-- R89, R103: `LOADROWS` from an idle state stores the eight rows, makes them valid, sets the stage
to PixelsLoaded, and changes nothing else of the block.
The fields `inputs`, `resp` and `draws` are the model's own (logs 1 and 5). -/
def Obligations.LoadRowsFillsTheBuffer : Prop :=
  ∀ (s : State) (rows : PixelRows), s.rst = false → s.pending = none →
    s.inputs = programInputs (loadRows rows) →
    ∃ t, Host.Core.run Sys2Proof.core 8 s = .next t ∧
      t = { s with
        inputs := [], resp := some .written, pix := rows, pixvalid := 0xFF
        stage := .pixelsLoaded }

/-! ### Idle reads -/

/-- R100, R23 to R27, R30 to R35, R37 to R39: what each register reads when no command is pending,
SLOTMAP and FRAMECNT field by field. A pixel row not written since reset reads any value. -/
def Obligations.IdleReads : Prop :=
  ∀ (p : Params) (s : State), s.pending = none →
    readReg p s .ctrl = s.ctrl ∧ readReg p s .bg = s.bg ∧ readReg p s .gtab = s.gtab ∧
    readReg p s .grid = s.grid ∧ readReg p s .linksel = s.linksel ∧ readReg p s .cmd = 0 ∧
    readReg p s .distinct = s.distinct ∧ readReg p s .keep = s.keep ∧
    readReg p s .summary = s.summary ∧ readReg p s .packed0 = s.packed0 ∧
    readReg p s .packed1 = s.packed1 ∧ readReg p s (.hist 0) = s.hist0 ∧
    readReg p s (.hist 1) = s.hist1 ∧ readReg p s (.hist 2) = s.hist2 ∧
    readReg p s (.hist 3) = s.hist3 ∧
    (∀ y : Fin 8, s.pixvalid.getLsbD y.val = true → readReg p s (.pix y) = s.pix[y]) ∧
    (∀ slot : Slot,
      (readReg p s .slotmap).extractLsb' (4 * slot.val) 4 = (slotColor s.slotmap slot).getD 0 ∧
      (readReg p s .slotmap).getLsbD (16 + slot.val) = (slotColor s.slotmap slot).isSome) ∧
    readReg p s .slotmap &&& 0xFFF00000 = 0 ∧
    (readReg p s .framecnt).extractLsb' 0 16 = BitVec.ofNat 16 (errCount s) ∧
    (readReg p s .framecnt).extractLsb' 16 16 = BitVec.ofNat 16 (anomCount s)
end

