-- ==== Sys2Proof/Laws/Bits.lean ====
section
/-!
SUPPORT. Pixels as bit fields of a row word: what replacing one pixel does, and what recoloring a
row does to each of its pixels.
-/

namespace Sys2Proof.Machine

/-- The bits of a row word after one pixel is replaced. -/
theorem getLsbD_setPixel (row : Word) (x i : Nat) (c : Color) (hi : i < 32) :
    (setPixel row x c).getLsbD i =
      if 4 * x ≤ i ∧ i < 4 * x + 4 then c.getLsbD (i - 4 * x) else row.getLsbD i := by
  have h15 : ∀ k, (0xF#32).getLsbD k = decide (k < 4) := by
    intro k
    rcases Nat.lt_or_ge k 32 with h | h
    · revert k; decide
    · rw [BitVec.getLsbD_of_ge _ _ h]; symm; simp; omega
  simp only [setPixel, BitVec.getLsbD_or, BitVec.getLsbD_and, BitVec.getLsbD_not,
    BitVec.getLsbD_shiftLeft, BitVec.getLsbD_setWidth, h15, hi, decide_true, Bool.true_and]
  by_cases h1 : i < 4 * x
  · simp [h1]
  · by_cases h2 : i < 4 * x + 4
    · have h3 : i - 4 * x < 4 := by omega
      have h4 : i - 4 * x < 32 := by omega
      have h5 : 4 * x ≤ i := by omega
      simp [h1, h2, h3, h4, h5]
    · have h3 : ¬ i - 4 * x < 4 := by omega
      have h4 : c.getLsbD (i - 4 * x) = false := BitVec.getLsbD_of_ge _ _ (by omega)
      simp [h1, h2, h3, h4]

/-- The bits of a pixel. -/
theorem getLsbD_pixelOf (row : Word) (x i : Nat) :
    (pixelOf row x).getLsbD i = (decide (i < 4) && row.getLsbD (4 * x + i)) := by
  simp [pixelOf, BitVec.getLsbD_extractLsb']

theorem pixelOf_setPixel_same (row : Word) {x : Nat} (c : Color) (hx : x < 8) :
    pixelOf (setPixel row x c) x = c := by
  apply BitVec.eq_of_getLsbD_eq
  intro i hi
  rw [getLsbD_pixelOf, getLsbD_setPixel _ _ _ _ (by omega)]
  have h1 : 4 * x + i < 4 * x + 4 := by omega
  simp [hi]

theorem pixelOf_setPixel_other (row : Word) {x z : Nat} (c : Color) (hz : z < 8) (h : z ≠ x) :
    pixelOf (setPixel row x c) z = pixelOf row z := by
  apply BitVec.eq_of_getLsbD_eq
  intro i hi
  rw [getLsbD_pixelOf, getLsbD_pixelOf, getLsbD_setPixel _ _ _ _ (by omega), if_neg (by omega)]

/-- A row word is determined by its eight pixels. -/
theorem word_eq_of_pixels {a b : Word} (h : ∀ x < 8, pixelOf a x = pixelOf b x) : a = b := by
  apply BitVec.eq_of_getLsbD_eq
  intro i hi
  have := congrArg (fun c : Color => c.getLsbD (i % 4)) (h (i / 4) (by omega))
  simp only [getLsbD_pixelOf, show 4 * (i / 4) + i % 4 = i by omega,
    show i % 4 < 4 by omega, decide_true, Bool.true_and] at this
  exact this

/-- What recoloring the first n columns leaves in each column. -/
theorem pixelOf_recolor_columns (f : Color → Color) (row : Word) (n : Nat) (hn : n ≤ 8) {z : Nat}
    (hz : z < 8) :
    pixelOf ((List.range n).foldl (fun r x => setPixel r x (f (pixelOf r x))) row) z =
      if z < n then f (pixelOf row z) else pixelOf row z := by
  induction n with
  | zero => simp
  | succ n ih =>
    rw [List.range_succ, List.foldl_append, List.foldl_cons, List.foldl_nil]
    by_cases h : z = n
    · subst h
      rw [pixelOf_setPixel_same _ _ hz, ih (by omega)]
      simp
    · rw [pixelOf_setPixel_other _ _ hz h, ih (by omega)]
      have : z < n + 1 ↔ z < n := by omega
      simp [this]

theorem blockWidth_le (m : Mode) : blockWidth m ≤ 8 := by cases m <;> decide

/-- R173: an active pixel is recolored, every other pixel of the row stays. -/
theorem pixelOf_recolorRow (m : Mode) (f : Color → Color) (row : Word) {x : Nat} (hx : x < 8) :
    pixelOf (recolorRow m f row) x =
      if x < blockWidth m then f (pixelOf row x) else pixelOf row x :=
  pixelOf_recolor_columns f row _ (blockWidth_le m) hx

@[simp] theorem recolor_row (m : Mode) (f : Color → Color) (pix : PixelRows) (y : Fin 8) :
    (recolor m f pix)[y] = recolorRow m f pix[y] := by
  simp [recolor]

/-- Recoloring that changes no active pixel changes no bit of the buffer. -/
theorem recolor_eq_self (m : Mode) (f : Color → Color) (pix : PixelRows)
    (h : ∀ (y : Fin 8) (x : Nat), x < blockWidth m → f (pixelOf pix[y] x) = pixelOf pix[y] x) :
    recolor m f pix = pix := by
  apply Vector.ext
  intro y hy
  have hrow := recolor_row m f pix ⟨y, hy⟩
  simp only [Fin.getElem_fin] at hrow
  rw [hrow]
  apply word_eq_of_pixels
  intro x hx
  rw [pixelOf_recolorRow m f _ hx]
  split
  · next hw => exact h ⟨y, hy⟩ x hw
  · rfl

end Sys2Proof.Machine
end

