-- ==== Sys2Proof/Laws/Colors.lean ====
section
/-!
SUPPORT. The lists and counts the machine computes with, and the sets and counts of the rules
(41_clash_detect.md R121 to R123): membership, lengths, order.
-/

namespace Sys2Proof.Machine

theorem pixelRows_toList (pix : PixelRows) :
    pix.toList = List.ofFn fun y : Fin 8 => pix[y] := by
  apply List.ext_getElem
  · rw [List.length_ofFn, Vector.length_toList]
  · intro i h1 h2
    rw [List.getElem_ofFn, Vector.getElem_toList, Fin.getElem_fin]

theorem mem_activePixels {m : Mode} {pix : PixelRows} {c : Color} :
    c ∈ activePixels m pix ↔ ∃ y : Fin 8, ∃ x < blockWidth m, pixelOf pix[y] x = c := by
  rw [activePixels, pixelRows_toList, List.mem_flatMap]
  simp only [List.mem_ofFn, exists_exists_eq_and, rowPixels, List.mem_map, List.mem_range]

theorem mem_presentSet {m : Mode} {pix : PixelRows} {c : Color} :
    c ∈ presentSet m pix ↔ ∃ y : Fin 8, ∃ x < blockWidth m, pixelOf pix[y] x = c := by
  simp [presentSet]

theorem mem_colorsAscending (c : Color) : c ∈ colorsAscending := by revert c; decide

/-- The enumeration order is the order of the indexes (R14, R143). -/
theorem colorsAscending_sorted : colorsAscending.Pairwise fun a b => a.toNat < b.toNat := by decide

theorem mem_colorsPresent {m : Mode} {pix : PixelRows} {c : Color} :
    c ∈ colorsPresent m pix ↔ c ∈ presentSet m pix := by
  rw [mem_presentSet, ← mem_activePixels]
  simp [colorsPresent, mem_colorsAscending, colorCount, List.count_pos_iff]

/-- asc(S) is ascending (R14). -/
theorem colorsPresent_sorted (m : Mode) (pix : PixelRows) :
    (colorsPresent m pix).Pairwise fun a b => a.toNat < b.toNat :=
  colorsAscending_sorted.filter _

theorem nodup_of_sorted {l : List Color} (h : l.Pairwise fun a b => a.toNat < b.toNat) :
    l.Nodup := by
  rw [List.nodup_iff_pairwise_ne]
  exact h.imp fun hab hEq => by subst hEq; exact absurd hab (lt_irrefl _)

theorem colorsPresent_nodup (m : Mode) (pix : PixelRows) : (colorsPresent m pix).Nodup :=
  nodup_of_sorted (colorsPresent_sorted m pix)

theorem colorsPresent_toFinset (m : Mode) (pix : PixelRows) :
    (colorsPresent m pix).toFinset = presentSet m pix := by
  ext c
  rw [List.mem_toFinset, mem_colorsPresent]

/-- D is the number of colors in S (R123). -/
theorem colorsPresent_length (m : Mode) (pix : PixelRows) :
    (colorsPresent m pix).length = (presentSet m pix).card := by
  rw [← colorsPresent_toFinset, List.toFinset_card_of_nodup (colorsPresent_nodup m pix)]

theorem count_rowPixels (m : Mode) (row : Word) (c : Color) :
    (rowPixels m row).count c =
      ((Finset.range (blockWidth m)).filter fun x => pixelOf row x = c).card := by
  rw [rowPixels, List.count_eq_countP, List.countP_map, List.countP_eq_length_filter,
    ← List.toFinset_card_of_nodup (List.nodup_range.filter _)]
  congr 1
  ext x
  simp

/-- The histogram counts what R122 counts. -/
theorem colorCount_eq_pixelTotal (m : Mode) (pix : PixelRows) (c : Color) :
    colorCount m pix c = pixelTotal m pix c := by
  rw [colorCount, activePixels, List.count_flatMap, pixelRows_toList, pixelTotal]
  simp only [List.map_ofFn, List.sum_ofFn, Function.comp, count_rowPixels]

/-- A present color has a pixel, an absent one has none. -/
theorem colorCount_pos {m : Mode} {pix : PixelRows} {c : Color} :
    0 < colorCount m pix c ↔ c ∈ presentSet m pix := by
  rw [colorCount, List.count_pos_iff, mem_activePixels, mem_presentSet]

theorem activePixels_length (m : Mode) (pix : PixelRows) :
    (activePixels m pix).length = 8 * blockWidth m := by
  simp [activePixels, List.length_flatMap, rowPixels]
  omega

theorem colorCount_le (m : Mode) (pix : PixelRows) (c : Color) : colorCount m pix c ≤ 64 := by
  have h := List.count_le_length (a := c) (l := activePixels m pix)
  rw [activePixels_length] at h
  have := blockWidth_le m
  unfold colorCount
  omega

/-- Every block has a color (R123). -/
theorem presentSet_nonempty (m : Mode) (pix : PixelRows) : (presentSet m pix).Nonempty :=
  ⟨pixelOf pix[(0 : Fin 8)] 0, mem_presentSet.2 ⟨0, 0, by cases m <;> decide, rfl⟩⟩

end Sys2Proof.Machine
end

