-- ==== Sys2Proof/Laws/SlotMap.lean ====
section
/-!
SUPPORT. Slot maps (42_slot_assign.md R141): what the passes of the mapper produce (R144, R145, R147,
R148), and the inverse mapping (R155).
-/

namespace Sys2Proof.Machine

/-- The pairs are a partial function from colors to slots, and it is injective (R141). -/
def MapOk (map : SlotMap) : Prop := (map.map Prod.fst).Nodup ∧ (map.map Prod.snd).Nodup

theorem mapOk_nil : MapOk [] := by simp [MapOk]

theorem slotTaken_iff {map : SlotMap} {s : Slot} : slotTaken map s = true ↔ ∃ c, (c, s) ∈ map := by
  simp [slotTaken]

theorem slotTaken_append (a b : SlotMap) (s : Slot) :
    slotTaken (a ++ b) s = (slotTaken a s || slotTaken b s) := by
  simp [slotTaken]

/-- Adding a color without a slot at a free slot keeps the map a partial injective function. -/
theorem mapOk_append {a b : SlotMap} (ha : MapOk a) (hb : MapOk b)
    (hc : ∀ c s t, (c, s) ∈ a → (c, t) ∉ b) (hs : ∀ c d s, (c, s) ∈ a → (d, s) ∉ b) :
    MapOk (a ++ b) := by
  constructor
  · rw [List.map_append, List.nodup_append']
    refine ⟨ha.1, hb.1, ?_⟩
    intro c h1 h2
    obtain ⟨⟨c1, s⟩, h1', rfl⟩ := List.mem_map.1 h1
    obtain ⟨⟨c2, t⟩, h2', h3⟩ := List.mem_map.1 h2
    simp only at h3
    subst h3
    exact hc _ _ _ h1' h2'
  · rw [List.map_append, List.nodup_append']
    refine ⟨ha.2, hb.2, ?_⟩
    intro c h1 h2
    obtain ⟨⟨c1, s⟩, h1', rfl⟩ := List.mem_map.1 h1
    obtain ⟨⟨c2, t⟩, h2', h3⟩ := List.mem_map.1 h2
    simp only at h3
    subst h3
    exact hs _ _ _ h1' h2'

theorem mapOk_single (c : Color) (s : Slot) : MapOk [(c, s)] := by simp [MapOk]

/-- In a map, a color has at most one slot. -/
theorem mapOk_slot_unique {map : SlotMap} (h : MapOk map) {c : Color} {s t : Slot}
    (hs : (c, s) ∈ map) (ht : (c, t) ∈ map) : s = t := by
  have := List.inj_on_of_nodup_map h.1 hs ht rfl
  exact congrArg Prod.snd this

/-- In a map, a slot has at most one color. -/
theorem mapOk_color_unique {map : SlotMap} (h : MapOk map) {c d : Color} {s : Slot}
    (hc : (c, s) ∈ map) (hd : (d, s) ∈ map) : c = d := by
  have := List.inj_on_of_nodup_map h.2 hc hd rfl
  exact congrArg Prod.fst this

theorem mem_of_slotOfColor {map : SlotMap} {c : Color} {s : Slot}
    (h : slotOfColor map c = some s) : (c, s) ∈ map := by
  induction map with
  | nil => simp [slotOfColor] at h
  | cons e rest ih =>
    obtain ⟨d, t⟩ := e
    simp only [slotOfColor, List.lookup_cons] at h ih
    by_cases hcd : c = d
    · subst hcd
      simp at h
      simp [h]
    · rw [show (c == d) = false by simpa using hcd] at h
      exact List.mem_cons_of_mem _ (ih h)

theorem slotOfColor_isSome {map : SlotMap} {c : Color} {s : Slot} (h : (c, s) ∈ map) :
    ∃ t, slotOfColor map c = some t := by
  induction map with
  | nil => simp at h
  | cons e rest ih =>
    obtain ⟨d, t⟩ := e
    simp only [slotOfColor, List.lookup_cons] at ih ⊢
    by_cases hcd : c = d
    · subst hcd
      exact ⟨t, by simp⟩
    · rw [show (c == d) = false by simpa using hcd]
      rcases List.mem_cons.1 h with h | h
      · exact absurd (congrArg Prod.fst h) hcd
      · exact ih h

/-- `map[c] = s` says that the pair is in the map. -/
theorem slotOfColor_eq_some {map : SlotMap} (h : MapOk map) {c : Color} {s : Slot} :
    slotOfColor map c = some s ↔ (c, s) ∈ map := by
  refine ⟨mem_of_slotOfColor, fun hm => ?_⟩
  obtain ⟨t, ht⟩ := slotOfColor_isSome hm
  rw [ht, mapOk_slot_unique h hm (mem_of_slotOfColor ht)]

/-- The inverse mapping gives slot s the color that has it (R155). -/
theorem colorOfSlot_eq_some {map : SlotMap} (h : MapOk map) {c : Color} {s : Slot} :
    colorOfSlot map s = some c ↔ (c, s) ∈ map := by
  constructor
  · intro hc
    obtain ⟨e, he, rfl⟩ := Option.map_eq_some_iff.1 hc
    have h1 := List.mem_of_find?_eq_some he
    have h2 := List.find?_some he
    simp only [beq_iff_eq] at h2
    rw [← h2]
    exact h1
  · intro hm
    have hsome : (map.find? fun e => e.2 == s).isSome := by
      rw [List.find?_isSome]
      exact ⟨_, hm, by simp⟩
    obtain ⟨e, he⟩ := Option.isSome_iff_exists.1 hsome
    have h1 := List.mem_of_find?_eq_some he
    have h2 := List.find?_some he
    simp only [beq_iff_eq] at h2
    subst h2
    rw [colorOfSlot, he]
    exact congrArg some (mapOk_color_unique h h1 hm)

@[simp] theorem slotColor_inverseMap (map : SlotMap) (s : Slot) :
    slotColor (inverseMap map) s = colorOfSlot map s := by
  match s with
  | 0 => rfl
  | 1 => rfl
  | 2 => rfl
  | 3 => rfl

@[simp] theorem inverseMap_nil : inverseMap [] = SlotTable.empty := rfl

/-- No color has two slots of the inverse mapping (R141). -/
theorem inverseMap_injective {map : SlotMap} (h : MapOk map) (a b : Slot) (c : Color)
    (ha : slotColor (inverseMap map) a = some c) (hb : slotColor (inverseMap map) b = some c) :
    a = b := by
  rw [slotColor_inverseMap, colorOfSlot_eq_some h] at ha hb
  exact mapOk_slot_unique h ha hb

/-! ### Allocation -/

theorem slotTaken_assign (map : SlotMap) (c : Color) (s t : Slot) :
    slotTaken (assignSlot map c s) t = (slotTaken map t || s == t) := by
  simp [assignSlot, slotTaken]

/-- R145, R148: the colors take, in their order, the free slots in the order's order. -/
theorem allocate_eq (order : List Slot) (horder : order.Nodup) (map : SlotMap)
    (colors : List Color) :
    allocate order map colors =
      map ++ colors.zip (order.filter fun s => !slotTaken map s) := by
  induction colors generalizing map with
  | nil => simp [allocate]
  | cons c rest ih =>
    have hstep : allocate order map (c :: rest) =
        allocate order (allocateStep order map c) rest := rfl
    rw [hstep, ih]
    unfold allocateStep
    cases hf : order.filter fun s => !slotTaken map s with
    | nil =>
      have hnone : order.find? (fun s => !slotTaken map s) = none := by
        rw [← List.head?_filter, hf]; rfl
      rw [hnone]
      simp [hf]
    | cons s free =>
      have hsome : order.find? (fun s => !slotTaken map s) = some s := by
        rw [← List.head?_filter, hf]; rfl
      rw [hsome]
      have hnd : (s :: free).Nodup := hf ▸ horder.filter _
      have hfree : (order.filter fun t => !slotTaken (assignSlot map c s) t) = free := by
        have h1 : (order.filter fun t => !slotTaken (assignSlot map c s) t) =
            (order.filter fun t => !slotTaken map t).filter fun t => t != s := by
          rw [List.filter_filter]
          congr 1
          funext t
          rw [slotTaken_assign]
          cases slotTaken map t <;> simp [bne, BEq.comm]
        rw [h1, hf, List.filter_cons]
        simp only [bne_self_eq_false, Bool.false_eq_true, if_false]
        rw [List.filter_eq_self]
        intro t ht
        have := (List.nodup_cons.1 hnd).1
        simp only [bne_iff_ne, ne_eq]
        rintro rfl
        exact this ht
      simp only [hfree]
      simp [assignSlot]

theorem mem_zip_left {a : List Color} {b : List Slot} {c : Color} {s : Slot}
    (h : (c, s) ∈ a.zip b) : c ∈ a := (List.of_mem_zip h).1

theorem mem_zip_right {a : List Color} {b : List Slot} {c : Color} {s : Slot}
    (h : (c, s) ∈ a.zip b) : s ∈ b := (List.of_mem_zip h).2

theorem zip_map_sublist (a : List Color) (b : List Slot) :
    List.Sublist ((a.zip b).map Prod.fst) a ∧ List.Sublist ((a.zip b).map Prod.snd) b := by
  induction a generalizing b with
  | nil => simp
  | cons c rest ih =>
    cases b with
    | nil => simp
    | cons s more => simpa using ih more

theorem mapOk_zip {a : List Color} {b : List Slot} (ha : a.Nodup) (hb : b.Nodup) :
    MapOk (a.zip b) := by
  constructor
  · exact ha.sublist (zip_map_sublist a b).1
  · exact hb.sublist (zip_map_sublist a b).2

/-- Allocation keeps the map a partial injective function. -/
theorem allocate_mapOk {order : List Slot} (horder : order.Nodup) {map : SlotMap}
    {colors : List Color} (h : MapOk map) (hc : colors.Nodup)
    (hd : ∀ c s, (c, s) ∈ map → c ∉ colors) : MapOk (allocate order map colors) := by
  rw [allocate_eq order horder]
  refine mapOk_append h (mapOk_zip hc (horder.filter _)) ?_ ?_
  · intro c s t hm hz
    exact hd c s hm (mem_zip_left hz)
  · intro c d s hm hz
    have hfree := (List.mem_filter.1 (mem_zip_right hz)).2
    rw [slotTaken_iff.2 ⟨c, hm⟩] at hfree
    simp at hfree

/-- Every color to place gets a slot when there are as many free ones. -/
theorem allocate_total {order : List Slot} (horder : order.Nodup) {map : SlotMap}
    {colors : List Color}
    (hlen : colors.length ≤ (order.filter fun s => !slotTaken map s).length) {c : Color}
    (hc : c ∈ colors) : ∃ s, (c, s) ∈ allocate order map colors := by
  rw [allocate_eq order horder]
  obtain ⟨i, hi, rfl⟩ := List.getElem_of_mem hc
  refine ⟨(order.filter fun s => !slotTaken map s)[i]'(by omega), List.mem_append_right _ ?_⟩
  rw [List.mem_iff_getElem]
  exact ⟨i, by rw [List.length_zip]; omega, by rw [List.getElem_zip]⟩

/-! ### Pass 1 -/

/-- What Pass 1 produces from a map and colors that have no slot in it (R144). -/
structure ReuseSpec (prev : LinkRecord) (map : SlotMap) (colors : List Color)
    (r : SlotMap × List Color) : Prop where
  /-- The map stays a partial injective function. -/
  ok : MapOk map → MapOk r.1
  /-- The map is extended. -/
  extends_ : ∀ e ∈ map, e ∈ r.1
  /-- Every new pair is a color with its previous slot. -/
  fresh : ∀ c s, (c, s) ∈ r.1 → (c, s) ∈ map ∨ (c ∈ colors ∧ previousSlot prev c = some s)
  /-- The deferred colors are colors of the block, in the same order. -/
  sublist : List.Sublist r.2 colors
  /-- A deferred color has no slot. -/
  deferredFree : ∀ c ∈ r.2, ∀ s, (c, s) ∉ r.1
  /-- Every color has a slot or is deferred. -/
  covered : ∀ c ∈ colors, (∃ s, (c, s) ∈ r.1) ∨ c ∈ r.2
  /-- As many colors got a slot as were not deferred. -/
  count : r.1.length + r.2.length = map.length + colors.length
  /-- A color is deferred only without a previous slot or with a taken one. -/
  reason : ∀ c ∈ r.2, ∀ s, previousSlot prev c = some s → slotTaken r.1 s = true

theorem reusePass_append (prev : LinkRecord) (map : SlotMap) (colors : List Color) (c : Color) :
    reusePass prev map (colors ++ [c]) = reuseStep prev (reusePass prev map colors) c := by
  simp [reusePass]

theorem reusePass_spec (prev : LinkRecord) (map : SlotMap) (colors : List Color)
    (hnd : colors.Nodup) (hd : ∀ c s, (c, s) ∈ map → c ∉ colors) :
    ReuseSpec prev map colors (reusePass prev map colors) := by
  induction colors using List.reverseRecOn with
  | nil =>
    constructor <;> simp [reusePass]
  | append_singleton colors c ih =>
    have hnd' := List.nodup_append'.1 hnd
    have hcn : c ∉ colors := fun h => (List.disjoint_left.1 hnd'.2.2) h (by simp)
    have ih := ih hnd'.1 fun d s h h' => hd d s h (by simp [h'])
    rw [reusePass_append]
    generalize hr : reusePass prev map colors = r at ih
    have hcfree : ∀ s, (c, s) ∉ r.1 := by
      intro s h
      rcases ih.fresh c s h with h | h
      · exact hd c s h (by simp)
      · exact hcn h.1
    have hdefer : (∀ s, previousSlot prev c = some s → slotTaken r.1 s = true) →
        ReuseSpec prev map (colors ++ [c]) (r.1, r.2 ++ [c]) := by
      intro hwhy
      constructor
      · exact ih.ok
      · exact ih.extends_
      · intro d s h
        rcases ih.fresh d s h with h | h
        · exact .inl h
        · exact .inr ⟨by simp [h.1], h.2⟩
      · exact ih.sublist.append (.refl _)
      · intro d h s
        rcases List.mem_append.1 h with h | h
        · exact ih.deferredFree d h s
        · rw [List.mem_singleton.1 h]; exact hcfree s
      · intro d h
        rcases List.mem_append.1 h with h | h
        · rcases ih.covered d h with h | h
          · exact .inl h
          · exact .inr (by simp [h])
        · exact .inr (by simpa using Or.inr (List.mem_singleton.1 h))
      · have := ih.count
        simp only [List.length_append, List.length_singleton]
        omega
      · intro d h s hs
        rcases List.mem_append.1 h with h | h
        · exact ih.reason d h s hs
        · rw [List.mem_singleton.1 h] at hs; exact hwhy s hs
    unfold reuseStep
    split
    · next s hs =>
      split
      · next htaken =>
        apply hdefer
        intro t ht
        rw [hs] at ht
        rw [← Option.some.inj ht]
        exact htaken
      · next hfree =>
        have hsfree : ∀ d, (d, s) ∉ r.1 := fun d h => hfree (slotTaken_iff.2 ⟨d, h⟩)
        constructor
        · intro hok
          refine mapOk_append (ih.ok hok) (mapOk_single c s) ?_ ?_
          · intro d t u h1 h2
            simp only [List.mem_singleton, Prod.mk.injEq] at h2
            obtain ⟨rfl, rfl⟩ := h2
            exact hcfree _ h1
          · intro d e t h1 h2
            simp only [List.mem_singleton, Prod.mk.injEq] at h2
            obtain ⟨rfl, rfl⟩ := h2
            exact hsfree _ h1
        · intro e he
          exact List.mem_append_left _ (ih.extends_ e he)
        · intro d t h
          rcases List.mem_append.1 h with h | h
          · rcases ih.fresh d t h with h | h
            · exact .inl h
            · exact .inr ⟨by simp [h.1], h.2⟩
          · simp only [List.mem_singleton, Prod.mk.injEq] at h
            obtain ⟨rfl, rfl⟩ := h
            exact .inr ⟨by simp, hs⟩
        · exact ih.sublist.trans (List.sublist_append_left _ _)
        · intro d h t h'
          rcases List.mem_append.1 h' with h' | h'
          · exact ih.deferredFree d h t h'
          · simp only [List.mem_singleton, Prod.mk.injEq] at h'
            exact hcn (h'.1 ▸ ih.sublist.subset h)
        · intro d h
          rcases List.mem_append.1 h with h | h
          · rcases ih.covered d h with ⟨t, h⟩ | h
            · exact .inl ⟨t, List.mem_append_left _ h⟩
            · exact .inr h
          · rw [List.mem_singleton.1 h]
            exact .inl ⟨s, List.mem_append_right _ (by simp)⟩
        · have := ih.count
          simp only [assignSlot, List.length_append, List.length_singleton]
          omega
        · intro d h t ht
          rw [slotTaken_assign, ih.reason d h t ht]
          rfl
    · next hnone =>
      apply hdefer
      intro s hs
      rw [hnone] at hs
      cases hs

/-! ### The global match -/

/-- R147: the colors with an effective entry take its slot, the others go to the fallback in their
order. -/
theorem globalPass_eq (g : List (Slot × Color)) (map : SlotMap) (colors : List Color) :
    globalPass g map colors =
      (map ++ colors.filterMap (fun c => (globalSlot g c).map fun s => (c, s)),
        colors.filter fun c => (globalSlot g c).isNone) := by
  induction colors using List.reverseRecOn with
  | nil => simp [globalPass]
  | append_singleton colors c ih =>
    have hstep : globalPass g map (colors ++ [c]) = globalStep g (globalPass g map colors) c := by
      simp [globalPass]
    rw [hstep, ih]
    unfold globalStep
    cases h : globalSlot g c with
    | some s => simp [h, assignSlot]
    | none => simp [h]

end Sys2Proof.Machine
end

