-- ==== Sys2Proof/Laws/Assign.lean ====
section
/-!
SUPPORT. The mapper as a whole (42_slot_assign.md R141 to R151, R157, R159): both paths give a
partial injective function, a declared background has slot 0, and on a block that passes the clash
test every color gets a slot.
-/

namespace Sys2Proof.Machine

theorem mem_nonBackground {bgen : Bool} {bgcol : Color} {present : List Color} {c : Color} :
    c ∈ nonBackground bgen bgcol present ↔ c ∈ present ∧ ¬ (bgen = true ∧ c = bgcol) := by
  cases bgen <;> simp [nonBackground]

/-- N as the claims say it, a set, is N as the mapper walks it (R143). -/
theorem mem_nonBackgroundSet {s : State} {pix : PixelRows} {c : Color} :
    c ∈ nonBackgroundSet s pix ↔
      c ∈ nonBackground (bgEn s) (bgCol s) (colorsPresent (ctrlMode s) pix) := by
  rw [mem_nonBackground, mem_colorsPresent, nonBackgroundSet, Finset.mem_filter]

theorem nonBackground_nodup {bgen : Bool} {bgcol : Color} {present : List Color}
    (h : present.Nodup) : (nonBackground bgen bgcol present).Nodup := h.filter _

theorem mem_seedMap {bgen : Bool} {bgcol : Color} {e : Color × Slot} :
    e ∈ seedMap bgen bgcol ↔ bgen = true ∧ e = (bgcol, 0) := by
  unfold seedMap
  split <;> simp_all

theorem seedMap_ok (bgen : Bool) (bgcol : Color) : MapOk (seedMap bgen bgcol) := by
  unfold seedMap
  split
  · exact mapOk_single _ _
  · exact mapOk_nil

theorem seedMap_length (bgen : Bool) (bgcol : Color) :
    (seedMap bgen bgcol).length = if bgen then 1 else 0 := by
  unfold seedMap
  split <;> rfl

theorem seedMap_disjoint {bgen : Bool} {bgcol : Color} (present : List Color) :
    ∀ c s, (c, s) ∈ seedMap bgen bgcol → c ∉ nonBackground bgen bgcol present := by
  intro c s h hc
  obtain ⟨hb, he⟩ := mem_seedMap.1 h
  have := (mem_nonBackground.1 hc).2
  exact this ⟨hb, congrArg Prod.fst he⟩

theorem freshOrder_nodup (m : Mode) : (freshOrder m).Nodup := by cases m <;> decide

theorem fallbackOrder_nodup : fallbackOrder.Nodup := by decide

/-! ### The effective global entries -/

/-- The entry G01 takes effect (R146), said of the register values. -/
def EntryG01 (gtab : Word) (bgen : Bool) (bgcol : Color) : Prop :=
  gtabG01Valid gtab = true ∧ ¬ (bgen = true ∧ gtabG01 gtab = bgcol)

/-- The entry G10 takes effect (R146), said of the register values. -/
def EntryG10 (gtab : Word) (bgen : Bool) (bgcol : Color) : Prop :=
  gtabG10Valid gtab = true ∧ ¬ (bgen = true ∧ gtabG10 gtab = bgcol) ∧
    ¬ (EntryG01 gtab bgen bgcol ∧ gtabG10 gtab = gtabG01 gtab)

theorem mem_effectiveG01 {gtab : Word} {bgen : Bool} {bgcol : Color} {e : Slot × Color} :
    e ∈ effectiveG01 gtab bgen bgcol ↔ EntryG01 gtab bgen bgcol ∧ e = (1, gtabG01 gtab) := by
  cases bgen <;> cases h : gtabG01Valid gtab <;> by_cases hb : gtabG01 gtab = bgcol <;>
    simp [effectiveG01, EntryG01, h, hb]

theorem effectiveG01_eq (gtab : Word) (bgen : Bool) (bgcol : Color)
    [Decidable (EntryG01 gtab bgen bgcol)] :
    effectiveG01 gtab bgen bgcol =
      if EntryG01 gtab bgen bgcol then [(1, gtabG01 gtab)] else [] := by
  cases bgen <;> cases h : gtabG01Valid gtab <;> by_cases hb : gtabG01 gtab = bgcol <;>
    simp [effectiveG01, EntryG01, h, hb]

theorem effectiveGlobal_eq (gtab : Word) (bgen : Bool) (bgcol : Color)
    [Decidable (EntryG01 gtab bgen bgcol)] [Decidable (EntryG10 gtab bgen bgcol)] :
    effectiveGlobal gtab bgen bgcol =
      (if EntryG01 gtab bgen bgcol then [(1, gtabG01 gtab)] else []) ++
        (if EntryG10 gtab bgen bgcol then [(2, gtabG10 gtab)] else []) := by
  have h : (gtabG10Valid gtab && !(bgen && gtabG10 gtab == bgcol) &&
      !(effectiveG01 gtab bgen bgcol).contains (1, gtabG10 gtab)) = true ↔
      EntryG10 gtab bgen bgcol := by
    rw [Bool.and_eq_true, Bool.not_eq_true', ← Bool.not_eq_true, List.contains_iff_mem,
      mem_effectiveG01]
    cases bgen <;> simp [EntryG10, and_assoc]
  unfold effectiveGlobal
  rw [← effectiveG01_eq]
  simp only [h]
  split
  · rfl
  · simp

/-- The slot the table gives a color (R147). -/
theorem globalSlot_eq_some {gtab : Word} {bgen : Bool} {bgcol c : Color} {s : Slot} :
    globalSlot (effectiveGlobal gtab bgen bgcol) c = some s ↔
      (s = 1 ∧ EntryG01 gtab bgen bgcol ∧ c = gtabG01 gtab) ∨
      (s = 2 ∧ EntryG10 gtab bgen bgcol ∧ c = gtabG10 gtab) := by
  classical
  rw [effectiveGlobal_eq]
  by_cases h1 : EntryG01 gtab bgen bgcol <;> by_cases h2 : EntryG10 gtab bgen bgcol <;>
    simp only [h1, h2, if_true, if_false, globalSlot, List.nil_append, List.append_nil,
      List.cons_append, List.find?_cons, List.find?_nil]
  · have hne : gtabG10 gtab ≠ gtabG01 gtab := fun h => h2.2.2 ⟨h1, h⟩
    by_cases ha : gtabG01 gtab = c
    · subst ha
      simp [hne.symm, eq_comm]
    · have ha' : (gtabG01 gtab == c) = false := beq_eq_false_iff_ne.2 ha
      by_cases hb : gtabG10 gtab = c
      · subst hb
        simp [ha', hne, eq_comm]
      · have hb' : (gtabG10 gtab == c) = false := beq_eq_false_iff_ne.2 hb
        simp [ha', hb', Ne.symm ha, Ne.symm hb]
  · by_cases ha : gtabG01 gtab = c
    · subst ha; simp [eq_comm]
    · have ha' : (gtabG01 gtab == c) = false := beq_eq_false_iff_ne.2 ha
      simp [ha', Ne.symm ha]
  · by_cases hb : gtabG10 gtab = c
    · subst hb; simp [eq_comm]
    · have hb' : (gtabG10 gtab == c) = false := beq_eq_false_iff_ne.2 hb
      simp [hb', Ne.symm hb]
  · simp

theorem globalSlot_eq_none {gtab : Word} {bgen : Bool} {bgcol c : Color} :
    globalSlot (effectiveGlobal gtab bgen bgcol) c = none ↔
      ¬ (EntryG01 gtab bgen bgcol ∧ c = gtabG01 gtab) ∧
      ¬ (EntryG10 gtab bgen bgcol ∧ c = gtabG10 gtab) := by
  rw [Option.eq_none_iff_forall_not_mem]
  constructor
  · intro h
    constructor
    · intro hc
      exact h 1 (globalSlot_eq_some.2 (.inl ⟨rfl, hc⟩))
    · intro hc
      exact h 2 (globalSlot_eq_some.2 (.inr ⟨rfl, hc⟩))
  · rintro ⟨h1, h2⟩ s hs
    rcases globalSlot_eq_some.1 hs with ⟨-, h⟩ | ⟨-, h⟩
    · exact h1 h
    · exact h2 h

/-- `{1, 2, 3} \ Ded` (R149). -/
theorem mem_undedicatedSlots {gtab : Word} {bgen : Bool} {bgcol : Color} {s : Slot} :
    s ∈ undedicatedSlots (effectiveGlobal gtab bgen bgcol) ↔
      s ≠ 0 ∧ ¬ (EntryG01 gtab bgen bgcol ∧ s = 1) ∧ ¬ (EntryG10 gtab bgen bgcol ∧ s = 2) := by
  classical
  have h3 : s ∈ ([1, 2, 3] : List Slot) ↔ s ≠ 0 := by revert s; decide
  rw [undedicatedSlots, List.mem_filter, h3, effectiveGlobal_eq]
  by_cases h1 : EntryG01 gtab bgen bgcol <;> by_cases h2 : EntryG10 gtab bgen bgcol <;>
    simp [h1, h2, @eq_comm _ (1 : Slot) s, @eq_comm _ (2 : Slot) s]

theorem undedicatedSlots_nodup (g : List (Slot × Color)) : (undedicatedSlots g).Nodup := by
  unfold undedicatedSlots
  exact List.Nodup.filter _ (by decide)

/-! ### The matched colors -/

/-- The pairs the global match adds (R147). -/
def matchedPairs (gtab : Word) (bgen : Bool) (bgcol : Color) (colors : List Color) : SlotMap :=
  colors.filterMap fun c => (globalSlot (effectiveGlobal gtab bgen bgcol) c).map fun s => (c, s)

/-- The colors for the fallback (R148). -/
def fallbackColors (gtab : Word) (bgen : Bool) (bgcol : Color) (colors : List Color) :
    List Color :=
  colors.filter fun c => (globalSlot (effectiveGlobal gtab bgen bgcol) c).isNone

theorem mem_matchedPairs {gtab : Word} {bgen : Bool} {bgcol : Color} {colors : List Color}
    {c : Color} {s : Slot} :
    (c, s) ∈ matchedPairs gtab bgen bgcol colors ↔
      c ∈ colors ∧ globalSlot (effectiveGlobal gtab bgen bgcol) c = some s := by
  unfold matchedPairs
  rw [List.mem_filterMap]
  constructor
  · rintro ⟨d, hd, h⟩
    obtain ⟨t, ht, he⟩ := Option.map_eq_some_iff.1 h
    obtain ⟨rfl, rfl⟩ := Prod.mk.inj he
    exact ⟨hd, ht⟩
  · rintro ⟨hc, h⟩
    exact ⟨c, hc, by rw [h]; rfl⟩

theorem mem_fallbackColors {gtab : Word} {bgen : Bool} {bgcol : Color} {colors : List Color}
    {c : Color} :
    c ∈ fallbackColors gtab bgen bgcol colors ↔ c ∈ colors ∧
      ¬ (EntryG01 gtab bgen bgcol ∧ c = gtabG01 gtab) ∧
      ¬ (EntryG10 gtab bgen bgcol ∧ c = gtabG10 gtab) := by
  rw [fallbackColors, List.mem_filter, Option.isNone_iff_eq_none, globalSlot_eq_none]

theorem matchedPairs_ok {gtab : Word} {bgen : Bool} {bgcol : Color} {colors : List Color}
    (h : colors.Nodup) : MapOk (matchedPairs gtab bgen bgcol colors) := by
  induction colors with
  | nil => exact mapOk_nil
  | cons c rest ih =>
    have hn := List.nodup_cons.1 h
    have ih := ih hn.2
    unfold matchedPairs at ih ⊢
    rw [List.filterMap_cons]
    split
    · exact ih
    · next e he =>
      obtain ⟨s, hs, rfl⟩ := Option.map_eq_some_iff.1 he
      refine mapOk_append (a := [(c, s)]) (mapOk_single c s) ih ?_ ?_
      · intro d t u h1 h2
        simp only [List.mem_singleton, Prod.mk.injEq] at h1
        obtain ⟨rfl, rfl⟩ := h1
        exact hn.1 (mem_matchedPairs.1 h2).1
      · intro d e t h1 h2
        simp only [List.mem_singleton, Prod.mk.injEq] at h1
        obtain ⟨rfl, rfl⟩ := h1
        have h2 := mem_matchedPairs.1 h2
        have : d = e := by
          rcases globalSlot_eq_some.1 hs with ⟨ha, -, hb⟩ | ⟨ha, -, hb⟩ <;>
            rcases globalSlot_eq_some.1 h2.2 with ⟨hc, -, hd⟩ | ⟨hc, -, hd⟩
          · rw [hb, hd]
          · rw [ha] at hc; exact absurd hc (by decide)
          · rw [ha] at hc; exact absurd hc (by decide)
          · rw [hb, hd]
        exact hn.1 (this ▸ h2.1)

theorem matchedPairs_length (gtab : Word) (bgen : Bool) (bgcol : Color) (colors : List Color) :
    (matchedPairs gtab bgen bgcol colors).length + (fallbackColors gtab bgen bgcol colors).length =
      colors.length := by
  unfold matchedPairs fallbackColors
  induction colors with
  | nil => rfl
  | cons c rest ih =>
    rw [List.filterMap_cons, List.filter_cons]
    cases h : globalSlot (effectiveGlobal gtab bgen bgcol) c with
    | none => simp; omega
    | some s => simp; omega

/-- The map of the global-table path in closed form (R147, R148). -/
theorem assignGlobal_map (gtab : Word) (bgen : Bool) (bgcol : Color) (present : List Color) :
    (assignGlobal gtab bgen bgcol present).map =
      allocate fallbackOrder
        (seedMap bgen bgcol ++
          matchedPairs gtab bgen bgcol (nonBackground bgen bgcol present))
        (fallbackColors gtab bgen bgcol (nonBackground bgen bgcol present)) := by
  simp [assignGlobal, globalPass_eq, matchedPairs, fallbackColors]

/-- The anomaly of the global-table path (R149). -/
theorem assignGlobal_anomaly (gtab : Word) (bgen : Bool) (bgcol : Color) (present : List Color) :
    (assignGlobal gtab bgen bgcol present).anomaly =
      decide ((undedicatedSlots (effectiveGlobal gtab bgen bgcol)).length <
        (fallbackColors gtab bgen bgcol (nonBackground bgen bgcol present)).length) := by
  simp only [assignGlobal, globalPass_eq, fallbackColors]
  rfl

/-- The map after the global match is a partial injective function. -/
theorem globalMatched_ok {gtab : Word} {bgen : Bool} {bgcol : Color} {present : List Color}
    (h : present.Nodup) :
    MapOk (seedMap bgen bgcol ++
      matchedPairs gtab bgen bgcol (nonBackground bgen bgcol present)) := by
  refine mapOk_append (seedMap_ok _ _) (matchedPairs_ok (nonBackground_nodup h)) ?_ ?_
  · intro c s t hs hm
    exact seedMap_disjoint present c s hs (mem_matchedPairs.1 hm).1
  · intro c d s hs hm
    obtain ⟨-, he⟩ := mem_seedMap.1 hs
    obtain ⟨rfl, rfl⟩ := Prod.mk.inj he
    rcases globalSlot_eq_some.1 (mem_matchedPairs.1 hm).2 with ⟨h, -⟩ | ⟨h, -⟩ <;>
      exact absurd h (by decide)

/-- A color of the fallback has no slot after the global match. -/
theorem globalMatched_disjoint {gtab : Word} {bgen : Bool} {bgcol : Color} {present : List Color} :
    ∀ c s, (c, s) ∈ seedMap bgen bgcol ++
        matchedPairs gtab bgen bgcol (nonBackground bgen bgcol present) →
      c ∉ fallbackColors gtab bgen bgcol (nonBackground bgen bgcol present) := by
  intro c s h hf
  have hf := mem_fallbackColors.1 hf
  rcases List.mem_append.1 h with h | h
  · exact seedMap_disjoint present c s h hf.1
  · rcases globalSlot_eq_some.1 (mem_matchedPairs.1 h).2 with ⟨-, h⟩ | ⟨-, h⟩
    · exact hf.2.1 h
    · exact hf.2.2 h

/-! ### Both paths -/

/-- What Pass 1 leaves for Pass 2 (R144, R145). -/
theorem reused_spec (bgen : Bool) (bgcol : Color) (prev : LinkRecord) {present : List Color}
    (h : present.Nodup) :
    ReuseSpec prev (seedMap bgen bgcol) (nonBackground bgen bgcol present)
      (reusePass prev (seedMap bgen bgcol) (nonBackground bgen bgcol present)) :=
  reusePass_spec prev _ _ (nonBackground_nodup h) (seedMap_disjoint present)

/-- R141: the map is a partial injective function. -/
theorem assignSlots_ok (m : Mode) (bgen : Bool) (bgcol : Color) (gtabEn : Bool) (gtab : Word)
    (prev : LinkRecord) {present : List Color} (h : present.Nodup) :
    MapOk (assignSlots m bgen bgcol gtabEn gtab prev present).map := by
  unfold assignSlots
  split
  · rw [assignGlobal_map]
    exact allocate_mapOk fallbackOrder_nodup (globalMatched_ok h)
      ((nonBackground_nodup h).filter _) globalMatched_disjoint
  · have hr := reused_spec bgen bgcol prev h
    exact allocate_mapOk (freshOrder_nodup m) (hr.ok (seedMap_ok _ _))
      ((nonBackground_nodup h).sublist hr.sublist)
      fun c s hm hd => hr.deferredFree c hd s hm

/-- A declared background is in the map at slot 0 (R142, R159). -/
theorem assignSlots_background (m : Mode) (bgcol : Color) (gtabEn : Bool) (gtab : Word)
    (prev : LinkRecord) {present : List Color} (h : present.Nodup) :
    (bgcol, 0) ∈ (assignSlots m true bgcol gtabEn gtab prev present).map := by
  unfold assignSlots
  split
  · rw [assignGlobal_map, allocate_eq _ fallbackOrder_nodup]
    exact List.mem_append_left _ (List.mem_append_left _ (mem_seedMap.2 ⟨rfl, rfl⟩))
  · have hr := reused_spec true bgcol prev h
    simp only [assignTwoPass]
    rw [allocate_eq _ (freshOrder_nodup m)]
    exact List.mem_append_left _ (hr.extends_ _ (mem_seedMap.2 ⟨rfl, rfl⟩))

/-- Only present colors and a declared background are in the map. -/
theorem assignSlots_dom (m : Mode) (bgen : Bool) (bgcol : Color) (gtabEn : Bool) (gtab : Word)
    (prev : LinkRecord) {present : List Color} (h : present.Nodup) {c : Color} {s : Slot}
    (hm : (c, s) ∈ (assignSlots m bgen bgcol gtabEn gtab prev present).map) :
    c ∈ present ∨ (bgen = true ∧ c = bgcol ∧ s = 0) := by
  have hseed : ∀ {c s}, (c, s) ∈ seedMap bgen bgcol → bgen = true ∧ c = bgcol ∧ s = 0 := by
    intro c s h
    obtain ⟨h1, h2⟩ := mem_seedMap.1 h
    exact ⟨h1, congrArg Prod.fst h2, congrArg Prod.snd h2⟩
  unfold assignSlots at hm
  split at hm
  · rw [assignGlobal_map, allocate_eq _ fallbackOrder_nodup] at hm
    rcases List.mem_append.1 hm with hm | hm
    · rcases List.mem_append.1 hm with hm | hm
      · exact .inr (hseed hm)
      · exact .inl (mem_nonBackground.1 (mem_matchedPairs.1 hm).1).1
    · exact .inl (mem_nonBackground.1 (mem_fallbackColors.1 (mem_zip_left hm)).1).1
  · have hr := reused_spec bgen bgcol prev h
    simp only [assignTwoPass] at hm
    rw [allocate_eq _ (freshOrder_nodup m)] at hm
    rcases List.mem_append.1 hm with hm | hm
    · rcases hr.fresh c s hm with hm | hm
      · exact .inr (hseed hm)
      · exact .inl (mem_nonBackground.1 hm.1).1
    · exact .inl (mem_nonBackground.1 (hr.sublist.subset (mem_zip_left hm))).1

/-- A block that passes the clash test has room for its colors and the background (R157). -/
theorem nonBackground_length {m : Mode} {bgen : Bool} {bgcol : Color} {present : List Color}
    (hnd : present.Nodup) (h : clashTest m bgen bgcol present = false) :
    (nonBackground bgen bgcol present).length + (if bgen then 1 else 0) ≤ maxSlots m := by
  simp only [clashTest, Bool.or_eq_false_iff, decide_eq_false_iff_not, not_lt] at h
  obtain ⟨h1, h2⟩ := h
  cases bgen with
  | false => simpa [nonBackground] using h1
  | true =>
    have herase : nonBackground true bgcol present = present.erase bgcol := by
      rw [hnd.erase_eq_filter]
      simp [nonBackground, bne]
    rw [herase]
    by_cases hm : bgcol ∈ present
    · rw [List.length_erase_of_mem hm]
      have := List.length_pos_of_mem hm
      simp only [if_true]
      omega
    · rw [List.erase_of_not_mem hm]
      have hc : present.contains bgcol = false := by simpa using hm
      simp only [hc, Bool.true_and, Bool.not_false, Bool.and_true, decide_eq_false_iff_not] at h2
      simp only [if_true]
      omega

/-- How many slots of an order are free: at least as many as the map leaves. -/
theorem free_length {order : List Slot} (horder : order.Nodup) (map : SlotMap) :
    order.length ≤ (order.filter fun s => !slotTaken map s).length + map.length ∧
      (∀ c, (c, (0 : Slot)) ∈ map → (0 : Slot) ∉ order →
        order.length + 1 ≤ (order.filter fun s => !slotTaken map s).length + map.length) := by
  have hsplit : (order.filter (slotTaken map)).length +
      (order.filter fun s => !slotTaken map s).length = order.length := by
    have := List.length_eq_length_filter_add (l := order) (slotTaken map)
    omega
  have hsub : ∀ s ∈ order.filter (slotTaken map), s ∈ map.map Prod.snd := by
    intro s hs
    obtain ⟨c, hc⟩ := slotTaken_iff.1 (List.mem_filter.1 hs).2
    exact List.mem_map.2 ⟨_, hc, rfl⟩
  have hnd := horder.filter (slotTaken map)
  constructor
  · have := (List.subperm_of_subset hnd hsub).length_le
    rw [List.length_map] at this
    omega
  · intro c hc h0
    have hsub' : ∀ s ∈ order.filter (slotTaken map),
        s ∈ (map.map Prod.snd).erase 0 := by
      intro s hs
      have hne : s ≠ 0 := fun h => h0 (h ▸ (List.mem_filter.1 hs).1)
      exact (List.mem_erase_of_ne hne).2 (hsub s hs)
    have := (List.subperm_of_subset hnd hsub').length_le
    have hmem : (0 : Slot) ∈ map.map Prod.snd := List.mem_map.2 ⟨_, hc, rfl⟩
    rw [List.length_erase_of_mem hmem, List.length_map] at this
    have := List.length_pos_of_mem hmem
    rw [List.length_map] at this
    omega

/-- The colors a path places last find enough free slots (R157). -/
theorem room_for_rest {order : List Slot} (horder : order.Nodup) {map : SlotMap} {m : Mode} {bgen : Bool} {bgcol : Color} {rest n : Nat}
    (hbg : bgen = true → (bgcol, (0 : Slot)) ∈ map)
    (hlen : order.length = 2 ∧ m = .twoColor ∨
      order.length = 3 ∧ (0 : Slot) ∉ order ∧ m = .fourColor ∧ bgen = true)
    (hcount : map.length + rest = (if bgen then 1 else 0) + n)
    (hroom : n + (if bgen then 1 else 0) ≤ maxSlots m) :
    rest ≤ (order.filter fun s => !slotTaken map s).length := by
  have hf := free_length horder map
  rcases hlen with ⟨h2, rfl⟩ | ⟨h3, h0, rfl, rfl⟩
  · simp only [maxSlots] at hroom
    omega
  · have := hf.2 bgcol (hbg rfl) h0
    simp only [maxSlots, if_true] at hroom hcount
    omega

/-- R157: on a block that passes the clash test, with a background declared in 4-color mode, every
present color is in the map. -/
theorem assignSlots_total {m : Mode} {bgen : Bool} {bgcol : Color} (gtabEn : Bool) (gtab : Word)
    (prev : LinkRecord) {present : List Color} (hnd : present.Nodup)
    (hclash : clashTest m bgen bgcol present = false) (hbg : m = .fourColor → bgen = true)
    {c : Color} (hc : c ∈ present) :
    ∃ s, (c, s) ∈ (assignSlots m bgen bgcol gtabEn gtab prev present).map := by
  have hroom := nonBackground_length hnd hclash
  by_cases hcb : bgen = true ∧ c = bgcol
  · obtain ⟨rfl, rfl⟩ := hcb
    exact ⟨0, assignSlots_background m c gtabEn gtab prev hnd⟩
  · have hcn : c ∈ nonBackground bgen bgcol present := mem_nonBackground.2 ⟨hc, hcb⟩
    unfold assignSlots
    split
    · next hg =>
      have hm : m = .fourColor := by
        cases m with
        | twoColor => simp [usesGlobalTable] at hg
        | fourColor => rfl
      subst hm
      rw [assignGlobal_map]
      set matched := seedMap bgen bgcol ++
        matchedPairs gtab bgen bgcol (nonBackground bgen bgcol present) with hmatched
      have hcase : (∃ s, (c, s) ∈ matched) ∨
          c ∈ fallbackColors gtab bgen bgcol (nonBackground bgen bgcol present) := by
        cases h : globalSlot (effectiveGlobal gtab bgen bgcol) c with
        | some s =>
          exact .inl ⟨s, List.mem_append_right _ (mem_matchedPairs.2 ⟨hcn, h⟩)⟩
        | none => exact .inr (List.mem_filter.2 ⟨hcn, by rw [h]; rfl⟩)
      rcases hcase with ⟨s, h⟩ | h
      · refine ⟨s, ?_⟩
        rw [allocate_eq _ fallbackOrder_nodup]
        exact List.mem_append_left _ h
      · refine allocate_total fallbackOrder_nodup ?_ h
        refine room_for_rest (m := .fourColor) (bgen := bgen) (bgcol := bgcol)
          (n := (nonBackground bgen bgcol present).length) fallbackOrder_nodup
          ?_ (.inr ⟨rfl, by decide, rfl, hbg rfl⟩) ?_ hroom
        · intro hb
          exact List.mem_append_left _ (mem_seedMap.2 ⟨hb, rfl⟩)
        · have := matchedPairs_length gtab bgen bgcol (nonBackground bgen bgcol present)
          rw [List.length_append, seedMap_length]
          omega
    · have hr := reused_spec bgen bgcol prev hnd
      simp only [assignTwoPass]
      rcases hr.covered c hcn with ⟨s, h⟩ | h
      · refine ⟨s, ?_⟩
        rw [allocate_eq _ (freshOrder_nodup m)]
        exact List.mem_append_left _ h
      · refine allocate_total (freshOrder_nodup m) ?_ h
        refine room_for_rest (m := m) (bgen := bgen) (bgcol := bgcol)
          (n := (nonBackground bgen bgcol present).length) (freshOrder_nodup m)
          ?_ ?_ ?_ hroom
        · intro hb
          exact hr.extends_ _ (mem_seedMap.2 ⟨hb, rfl⟩)
        · cases m with
          | twoColor => exact .inl ⟨rfl, rfl⟩
          | fourColor => exact .inr ⟨rfl, by decide, rfl, hbg rfl⟩
        · have := hr.count
          rw [seedMap_length] at this
          omega

/-- `pm[c] = s` of a valid record in which no color has two slots (R144). -/
theorem previousSlot_eq_some {prev : LinkRecord} (hi : TableInjective prev.slots) {c : Color}
    {s : Slot} :
    previousSlot prev c = some s ↔ prev.valid = true ∧ slotColor prev.slots s = some c := by
  unfold previousSlot
  split
  · next hv =>
    simp only [hv, true_and]
    constructor
    · intro h
      simpa using List.find?_some h
    · intro h
      have hmem : ∀ s : Slot, s ∈ ([0, 1, 2, 3] : List Slot) := by decide
      cases hf : List.find? (fun s => slotColor prev.slots s == some c) [0, 1, 2, 3] with
      | none =>
        have := List.find?_eq_none.1 hf s (hmem s)
        simp [h] at this
      | some d =>
        have hd := List.find?_some hf
        simp only [beq_iff_eq] at hd
        rw [hi _ _ _ h hd]
  · next hv => simp [hv]

/-- In 2-color mode only the slots 0 and 1 are used, given that the previous record uses no other
(R32, R140). -/
theorem assignSlots_two_color {bgen : Bool} {bgcol : Color} (gtabEn : Bool) (gtab : Word)
    {prev : LinkRecord} {present : List Color} (hnd : present.Nodup)
    (hprev : prev.slots.s2 = none ∧ prev.slots.s3 = none) {c : Color} {s : Slot}
    (hm : (c, s) ∈ (assignSlots .twoColor bgen bgcol gtabEn gtab prev present).map) :
    s = 0 ∨ s = 1 := by
  have hr := reused_spec bgen bgcol prev hnd
  simp only [assignSlots, usesGlobalTable, Bool.false_eq_true, if_false, assignTwoPass] at hm
  rw [allocate_eq _ (freshOrder_nodup _)] at hm
  rcases List.mem_append.1 hm with hm | hm
  · rcases hr.fresh c s hm with hm | ⟨-, hm⟩
    · exact .inl (congrArg Prod.snd (mem_seedMap.1 hm).2)
    · unfold previousSlot at hm
      split at hm
      · have h1 := List.find?_some hm
        simp only [beq_iff_eq] at h1
        have hcases : ∀ s : Slot, s = 0 ∨ s = 1 ∨ s = 2 ∨ s = 3 := by decide
        rcases hcases s with rfl | rfl | rfl | rfl
        · exact .inl rfl
        · exact .inr rfl
        · simp [slotColor, hprev.1] at h1
        · simp [slotColor, hprev.2] at h1
      · cases hm
  · have := (List.mem_filter.1 (mem_zip_right hm)).1
    simpa [freshOrder] using this

end Sys2Proof.Machine
end

