-- ==== Sys2Proof/Laws/LinkBank.lean ====
section
/-!
SUPPORT. The link banks as a memory of records: what is read after a write, and the canonical form
that every write keeps (44_frame_link.md R190, R195, R199).
-/

namespace Sys2Proof.Machine

@[simp] theorem linkRead_nil (i : Nat) : linkRead [] i = LinkRecord.invalid := rfl

@[simp] theorem linkRead_cons (j : Nat) (r : LinkRecord) (bank : LinkBank) (i : Nat) :
    linkRead ((j, r) :: bank) i = if i = j then r else linkRead bank i := by
  simp only [linkRead, List.lookup_cons]
  by_cases h : i = j
  · simp [h]
  · rw [show (i == j) = false by simpa using h, if_neg h]

theorem linkRead_linkErase_same (bank : LinkBank) (i : Nat) :
    linkRead (linkErase bank i) i = LinkRecord.invalid := by
  induction bank with
  | nil => rfl
  | cons e rest ih =>
    obtain ⟨j, r⟩ := e
    rw [linkErase, List.filter_cons]
    by_cases h : j = i
    · simpa [h, linkErase] using ih
    · simp only [bne_iff_ne, ne_eq, h, not_false_eq_true, if_true]
      rw [linkRead_cons, if_neg (Ne.symm h)]
      exact ih

theorem linkRead_linkErase_other (bank : LinkBank) {i j : Nat} (h : j ≠ i) :
    linkRead (linkErase bank i) j = linkRead bank j := by
  induction bank with
  | nil => rfl
  | cons e rest ih =>
    obtain ⟨k, r⟩ := e
    rw [linkErase, List.filter_cons]
    by_cases hk : k = i
    · subst hk
      simpa [linkErase, h] using ih
    · simp only [bne_iff_ne, ne_eq, hk, not_false_eq_true, if_true]
      rw [linkRead_cons, linkRead_cons]
      simp only [linkErase] at ih
      rw [ih]

theorem linkRead_linkInsert_same (bank : LinkBank) (i : Nat) (r : LinkRecord)
    (h : ∀ e ∈ bank, e.1 ≠ i) : linkRead (linkInsert i r bank) i = r := by
  induction bank with
  | nil => simp [linkInsert]
  | cons e rest ih =>
    obtain ⟨k, q⟩ := e
    have hk : k ≠ i := h (k, q) (by simp)
    simp only [linkInsert]
    split
    · simp
    · rw [linkRead_cons, if_neg (Ne.symm hk)]
      exact ih fun e he => h e (by simp [he])

theorem linkRead_linkInsert_other (bank : LinkBank) {i j : Nat} (r : LinkRecord) (h : j ≠ i) :
    linkRead (linkInsert i r bank) j = linkRead bank j := by
  induction bank with
  | nil => simp [linkInsert, h]
  | cons e rest ih =>
    obtain ⟨k, q⟩ := e
    simp only [linkInsert]
    split
    · simp [h]
    · rw [linkRead_cons, linkRead_cons, ih]

theorem linkErase_index_ne (bank : LinkBank) (i : Nat) : ∀ e ∈ linkErase bank i, e.1 ≠ i := by
  intro e he
  simpa using (List.mem_filter.1 he).2

/-- Reading the record just written gives it. -/
@[simp] theorem linkRead_linkWrite_same (bank : LinkBank) (i : Nat) (r : LinkRecord) :
    linkRead (linkWrite bank i r) i = r := by
  simp only [linkWrite]
  split
  · next h => rw [linkRead_linkErase_same, h]
  · exact linkRead_linkInsert_same _ _ _ (linkErase_index_ne bank i)

/-- A write leaves every other record alone. -/
theorem linkRead_linkWrite_other (bank : LinkBank) {i j : Nat} (r : LinkRecord) (h : j ≠ i) :
    linkRead (linkWrite bank i r) j = linkRead bank j := by
  simp only [linkWrite]
  split
  · exact linkRead_linkErase_other bank h
  · rw [linkRead_linkInsert_other _ r h, linkRead_linkErase_other bank h]

theorem mem_linkInsert {bank : LinkBank} {i : Nat} {r : LinkRecord} {e : Nat × LinkRecord} :
    e ∈ linkInsert i r bank ↔ e = (i, r) ∨ e ∈ bank := by
  induction bank with
  | nil => simp [linkInsert]
  | cons d rest ih =>
    simp only [linkInsert]
    split
    · simp
    · simp only [List.mem_cons, ih]
      tauto

/-- The entries after a write: the old ones of other indexes, and the new one unless it is the
invalid record. -/
theorem mem_linkWrite {bank : LinkBank} {i : Nat} {r : LinkRecord} {e : Nat × LinkRecord} :
    e ∈ linkWrite bank i r ↔
      (e = (i, r) ∧ r ≠ LinkRecord.invalid) ∨ (e ∈ bank ∧ e.1 ≠ i) := by
  simp only [linkWrite]
  split
  · next h => simp [linkErase, h]
  · next h => simp [mem_linkInsert, linkErase, h]

/-- The indexes rise strictly. -/
def LinkSorted (bank : LinkBank) : Prop := bank.Pairwise fun a b => a.1 < b.1

theorem linkErase_sorted {bank : LinkBank} (h : LinkSorted bank) (i : Nat) :
    LinkSorted (linkErase bank i) := h.filter _

theorem linkInsert_sorted {bank : LinkBank} {i : Nat} (r : LinkRecord) (h : LinkSorted bank)
    (hi : ∀ e ∈ bank, e.1 ≠ i) : LinkSorted (linkInsert i r bank) := by
  induction bank with
  | nil => simp [linkInsert, LinkSorted]
  | cons d rest ih =>
    have hd := List.pairwise_cons.1 h
    simp only [linkInsert]
    split
    · next hlt =>
      refine List.pairwise_cons.2 ⟨?_, h⟩
      intro e he
      rcases List.mem_cons.1 he with rfl | he
      · exact hlt
      · exact lt_trans hlt (hd.1 e he)
    · next hge =>
      refine List.pairwise_cons.2 ⟨?_, ih hd.2 fun e he => hi e (by simp [he])⟩
      intro e he
      rcases mem_linkInsert.1 he with rfl | he
      · have := hi d (by simp)
        simp only
        omega
      · exact hd.1 e he

theorem linkBankWf_iff {bank : LinkBank} :
    linkBankWf bank = true ↔
      LinkSorted bank ∧ ∀ e ∈ bank, e.2 ≠ LinkRecord.invalid := by
  simp [linkBankWf, LinkSorted]

/-- The empty bank, every record invalid, is canonical. -/
theorem linkBankWf_nil : linkBankWf [] = true := by decide

/-- A write keeps the canonical form. -/
theorem linkWrite_wf {bank : LinkBank} (h : linkBankWf bank = true) (i : Nat) (r : LinkRecord) :
    linkBankWf (linkWrite bank i r) = true := by
  rw [linkBankWf_iff] at h ⊢
  constructor
  · simp only [linkWrite]
    split
    · exact linkErase_sorted h.1 i
    · exact linkInsert_sorted r (linkErase_sorted h.1 i) (linkErase_index_ne bank i)
  · intro e he
    rcases mem_linkWrite.1 he with ⟨rfl, hr⟩ | ⟨he, -⟩
    · exact hr
    · exact h.2 e he

/-- The banks of the reset state are canonical. -/
theorem reset_banks_wf :
    linkBankWf State.reset.cur = true ∧ linkBankWf State.reset.prev = true := by decide

/-- Reset() and invalidation leave canonical banks. -/
theorem invalidateBanks_wf (s : State) :
    linkBankWf (invalidateBanks s).cur = true ∧ linkBankWf (invalidateBanks s).prev = true :=
  ⟨linkBankWf_nil, linkBankWf_nil⟩

/-- In a canonical bank an entry is read at its index. -/
theorem linkRead_of_mem {bank : LinkBank} (h : LinkSorted bank) {e : Nat × LinkRecord}
    (he : e ∈ bank) : linkRead bank e.1 = e.2 := by
  induction bank with
  | nil => simp at he
  | cons d rest ih =>
    obtain ⟨k, q⟩ := d
    have hd := List.pairwise_cons.1 h
    rw [linkRead_cons]
    rcases List.mem_cons.1 he with rfl | he
    · simp
    · have := hd.1 e he
      simp only at this
      rw [if_neg (by omega)]
      exact ih hd.2 he

/-- A record that is read and is not the invalid one is an entry. -/
theorem mem_of_linkRead {bank : LinkBank} {i : Nat} (h : linkRead bank i ≠ LinkRecord.invalid) :
    (i, linkRead bank i) ∈ bank := by
  induction bank with
  | nil => simp at h
  | cons d rest ih =>
    obtain ⟨k, q⟩ := d
    rw [linkRead_cons] at h ⊢
    split
    · next hik => simp [hik]
    · next hik =>
      rw [if_neg hik] at h
      exact List.mem_cons_of_mem _ (ih h)

/-- Two canonical banks that read the same everywhere are equal. -/
theorem linkBank_ext {a b : LinkBank} (ha : linkBankWf a = true) (hb : linkBankWf b = true)
    (h : ∀ i, linkRead a i = linkRead b i) : a = b := by
  rw [linkBankWf_iff] at ha hb
  have key : ∀ {a b : LinkBank}, LinkSorted a → (∀ e ∈ a, e.2 ≠ LinkRecord.invalid) →
      (∀ i, linkRead a i = linkRead b i) → ∀ e ∈ a, e ∈ b := by
    intro a b ha1 ha2 h e he
    have h1 := linkRead_of_mem ha1 he
    have h2 : linkRead b e.1 ≠ LinkRecord.invalid := by rw [← h, h1]; exact ha2 e he
    have h3 := mem_of_linkRead h2
    rw [← h, h1] at h3
    exact h3
  have nodup : ∀ {a : LinkBank}, LinkSorted a → a.Nodup := fun h => by
    rw [List.nodup_iff_pairwise_ne]
    exact h.imp fun hab hEq => by subst hEq; exact absurd hab (lt_irrefl _)
  have hp : a.Perm b :=
    (List.perm_ext_iff_of_nodup (nodup ha.1) (nodup hb.1)).2 fun e =>
      ⟨key ha.1 ha.2 h e, key hb.1 hb.2 (fun i => (h i).symm) e⟩
  exact hp.eq_of_pairwise (fun x y _ _ hxy hyx => absurd hxy (lt_asymm hyx)) ha.1 hb.1

end Sys2Proof.Machine
end

