-- ==== Sys2Proof/Laws/Pack.lean ====
section
/-!
SUPPORT. The packed rows and the byte lanes they stand in (10_state.md R37, 42_slot_assign.md R152).
-/

namespace Sys2Proof.Machine

/-- The four byte lanes of a word made of four bytes (R62). -/
theorem byteLane_append (a b c d : BitVec 8) :
    byteLane (a ++ b ++ c ++ d) 0 = d ∧ byteLane (a ++ b ++ c ++ d) 1 = c ∧
      byteLane (a ++ b ++ c ++ d) 2 = b ∧ byteLane (a ++ b ++ c ++ d) 3 = a := by
  refine ⟨?_, ?_, ?_, ?_⟩ <;>
  · apply BitVec.eq_of_getLsbD_eq
    intro i hi
    simp only [byteLane, BitVec.getLsbD_extractLsb', BitVec.getLsbD_append, hi, decide_true,
      Bool.true_and]
    repeat' split
    all_goals first
      | omega
      | (congr 1; omega)

/-- A packed byte of a 2-color row shows the slot of each column, for slots 0 and 1 (R152). -/
theorem packedPixel_packRow_two (map : SlotMap) (fill : Slot) (row : Word)
    (h : ∀ x < 8, (packedSlot map fill (pixelOf row x)).val < 2) {x : Nat} (hx : x < 8) :
    packedPixel .twoColor (packRow .twoColor map fill row) x =
      (packedSlot map fill (pixelOf row x)).val := by
  have h0 := h 0 (by omega)
  have h1 := h 1 (by omega)
  have h2 := h 2 (by omega)
  have h3 := h 3 (by omega)
  have h4 := h 4 (by omega)
  have h5 := h 5 (by omega)
  have h6 := h 6 (by omega)
  have h7 := h 7 (by omega)
  simp only [packedPixel, packRow, blockWidth, packShift, List.range, List.range.loop, List.map_cons,
    List.map_nil, List.sum_cons, List.sum_nil, BitVec.toNat_ofNat, Nat.shiftLeft_eq]
  interval_cases x <;> omega

/-- A packed byte of a 4-color row shows the slot of each column (R152). -/
theorem packedPixel_packRow_four (map : SlotMap) (fill : Slot) (row : Word) {x : Nat}
    (hx : x < 4) :
    packedPixel .fourColor (packRow .fourColor map fill row) x =
      (packedSlot map fill (pixelOf row x)).val := by
  have h0 := (packedSlot map fill (pixelOf row 0)).isLt
  have h1 := (packedSlot map fill (pixelOf row 1)).isLt
  have h2 := (packedSlot map fill (pixelOf row 2)).isLt
  have h3 := (packedSlot map fill (pixelOf row 3)).isLt
  simp only [packedPixel, packRow, blockWidth, packShift, List.range, List.range.loop, List.map_cons,
    List.map_nil, List.sum_cons, List.sum_nil, BitVec.toNat_ofNat, Nat.shiftLeft_eq]
  interval_cases x <;> omega

/-- With an empty map every pixel packs as the fill slot, which is 0 (R153). -/
theorem packRow_empty (m : Mode) (fillsel bgen : Bool) (bgcol : Color) (row : Word) :
    packRow m [] (fillSlot fillsel bgen bgcol []) row = 0 := by
  have h : fillSlot fillsel bgen bgcol [] = 0 := by
    unfold fillSlot
    split <;> rfl
  rw [h]
  cases m <;> rfl

end Sys2Proof.Machine
end

