-- ==== Sys2Proof/Laws/Ranking.lean ====
section
/-!
SUPPORT. The ranking, the kept set, the substitutes and the rewrite (43_clash_repair.md R170 to
R174): the machine's lists say what the rules say with sets.
-/

namespace Sys2Proof.Machine

/-- a stands strictly before b in the ranking (R170). -/
def StrictlyBefore (m : Mode) (pix : PixelRows) (a b : Color) : Prop :=
  pixelTotal m pix b < pixelTotal m pix a ∨
    (pixelTotal m pix a = pixelTotal m pix b ∧ a.toNat < b.toNat)

theorem ranksBefore_iff {m : Mode} {pix : PixelRows} {a b : Color} :
    ranksBefore m pix a b = true ↔ pixelTotal m pix b < pixelTotal m pix a ∨
      (pixelTotal m pix a = pixelTotal m pix b ∧ a.toNat ≤ b.toNat) := by
  simp [ranksBefore, colorCount_eq_pixelTotal]

theorem strictlyBefore_asymm {m : Mode} {pix : PixelRows} {a b : Color}
    (h : StrictlyBefore m pix a b) : ¬ StrictlyBefore m pix b a := by
  unfold StrictlyBefore at *
  omega

theorem strictlyBefore_trans {m : Mode} {pix : PixelRows} {a b c : Color}
    (h : StrictlyBefore m pix a b) (h' : StrictlyBefore m pix b c) : StrictlyBefore m pix a c := by
  unfold StrictlyBefore at *
  omega

theorem strictlyBefore_of_ranksBefore {m : Mode} {pix : PixelRows} {a b : Color} (hne : a ≠ b)
    (h : ranksBefore m pix a b = true) : StrictlyBefore m pix a b := by
  have hne' : a.toNat ≠ b.toNat := fun h => hne (BitVec.eq_of_toNat_eq h)
  rcases ranksBefore_iff.1 h with h | ⟨h, h'⟩
  · exact .inl h
  · exact .inr ⟨h, by omega⟩

theorem strictlyBefore_of_not_ranksBefore {m : Mode} {pix : PixelRows} {a b : Color}
    (h : ¬ ranksBefore m pix a b = true) : StrictlyBefore m pix b a := by
  rw [ranksBefore_iff] at h
  unfold StrictlyBefore
  omega

theorem rankInsert_perm (m : Mode) (pix : PixelRows) (c : Color) (l : List Color) :
    (rankInsert m pix c l).Perm (c :: l) := by
  induction l with
  | nil => exact .refl _
  | cons d rest ih =>
    simp only [rankInsert]
    split
    · exact .refl _
    · exact (List.Perm.cons d ih).trans (.swap c d rest)

theorem rankInsert_sorted (m : Mode) (pix : PixelRows) (c : Color) (l : List Color)
    (hc : c ∉ l) (h : l.Pairwise (StrictlyBefore m pix)) :
    (rankInsert m pix c l).Pairwise (StrictlyBefore m pix) := by
  induction l with
  | nil => simp [rankInsert]
  | cons d rest ih =>
    have hd := List.pairwise_cons.1 h
    have hcd : c ≠ d := fun h => hc (by simp [h])
    simp only [rankInsert]
    split
    · next hb =>
      have h1 := strictlyBefore_of_ranksBefore hcd hb
      refine List.pairwise_cons.2 ⟨?_, h⟩
      intro e he
      rcases List.mem_cons.1 he with rfl | he
      · exact h1
      · exact strictlyBefore_trans h1 (hd.1 e he)
    · next hb =>
      refine List.pairwise_cons.2 ⟨?_, ih (fun h => hc (by simp [h])) hd.2⟩
      intro e he
      rcases List.mem_cons.1 ((rankInsert_perm m pix c rest).mem_iff.1 he) with rfl | he
      · exact strictlyBefore_of_not_ranksBefore hb
      · exact hd.1 e he

theorem rank_foldr (m : Mode) (pix : PixelRows) (l : List Color) (h : l.Nodup) :
    (l.foldr (rankInsert m pix) []).Perm l ∧
      (l.foldr (rankInsert m pix) []).Pairwise (StrictlyBefore m pix) := by
  induction l with
  | nil => simp
  | cons c rest ih =>
    have hn := List.nodup_cons.1 h
    have := ih hn.2
    rw [List.foldr_cons]
    exact ⟨(rankInsert_perm m pix c _).trans (this.1.cons c),
      rankInsert_sorted m pix c _ (fun hc => hn.1 (this.1.mem_iff.1 hc)) this.2⟩

/-- The ranking lists the present colors. -/
theorem rankColors_perm (m : Mode) (pix : PixelRows) :
    (rankColors m pix).Perm (colorsPresent m pix) :=
  (rank_foldr m pix _ (colorsPresent_nodup m pix)).1

/-- The ranking is in the order of R170. -/
theorem rankColors_sorted (m : Mode) (pix : PixelRows) :
    (rankColors m pix).Pairwise (StrictlyBefore m pix) :=
  (rank_foldr m pix _ (colorsPresent_nodup m pix)).2

theorem mem_rankColors {m : Mode} {pix : PixelRows} {c : Color} :
    c ∈ rankColors m pix ↔ c ∈ presentSet m pix := by
  rw [(rankColors_perm m pix).mem_iff, mem_colorsPresent]

theorem rankColors_nodup (m : Mode) (pix : PixelRows) : (rankColors m pix).Nodup :=
  (rankColors_perm m pix).nodup_iff.2 (colorsPresent_nodup m pix)

theorem rankColors_length (m : Mode) (pix : PixelRows) :
    (rankColors m pix).length = (presentSet m pix).card := by
  rw [(rankColors_perm m pix).length_eq, colorsPresent_length]

/-- In a strictly ordered list, being among the first n is having fewer than n predecessors. -/
theorem mem_take_of_pairwise {R : Color → Color → Prop} [DecidableRel R] (l : List Color)
    (hasymm : ∀ a b, R a b → ¬ R b a) (h : l.Pairwise R) (n : Nat) (c : Color) :
    c ∈ l.take n ↔ c ∈ l ∧ l.countP (fun d => decide (R d c)) < n := by
  induction l generalizing n with
  | nil => simp
  | cons a rest ih =>
    have ha := List.pairwise_cons.1 h
    cases n with
    | zero => simp
    | succ n =>
      rw [List.take_succ_cons, List.mem_cons, List.mem_cons, ih ha.2 n, List.countP_cons]
      by_cases hca : c = a
      · subst hca
        have h0 : rest.countP (fun d => decide (R d c)) = 0 := by
          rw [List.countP_eq_zero]
          intro d hd
          simpa using hasymm c d (ha.1 d hd)
        have h1 : ¬ R c c := fun h => hasymm c c h h
        simp [h0, h1]
      · simp only [hca, false_or]
        constructor
        · rintro ⟨hc, hlt⟩
          have := ha.1 c hc
          simp only [this, decide_true, if_true]
          exact ⟨hc, by omega⟩
        · rintro ⟨hc, hlt⟩
          have := ha.1 c hc
          simp only [this, decide_true, if_true] at hlt
          exact ⟨hc, by omega⟩

theorem rankedBefore_card (m : Mode) (pix : PixelRows) (c : Color)
    [DecidableRel (StrictlyBefore m pix)] :
    (rankColors m pix).countP (fun d => decide (StrictlyBefore m pix d c)) =
      (rankedBefore m pix c).card := by
  rw [List.countP_eq_length_filter,
    ← List.toFinset_card_of_nodup ((rankColors_nodup m pix).filter _)]
  congr 1
  ext d
  rw [List.mem_toFinset, List.mem_filter, mem_rankColors, decide_eq_true_iff, rankedBefore,
    Finset.mem_filter, StrictlyBefore]

/-- The first n colors of the ranking are those with fewer than n colors before them. -/
theorem mem_take_rankColors {m : Mode} {pix : PixelRows} {n : Nat} {c : Color} :
    c ∈ (rankColors m pix).take n ↔ AmongFirst m pix n c := by
  classical
  rw [mem_take_of_pairwise _ (fun a b h => strictlyBefore_asymm h) (rankColors_sorted m pix),
    rankedBefore_card, mem_rankColors, AmongFirst]

/-- The kept set is K of R171. -/
theorem mem_keptSet {m : Mode} {bgen : Bool} {bgcol : Color} {pix : PixelRows} {c : Color} :
    c ∈ keptSet m bgen bgcol (rankColors m pix) ↔ Kept m bgen bgcol pix c := by
  have hb : ((rankColors m pix).take (maxSlots m)).contains bgcol = true ↔
      AmongFirst m pix (maxSlots m) bgcol := by
    rw [List.contains_iff_mem, mem_take_rankColors]
  unfold keptSet Kept
  split
  · next h =>
    have h' : bgen = true ∧ ¬ AmongFirst m pix (maxSlots m) bgcol := by
      rw [← hb]; simpa using h
    simp only [List.mem_append, mem_take_rankColors, List.mem_singleton]
    tauto
  · next h =>
    have h' : ¬ (bgen = true ∧ ¬ AmongFirst m pix (maxSlots m) bgcol) := by
      rw [← hb]; simpa using h
    rw [mem_take_rankColors]
    tauto

/-- `S \ K` (R172). -/
theorem mem_excludedSet {m : Mode} {bgen : Bool} {bgcol : Color} {pix : PixelRows} {c : Color} :
    c ∈ excludedSet (colorsPresent m pix) (keptSet m bgen bgcol (rankColors m pix)) ↔
      c ∈ presentSet m pix ∧ ¬ Kept m bgen bgcol pix c := by
  simp [excludedSet, mem_colorsPresent, mem_keptSet]

/-- The substitute of a color is the one of R172. -/
theorem substitute_spec (subst : Color → List Color) (m : Mode) (bgen : Bool) (bgcol : Color)
    (pix : PixelRows) (c : Color) :
    IsSubstitute subst m bgen bgcol pix c
      (substitute subst bgen bgcol (rankColors m pix) (keptSet m bgen bgcol (rankColors m pix))
        c) := by
  unfold substitute
  split
  · next e he =>
    left
    obtain ⟨h1, before, after, h2, h3⟩ := List.find?_eq_some_iff_append.1 he
    refine ⟨before, after, h2, mem_keptSet.1 (by simpa using h1), fun d hd hk => ?_⟩
    have := h3 d hd
    simp [mem_keptSet.2 hk] at this
  · next he =>
    right
    refine ⟨fun d hd hk => ?_, ?_⟩
    · have := List.find?_eq_none.1 he d hd
      simp [mem_keptSet.2 hk] at this
    · cases bgen with
      | true => simp
      | false =>
        right
        refine ⟨rfl, ?_⟩
        rw [← mem_take_rankColors]
        have hne : rankColors m pix ≠ [] := by
          obtain ⟨c, hc⟩ := presentSet_nonempty m pix
          exact List.ne_nil_of_mem (mem_rankColors.2 hc)
        cases h : rankColors m pix with
        | nil => exact absurd h hne
        | cons a rest => simp

/-- Every substitute is a kept color (R172). -/
theorem kept_of_isSubstitute {subst : Color → List Color} {m : Mode} {bgen : Bool} {bgcol : Color}
    {pix : PixelRows} {c e : Color} (h : IsSubstitute subst m bgen bgcol pix c e) :
    Kept m bgen bgcol pix e := by
  rcases h with ⟨_, _, _, h, _⟩ | ⟨-, ⟨hb, he⟩ | ⟨hb, he⟩⟩
  · exact h
  · by_cases ha : AmongFirst m pix (maxSlots m) bgcol
    · exact .inr ⟨fun h => h.2 ha, he ▸ ha⟩
    · exact .inl ⟨hb, ha, .inr he⟩
  · refine .inr ⟨by simp [hb], he.1, lt_of_lt_of_le he.2 ?_⟩
    cases m <;> decide

/-- R171: at most maxSlots colors are kept. -/
theorem keptSet_length_le (m : Mode) (bgen : Bool) (bgcol : Color) (rank : List Color) :
    (keptSet m bgen bgcol rank).length ≤ maxSlots m := by
  unfold keptSet
  split
  · rw [List.length_append, List.length_take]
    have : 1 ≤ maxSlots m := by cases m <;> decide
    simp
    omega
  · rw [List.length_take]
    omega

/-- What a repair leaves at an active pixel: a kept color stays, another one becomes its
substitute (R173). -/
theorem repairBlock_pixel (subst : Color → List Color) (m : Mode) (bgen : Bool) (bgcol : Color)
    (pix : PixelRows) (y : Fin 8) {x : Nat} (hx : x < blockWidth m) :
    (Kept m bgen bgcol pix (pixelOf pix[y] x) →
      pixelOf (repairBlock subst m bgen bgcol pix).pix[y] x = pixelOf pix[y] x) ∧
    (¬ Kept m bgen bgcol pix (pixelOf pix[y] x) →
      IsSubstitute subst m bgen bgcol pix (pixelOf pix[y] x)
        (pixelOf (repairBlock subst m bgen bgcol pix).pix[y] x)) := by
  have hx8 : x < 8 := lt_of_lt_of_le hx (blockWidth_le m)
  have hp : pixelOf pix[y] x ∈ presentSet m pix := mem_presentSet.2 ⟨y, x, hx, rfl⟩
  simp only [repairBlock, recolor_row]
  rw [pixelOf_recolorRow _ _ _ hx8, if_pos hx]
  constructor
  · intro hk
    rw [if_neg]
    rw [List.contains_iff_mem, mem_excludedSet]
    tauto
  · intro hk
    rw [if_pos]
    · exact substitute_spec subst m bgen bgcol pix _
    · rw [List.contains_iff_mem, mem_excludedSet]
      exact ⟨hp, hk⟩

/-- A repair changes no bit outside the active pixels (R173). -/
theorem repairBlock_inactive (subst : Color → List Color) (m : Mode) (bgen : Bool) (bgcol : Color)
    (pix : PixelRows) (y : Fin 8) {x : Nat} (hx : blockWidth m ≤ x) (hx8 : x < 8) :
    pixelOf (repairBlock subst m bgen bgcol pix).pix[y] x = pixelOf pix[y] x := by
  simp only [repairBlock, recolor_row]
  rw [pixelOf_recolorRow _ _ _ hx8, if_neg (by omega)]

/-- After a repair every active pixel has a kept color (R176). -/
theorem repairBlock_kept (subst : Color → List Color) (m : Mode) (bgen : Bool) (bgcol : Color)
    (pix : PixelRows) {c : Color}
    (h : c ∈ presentSet m (repairBlock subst m bgen bgcol pix).pix) :
    Kept m bgen bgcol pix c := by
  obtain ⟨y, x, hx, rfl⟩ := mem_presentSet.1 h
  have hp := repairBlock_pixel subst m bgen bgcol pix y hx
  by_cases hk : Kept m bgen bgcol pix (pixelOf pix[y] x)
  · rw [hp.1 hk]
    exact hk
  · exact kept_of_isSubstitute (hp.2 hk)

theorem getLsbD_oneHot : ∀ c d : Color, (1#16 <<< d.toNat).getLsbD c.toNat = true ↔ c = d := by
  decide

/-- Bit c of a color mask is 1 exactly for the colors of the set (R31). -/
theorem getLsbD_colorMask (cs : List Color) (c : Color) :
    (colorMask cs).getLsbD c.toNat = true ↔ c ∈ cs := by
  have h : ∀ (cs : List Color) (m : BitVec 16),
      (cs.foldl (fun m c => m ||| (1#16 <<< c.toNat)) m).getLsbD c.toNat = true ↔
        m.getLsbD c.toNat = true ∨ c ∈ cs := by
    intro cs
    induction cs with
    | nil => simp
    | cons d rest ih =>
      intro m
      rw [List.foldl_cons, ih]
      rw [BitVec.getLsbD_or, Bool.or_eq_true, getLsbD_oneHot, List.mem_cons]
      tauto
  rw [colorMask, h]
  simp

/-- KEEP shows both sets (R31). -/
theorem getLsbD_keepWord (kept excluded : List Color) (c : Color) :
    ((keepWord kept excluded).getLsbD c.toNat = true ↔ c ∈ kept) ∧
      ((keepWord kept excluded).getLsbD (16 + c.toNat) = true ↔ c ∈ excluded) := by
  have hc : c.toNat < 16 := c.isLt
  simp only [keepWord, BitVec.getLsbD_append]
  rw [if_pos hc, if_neg (by omega), show 16 + c.toNat - 16 = c.toNat by omega]
  exact ⟨getLsbD_colorMask _ _, getLsbD_colorMask _ _⟩

end Sys2Proof.Machine
end

