-- ==== Sys2Proof/Laws/State.lean ====
section
/-!
SUPPORT. One lemma per field per shared state update: what the field is after it. All hold by
definition, so that no later proof unfolds a record update.
-/

namespace Sys2Proof.Machine

@[simp] theorem raiseCmdError_eq (code : ErrCode) (s : State) :
    raiseCmdError code s = completeWith code s := rfl

/-! ### `setBlockFlags` -/

@[simp] theorem setBlockFlags_ctrl (a b c d e f : Bool) (s : State) :
    (setBlockFlags a b c d e f s).ctrl = s.ctrl := rfl
@[simp] theorem setBlockFlags_bg (a b c d e f : Bool) (s : State) :
    (setBlockFlags a b c d e f s).bg = s.bg := rfl
@[simp] theorem setBlockFlags_gtab (a b c d e f : Bool) (s : State) :
    (setBlockFlags a b c d e f s).gtab = s.gtab := rfl
@[simp] theorem setBlockFlags_grid (a b c d e f : Bool) (s : State) :
    (setBlockFlags a b c d e f s).grid = s.grid := rfl
@[simp] theorem setBlockFlags_linksel (a b c d e f : Bool) (s : State) :
    (setBlockFlags a b c d e f s).linksel = s.linksel := rfl
@[simp] theorem setBlockFlags_done (a b c d e f : Bool) (s : State) :
    (setBlockFlags a b c d e f s).done = s.done := rfl
@[simp] theorem setBlockFlags_errcode (a b c d e f : Bool) (s : State) :
    (setBlockFlags a b c d e f s).errcode = s.errcode := rfl
@[simp] theorem setBlockFlags_errBusy (a b c d e f : Bool) (s : State) :
    (setBlockFlags a b c d e f s).errBusy = s.errBusy := rfl
@[simp] theorem setBlockFlags_clash (a b c d e f : Bool) (s : State) :
    (setBlockFlags a b c d e f s).clash = a := rfl
@[simp] theorem setBlockFlags_wasClashed (a b c d e f : Bool) (s : State) :
    (setBlockFlags a b c d e f s).wasClashed = b := rfl
@[simp] theorem setBlockFlags_repaired (a b c d e f : Bool) (s : State) :
    (setBlockFlags a b c d e f s).repaired = c := rfl
@[simp] theorem setBlockFlags_skipped (a b c d e f : Bool) (s : State) :
    (setBlockFlags a b c d e f s).skipped = d := rfl
@[simp] theorem setBlockFlags_anomaly (a b c d e f : Bool) (s : State) :
    (setBlockFlags a b c d e f s).anomaly = e := rfl
@[simp] theorem setBlockFlags_prevValid (a b c d e f : Bool) (s : State) :
    (setBlockFlags a b c d e f s).prevValid = f := rfl
@[simp] theorem setBlockFlags_stage (a b c d e f : Bool) (s : State) :
    (setBlockFlags a b c d e f s).stage = s.stage := rfl
@[simp] theorem setBlockFlags_pixvalid (a b c d e f : Bool) (s : State) :
    (setBlockFlags a b c d e f s).pixvalid = s.pixvalid := rfl
@[simp] theorem setBlockFlags_distinct (a b c d e f : Bool) (s : State) :
    (setBlockFlags a b c d e f s).distinct = s.distinct := rfl
@[simp] theorem setBlockFlags_keep (a b c d e f : Bool) (s : State) :
    (setBlockFlags a b c d e f s).keep = s.keep := rfl
@[simp] theorem setBlockFlags_slotmap (a b c d e f : Bool) (s : State) :
    (setBlockFlags a b c d e f s).slotmap = s.slotmap := rfl
@[simp] theorem setBlockFlags_summary (a b c d e f : Bool) (s : State) :
    (setBlockFlags a b c d e f s).summary = s.summary := rfl
@[simp] theorem setBlockFlags_packed0 (a b c d e f : Bool) (s : State) :
    (setBlockFlags a b c d e f s).packed0 = s.packed0 := rfl
@[simp] theorem setBlockFlags_packed1 (a b c d e f : Bool) (s : State) :
    (setBlockFlags a b c d e f s).packed1 = s.packed1 := rfl
@[simp] theorem setBlockFlags_hist0 (a b c d e f : Bool) (s : State) :
    (setBlockFlags a b c d e f s).hist0 = s.hist0 := rfl
@[simp] theorem setBlockFlags_hist1 (a b c d e f : Bool) (s : State) :
    (setBlockFlags a b c d e f s).hist1 = s.hist1 := rfl
@[simp] theorem setBlockFlags_hist2 (a b c d e f : Bool) (s : State) :
    (setBlockFlags a b c d e f s).hist2 = s.hist2 := rfl
@[simp] theorem setBlockFlags_hist3 (a b c d e f : Bool) (s : State) :
    (setBlockFlags a b c d e f s).hist3 = s.hist3 := rfl
@[simp] theorem setBlockFlags_pix (a b c d e f : Bool) (s : State) :
    (setBlockFlags a b c d e f s).pix = s.pix := rfl
@[simp] theorem setBlockFlags_cur (a b c d e f : Bool) (s : State) :
    (setBlockFlags a b c d e f s).cur = s.cur := rfl
@[simp] theorem setBlockFlags_prev (a b c d e f : Bool) (s : State) :
    (setBlockFlags a b c d e f s).prev = s.prev := rfl
@[simp] theorem setBlockFlags_pending (a b c d e f : Bool) (s : State) :
    (setBlockFlags a b c d e f s).pending = s.pending := rfl
@[simp] theorem setBlockFlags_rst (a b c d e f : Bool) (s : State) :
    (setBlockFlags a b c d e f s).rst = s.rst := rfl
@[simp] theorem setBlockFlags_inputs (a b c d e f : Bool) (s : State) :
    (setBlockFlags a b c d e f s).inputs = s.inputs := rfl
@[simp] theorem setBlockFlags_resp (a b c d e f : Bool) (s : State) :
    (setBlockFlags a b c d e f s).resp = s.resp := rfl
@[simp] theorem setBlockFlags_draws (a b c d e f : Bool) (s : State) :
    (setBlockFlags a b c d e f s).draws = s.draws := rfl

/-! ### `writeCounts` -/

@[simp] theorem writeCounts_ctrl (d : Nat) (m : Mode) (p : PixelRows) (s : State) :
    (writeCounts d m p s).ctrl = s.ctrl := rfl
@[simp] theorem writeCounts_bg (d : Nat) (m : Mode) (p : PixelRows) (s : State) :
    (writeCounts d m p s).bg = s.bg := rfl
@[simp] theorem writeCounts_gtab (d : Nat) (m : Mode) (p : PixelRows) (s : State) :
    (writeCounts d m p s).gtab = s.gtab := rfl
@[simp] theorem writeCounts_grid (d : Nat) (m : Mode) (p : PixelRows) (s : State) :
    (writeCounts d m p s).grid = s.grid := rfl
@[simp] theorem writeCounts_linksel (d : Nat) (m : Mode) (p : PixelRows) (s : State) :
    (writeCounts d m p s).linksel = s.linksel := rfl
@[simp] theorem writeCounts_done (d : Nat) (m : Mode) (p : PixelRows) (s : State) :
    (writeCounts d m p s).done = s.done := rfl
@[simp] theorem writeCounts_errcode (d : Nat) (m : Mode) (p : PixelRows) (s : State) :
    (writeCounts d m p s).errcode = s.errcode := rfl
@[simp] theorem writeCounts_errBusy (d : Nat) (m : Mode) (p : PixelRows) (s : State) :
    (writeCounts d m p s).errBusy = s.errBusy := rfl
@[simp] theorem writeCounts_clash (d : Nat) (m : Mode) (p : PixelRows) (s : State) :
    (writeCounts d m p s).clash = s.clash := rfl
@[simp] theorem writeCounts_wasClashed (d : Nat) (m : Mode) (p : PixelRows) (s : State) :
    (writeCounts d m p s).wasClashed = s.wasClashed := rfl
@[simp] theorem writeCounts_repaired (d : Nat) (m : Mode) (p : PixelRows) (s : State) :
    (writeCounts d m p s).repaired = s.repaired := rfl
@[simp] theorem writeCounts_skipped (d : Nat) (m : Mode) (p : PixelRows) (s : State) :
    (writeCounts d m p s).skipped = s.skipped := rfl
@[simp] theorem writeCounts_anomaly (d : Nat) (m : Mode) (p : PixelRows) (s : State) :
    (writeCounts d m p s).anomaly = s.anomaly := rfl
@[simp] theorem writeCounts_prevValid (d : Nat) (m : Mode) (p : PixelRows) (s : State) :
    (writeCounts d m p s).prevValid = s.prevValid := rfl
@[simp] theorem writeCounts_stage (d : Nat) (m : Mode) (p : PixelRows) (s : State) :
    (writeCounts d m p s).stage = s.stage := rfl
@[simp] theorem writeCounts_pixvalid (d : Nat) (m : Mode) (p : PixelRows) (s : State) :
    (writeCounts d m p s).pixvalid = s.pixvalid := rfl
@[simp] theorem writeCounts_distinct (d : Nat) (m : Mode) (p : PixelRows) (s : State) :
    (writeCounts d m p s).distinct = distinctWord d (colorsPresent m p).length := rfl
@[simp] theorem writeCounts_keep (d : Nat) (m : Mode) (p : PixelRows) (s : State) :
    (writeCounts d m p s).keep = s.keep := rfl
@[simp] theorem writeCounts_slotmap (d : Nat) (m : Mode) (p : PixelRows) (s : State) :
    (writeCounts d m p s).slotmap = s.slotmap := rfl
@[simp] theorem writeCounts_summary (d : Nat) (m : Mode) (p : PixelRows) (s : State) :
    (writeCounts d m p s).summary = s.summary := rfl
@[simp] theorem writeCounts_packed0 (d : Nat) (m : Mode) (p : PixelRows) (s : State) :
    (writeCounts d m p s).packed0 = s.packed0 := rfl
@[simp] theorem writeCounts_packed1 (d : Nat) (m : Mode) (p : PixelRows) (s : State) :
    (writeCounts d m p s).packed1 = s.packed1 := rfl
@[simp] theorem writeCounts_hist0 (d : Nat) (m : Mode) (p : PixelRows) (s : State) :
    (writeCounts d m p s).hist0 = histWord m p 0 := rfl
@[simp] theorem writeCounts_hist1 (d : Nat) (m : Mode) (p : PixelRows) (s : State) :
    (writeCounts d m p s).hist1 = histWord m p 1 := rfl
@[simp] theorem writeCounts_hist2 (d : Nat) (m : Mode) (p : PixelRows) (s : State) :
    (writeCounts d m p s).hist2 = histWord m p 2 := rfl
@[simp] theorem writeCounts_hist3 (d : Nat) (m : Mode) (p : PixelRows) (s : State) :
    (writeCounts d m p s).hist3 = histWord m p 3 := rfl
@[simp] theorem writeCounts_pix (d : Nat) (m : Mode) (p : PixelRows) (s : State) :
    (writeCounts d m p s).pix = s.pix := rfl
@[simp] theorem writeCounts_cur (d : Nat) (m : Mode) (p : PixelRows) (s : State) :
    (writeCounts d m p s).cur = s.cur := rfl
@[simp] theorem writeCounts_prev (d : Nat) (m : Mode) (p : PixelRows) (s : State) :
    (writeCounts d m p s).prev = s.prev := rfl
@[simp] theorem writeCounts_pending (d : Nat) (m : Mode) (p : PixelRows) (s : State) :
    (writeCounts d m p s).pending = s.pending := rfl
@[simp] theorem writeCounts_rst (d : Nat) (m : Mode) (p : PixelRows) (s : State) :
    (writeCounts d m p s).rst = s.rst := rfl
@[simp] theorem writeCounts_inputs (d : Nat) (m : Mode) (p : PixelRows) (s : State) :
    (writeCounts d m p s).inputs = s.inputs := rfl
@[simp] theorem writeCounts_resp (d : Nat) (m : Mode) (p : PixelRows) (s : State) :
    (writeCounts d m p s).resp = s.resp := rfl
@[simp] theorem writeCounts_draws (d : Nat) (m : Mode) (p : PixelRows) (s : State) :
    (writeCounts d m p s).draws = s.draws := rfl

/-! ### `completeWith` -/

@[simp] theorem completeWith_ctrl (code : ErrCode) (s : State) :
    (completeWith code s).ctrl = s.ctrl := rfl
@[simp] theorem completeWith_bg (code : ErrCode) (s : State) :
    (completeWith code s).bg = s.bg := rfl
@[simp] theorem completeWith_gtab (code : ErrCode) (s : State) :
    (completeWith code s).gtab = s.gtab := rfl
@[simp] theorem completeWith_grid (code : ErrCode) (s : State) :
    (completeWith code s).grid = s.grid := rfl
@[simp] theorem completeWith_linksel (code : ErrCode) (s : State) :
    (completeWith code s).linksel = s.linksel := rfl
@[simp] theorem completeWith_done (code : ErrCode) (s : State) :
    (completeWith code s).done = true := rfl
@[simp] theorem completeWith_errcode (code : ErrCode) (s : State) :
    (completeWith code s).errcode = code := rfl
@[simp] theorem completeWith_errBusy (code : ErrCode) (s : State) :
    (completeWith code s).errBusy = s.errBusy := rfl
@[simp] theorem completeWith_clash (code : ErrCode) (s : State) :
    (completeWith code s).clash = s.clash := rfl
@[simp] theorem completeWith_wasClashed (code : ErrCode) (s : State) :
    (completeWith code s).wasClashed = s.wasClashed := rfl
@[simp] theorem completeWith_repaired (code : ErrCode) (s : State) :
    (completeWith code s).repaired = s.repaired := rfl
@[simp] theorem completeWith_skipped (code : ErrCode) (s : State) :
    (completeWith code s).skipped = s.skipped := rfl
@[simp] theorem completeWith_anomaly (code : ErrCode) (s : State) :
    (completeWith code s).anomaly = s.anomaly := rfl
@[simp] theorem completeWith_prevValid (code : ErrCode) (s : State) :
    (completeWith code s).prevValid = s.prevValid := rfl
@[simp] theorem completeWith_stage (code : ErrCode) (s : State) :
    (completeWith code s).stage = s.stage := rfl
@[simp] theorem completeWith_pixvalid (code : ErrCode) (s : State) :
    (completeWith code s).pixvalid = s.pixvalid := rfl
@[simp] theorem completeWith_distinct (code : ErrCode) (s : State) :
    (completeWith code s).distinct = s.distinct := rfl
@[simp] theorem completeWith_keep (code : ErrCode) (s : State) :
    (completeWith code s).keep = s.keep := rfl
@[simp] theorem completeWith_slotmap (code : ErrCode) (s : State) :
    (completeWith code s).slotmap = s.slotmap := rfl
@[simp] theorem completeWith_summary (code : ErrCode) (s : State) :
    (completeWith code s).summary = s.summary := rfl
@[simp] theorem completeWith_packed0 (code : ErrCode) (s : State) :
    (completeWith code s).packed0 = s.packed0 := rfl
@[simp] theorem completeWith_packed1 (code : ErrCode) (s : State) :
    (completeWith code s).packed1 = s.packed1 := rfl
@[simp] theorem completeWith_hist0 (code : ErrCode) (s : State) :
    (completeWith code s).hist0 = s.hist0 := rfl
@[simp] theorem completeWith_hist1 (code : ErrCode) (s : State) :
    (completeWith code s).hist1 = s.hist1 := rfl
@[simp] theorem completeWith_hist2 (code : ErrCode) (s : State) :
    (completeWith code s).hist2 = s.hist2 := rfl
@[simp] theorem completeWith_hist3 (code : ErrCode) (s : State) :
    (completeWith code s).hist3 = s.hist3 := rfl
@[simp] theorem completeWith_pix (code : ErrCode) (s : State) :
    (completeWith code s).pix = s.pix := rfl
@[simp] theorem completeWith_cur (code : ErrCode) (s : State) :
    (completeWith code s).cur = s.cur := rfl
@[simp] theorem completeWith_prev (code : ErrCode) (s : State) :
    (completeWith code s).prev = s.prev := rfl
@[simp] theorem completeWith_pending (code : ErrCode) (s : State) :
    (completeWith code s).pending = none := rfl
@[simp] theorem completeWith_rst (code : ErrCode) (s : State) :
    (completeWith code s).rst = s.rst := rfl
@[simp] theorem completeWith_inputs (code : ErrCode) (s : State) :
    (completeWith code s).inputs = s.inputs := rfl
@[simp] theorem completeWith_resp (code : ErrCode) (s : State) :
    (completeWith code s).resp = s.resp := rfl
@[simp] theorem completeWith_draws (code : ErrCode) (s : State) :
    (completeWith code s).draws = s.draws := rfl

/-! ### `invalidateBanks` -/

@[simp] theorem invalidateBanks_ctrl (s : State) : (invalidateBanks s).ctrl = s.ctrl := rfl
@[simp] theorem invalidateBanks_bg (s : State) : (invalidateBanks s).bg = s.bg := rfl
@[simp] theorem invalidateBanks_gtab (s : State) : (invalidateBanks s).gtab = s.gtab := rfl
@[simp] theorem invalidateBanks_grid (s : State) : (invalidateBanks s).grid = s.grid := rfl
@[simp] theorem invalidateBanks_linksel (s : State) : (invalidateBanks s).linksel = s.linksel := rfl
@[simp] theorem invalidateBanks_done (s : State) : (invalidateBanks s).done = s.done := rfl
@[simp] theorem invalidateBanks_errcode (s : State) : (invalidateBanks s).errcode = s.errcode := rfl
@[simp] theorem invalidateBanks_errBusy (s : State) : (invalidateBanks s).errBusy = s.errBusy := rfl
@[simp] theorem invalidateBanks_clash (s : State) : (invalidateBanks s).clash = s.clash := rfl
@[simp] theorem invalidateBanks_wasClashed (s : State) :
    (invalidateBanks s).wasClashed = s.wasClashed := rfl
@[simp] theorem invalidateBanks_repaired (s : State) :
    (invalidateBanks s).repaired = s.repaired := rfl
@[simp] theorem invalidateBanks_skipped (s : State) : (invalidateBanks s).skipped = s.skipped := rfl
@[simp] theorem invalidateBanks_anomaly (s : State) : (invalidateBanks s).anomaly = s.anomaly := rfl
@[simp] theorem invalidateBanks_prevValid (s : State) :
    (invalidateBanks s).prevValid = s.prevValid := rfl
@[simp] theorem invalidateBanks_stage (s : State) : (invalidateBanks s).stage = s.stage := rfl
@[simp] theorem invalidateBanks_pixvalid (s : State) :
    (invalidateBanks s).pixvalid = s.pixvalid := rfl
@[simp] theorem invalidateBanks_distinct (s : State) :
    (invalidateBanks s).distinct = s.distinct := rfl
@[simp] theorem invalidateBanks_keep (s : State) : (invalidateBanks s).keep = s.keep := rfl
@[simp] theorem invalidateBanks_slotmap (s : State) : (invalidateBanks s).slotmap = s.slotmap := rfl
@[simp] theorem invalidateBanks_summary (s : State) : (invalidateBanks s).summary = s.summary := rfl
@[simp] theorem invalidateBanks_packed0 (s : State) : (invalidateBanks s).packed0 = s.packed0 := rfl
@[simp] theorem invalidateBanks_packed1 (s : State) : (invalidateBanks s).packed1 = s.packed1 := rfl
@[simp] theorem invalidateBanks_hist0 (s : State) : (invalidateBanks s).hist0 = s.hist0 := rfl
@[simp] theorem invalidateBanks_hist1 (s : State) : (invalidateBanks s).hist1 = s.hist1 := rfl
@[simp] theorem invalidateBanks_hist2 (s : State) : (invalidateBanks s).hist2 = s.hist2 := rfl
@[simp] theorem invalidateBanks_hist3 (s : State) : (invalidateBanks s).hist3 = s.hist3 := rfl
@[simp] theorem invalidateBanks_pix (s : State) : (invalidateBanks s).pix = s.pix := rfl
@[simp] theorem invalidateBanks_cur (s : State) : (invalidateBanks s).cur = [] := rfl
@[simp] theorem invalidateBanks_prev (s : State) : (invalidateBanks s).prev = [] := rfl
@[simp] theorem invalidateBanks_pending (s : State) : (invalidateBanks s).pending = s.pending := rfl
@[simp] theorem invalidateBanks_rst (s : State) : (invalidateBanks s).rst = s.rst := rfl
@[simp] theorem invalidateBanks_inputs (s : State) : (invalidateBanks s).inputs = s.inputs := rfl
@[simp] theorem invalidateBanks_resp (s : State) : (invalidateBanks s).resp = s.resp := rfl
@[simp] theorem invalidateBanks_draws (s : State) : (invalidateBanks s).draws = s.draws := rfl

/-! ### `advanceFrame` -/

@[simp] theorem advanceFrame_ctrl (s : State) : (advanceFrame s).ctrl = s.ctrl := rfl
@[simp] theorem advanceFrame_bg (s : State) : (advanceFrame s).bg = s.bg := rfl
@[simp] theorem advanceFrame_gtab (s : State) : (advanceFrame s).gtab = s.gtab := rfl
@[simp] theorem advanceFrame_grid (s : State) : (advanceFrame s).grid = s.grid := rfl
@[simp] theorem advanceFrame_linksel (s : State) : (advanceFrame s).linksel = s.linksel := rfl
@[simp] theorem advanceFrame_done (s : State) : (advanceFrame s).done = s.done := rfl
@[simp] theorem advanceFrame_errcode (s : State) : (advanceFrame s).errcode = s.errcode := rfl
@[simp] theorem advanceFrame_errBusy (s : State) : (advanceFrame s).errBusy = s.errBusy := rfl
@[simp] theorem advanceFrame_clash (s : State) : (advanceFrame s).clash = s.clash := rfl
@[simp] theorem advanceFrame_wasClashed (s : State) :
    (advanceFrame s).wasClashed = s.wasClashed := rfl
@[simp] theorem advanceFrame_repaired (s : State) : (advanceFrame s).repaired = s.repaired := rfl
@[simp] theorem advanceFrame_skipped (s : State) : (advanceFrame s).skipped = s.skipped := rfl
@[simp] theorem advanceFrame_anomaly (s : State) : (advanceFrame s).anomaly = s.anomaly := rfl
@[simp] theorem advanceFrame_prevValid (s : State) : (advanceFrame s).prevValid = s.prevValid := rfl
@[simp] theorem advanceFrame_stage (s : State) : (advanceFrame s).stage = s.stage := rfl
@[simp] theorem advanceFrame_pixvalid (s : State) : (advanceFrame s).pixvalid = s.pixvalid := rfl
@[simp] theorem advanceFrame_distinct (s : State) : (advanceFrame s).distinct = s.distinct := rfl
@[simp] theorem advanceFrame_keep (s : State) : (advanceFrame s).keep = s.keep := rfl
@[simp] theorem advanceFrame_slotmap (s : State) : (advanceFrame s).slotmap = s.slotmap := rfl
@[simp] theorem advanceFrame_summary (s : State) : (advanceFrame s).summary = s.summary := rfl
@[simp] theorem advanceFrame_packed0 (s : State) : (advanceFrame s).packed0 = s.packed0 := rfl
@[simp] theorem advanceFrame_packed1 (s : State) : (advanceFrame s).packed1 = s.packed1 := rfl
@[simp] theorem advanceFrame_hist0 (s : State) : (advanceFrame s).hist0 = s.hist0 := rfl
@[simp] theorem advanceFrame_hist1 (s : State) : (advanceFrame s).hist1 = s.hist1 := rfl
@[simp] theorem advanceFrame_hist2 (s : State) : (advanceFrame s).hist2 = s.hist2 := rfl
@[simp] theorem advanceFrame_hist3 (s : State) : (advanceFrame s).hist3 = s.hist3 := rfl
@[simp] theorem advanceFrame_pix (s : State) : (advanceFrame s).pix = s.pix := rfl
@[simp] theorem advanceFrame_cur (s : State) : (advanceFrame s).cur = [] := rfl
@[simp] theorem advanceFrame_prev (s : State) : (advanceFrame s).prev = s.cur := rfl
@[simp] theorem advanceFrame_pending (s : State) : (advanceFrame s).pending = s.pending := rfl
@[simp] theorem advanceFrame_rst (s : State) : (advanceFrame s).rst = s.rst := rfl
@[simp] theorem advanceFrame_inputs (s : State) : (advanceFrame s).inputs = s.inputs := rfl
@[simp] theorem advanceFrame_resp (s : State) : (advanceFrame s).resp = s.resp := rfl
@[simp] theorem advanceFrame_draws (s : State) : (advanceFrame s).draws = s.draws := rfl

/-! ### `acceptCommand` -/

@[simp] theorem acceptCommand_ctrl (cmd : Word) (s : State) :
    (acceptCommand cmd s).ctrl = s.ctrl := rfl
@[simp] theorem acceptCommand_bg (cmd : Word) (s : State) : (acceptCommand cmd s).bg = s.bg := rfl
@[simp] theorem acceptCommand_gtab (cmd : Word) (s : State) :
    (acceptCommand cmd s).gtab = s.gtab := rfl
@[simp] theorem acceptCommand_grid (cmd : Word) (s : State) :
    (acceptCommand cmd s).grid = s.grid := rfl
@[simp] theorem acceptCommand_linksel (cmd : Word) (s : State) :
    (acceptCommand cmd s).linksel = s.linksel := rfl
@[simp] theorem acceptCommand_done (cmd : Word) (s : State) :
    (acceptCommand cmd s).done = false := rfl
@[simp] theorem acceptCommand_errcode (cmd : Word) (s : State) :
    (acceptCommand cmd s).errcode = s.errcode := rfl
@[simp] theorem acceptCommand_errBusy (cmd : Word) (s : State) :
    (acceptCommand cmd s).errBusy = s.errBusy := rfl
@[simp] theorem acceptCommand_clash (cmd : Word) (s : State) :
    (acceptCommand cmd s).clash = s.clash := rfl
@[simp] theorem acceptCommand_wasClashed (cmd : Word) (s : State) :
    (acceptCommand cmd s).wasClashed = s.wasClashed := rfl
@[simp] theorem acceptCommand_repaired (cmd : Word) (s : State) :
    (acceptCommand cmd s).repaired = s.repaired := rfl
@[simp] theorem acceptCommand_skipped (cmd : Word) (s : State) :
    (acceptCommand cmd s).skipped = s.skipped := rfl
@[simp] theorem acceptCommand_anomaly (cmd : Word) (s : State) :
    (acceptCommand cmd s).anomaly = s.anomaly := rfl
@[simp] theorem acceptCommand_prevValid (cmd : Word) (s : State) :
    (acceptCommand cmd s).prevValid = s.prevValid := rfl
@[simp] theorem acceptCommand_stage (cmd : Word) (s : State) :
    (acceptCommand cmd s).stage = s.stage := rfl
@[simp] theorem acceptCommand_pixvalid (cmd : Word) (s : State) :
    (acceptCommand cmd s).pixvalid = s.pixvalid := rfl
@[simp] theorem acceptCommand_distinct (cmd : Word) (s : State) :
    (acceptCommand cmd s).distinct = s.distinct := rfl
@[simp] theorem acceptCommand_keep (cmd : Word) (s : State) :
    (acceptCommand cmd s).keep = s.keep := rfl
@[simp] theorem acceptCommand_slotmap (cmd : Word) (s : State) :
    (acceptCommand cmd s).slotmap = s.slotmap := rfl
@[simp] theorem acceptCommand_summary (cmd : Word) (s : State) :
    (acceptCommand cmd s).summary = s.summary := rfl
@[simp] theorem acceptCommand_packed0 (cmd : Word) (s : State) :
    (acceptCommand cmd s).packed0 = s.packed0 := rfl
@[simp] theorem acceptCommand_packed1 (cmd : Word) (s : State) :
    (acceptCommand cmd s).packed1 = s.packed1 := rfl
@[simp] theorem acceptCommand_hist0 (cmd : Word) (s : State) :
    (acceptCommand cmd s).hist0 = s.hist0 := rfl
@[simp] theorem acceptCommand_hist1 (cmd : Word) (s : State) :
    (acceptCommand cmd s).hist1 = s.hist1 := rfl
@[simp] theorem acceptCommand_hist2 (cmd : Word) (s : State) :
    (acceptCommand cmd s).hist2 = s.hist2 := rfl
@[simp] theorem acceptCommand_hist3 (cmd : Word) (s : State) :
    (acceptCommand cmd s).hist3 = s.hist3 := rfl
@[simp] theorem acceptCommand_pix (cmd : Word) (s : State) :
    (acceptCommand cmd s).pix = s.pix := rfl
@[simp] theorem acceptCommand_cur (cmd : Word) (s : State) :
    (acceptCommand cmd s).cur = s.cur := rfl
@[simp] theorem acceptCommand_prev (cmd : Word) (s : State) :
    (acceptCommand cmd s).prev = s.prev := rfl
@[simp] theorem acceptCommand_pending (cmd : Word) (s : State) :
    (acceptCommand cmd s).pending = some cmd := rfl
@[simp] theorem acceptCommand_rst (cmd : Word) (s : State) :
    (acceptCommand cmd s).rst = s.rst := rfl
@[simp] theorem acceptCommand_inputs (cmd : Word) (s : State) :
    (acceptCommand cmd s).inputs = s.inputs := rfl
@[simp] theorem acceptCommand_resp (cmd : Word) (s : State) :
    (acceptCommand cmd s).resp = s.resp := rfl
@[simp] theorem acceptCommand_draws (cmd : Word) (s : State) :
    (acceptCommand cmd s).draws = s.draws := rfl

/-! ### `dropWrite` -/

@[simp] theorem dropWrite_ctrl (s : State) : (dropWrite s).ctrl = s.ctrl := rfl
@[simp] theorem dropWrite_bg (s : State) : (dropWrite s).bg = s.bg := rfl
@[simp] theorem dropWrite_gtab (s : State) : (dropWrite s).gtab = s.gtab := rfl
@[simp] theorem dropWrite_grid (s : State) : (dropWrite s).grid = s.grid := rfl
@[simp] theorem dropWrite_linksel (s : State) : (dropWrite s).linksel = s.linksel := rfl
@[simp] theorem dropWrite_done (s : State) : (dropWrite s).done = s.done := rfl
@[simp] theorem dropWrite_errcode (s : State) : (dropWrite s).errcode = s.errcode := rfl
@[simp] theorem dropWrite_errBusy (s : State) : (dropWrite s).errBusy = true := rfl
@[simp] theorem dropWrite_clash (s : State) : (dropWrite s).clash = s.clash := rfl
@[simp] theorem dropWrite_wasClashed (s : State) : (dropWrite s).wasClashed = s.wasClashed := rfl
@[simp] theorem dropWrite_repaired (s : State) : (dropWrite s).repaired = s.repaired := rfl
@[simp] theorem dropWrite_skipped (s : State) : (dropWrite s).skipped = s.skipped := rfl
@[simp] theorem dropWrite_anomaly (s : State) : (dropWrite s).anomaly = s.anomaly := rfl
@[simp] theorem dropWrite_prevValid (s : State) : (dropWrite s).prevValid = s.prevValid := rfl
@[simp] theorem dropWrite_stage (s : State) : (dropWrite s).stage = s.stage := rfl
@[simp] theorem dropWrite_pixvalid (s : State) : (dropWrite s).pixvalid = s.pixvalid := rfl
@[simp] theorem dropWrite_distinct (s : State) : (dropWrite s).distinct = s.distinct := rfl
@[simp] theorem dropWrite_keep (s : State) : (dropWrite s).keep = s.keep := rfl
@[simp] theorem dropWrite_slotmap (s : State) : (dropWrite s).slotmap = s.slotmap := rfl
@[simp] theorem dropWrite_summary (s : State) : (dropWrite s).summary = s.summary := rfl
@[simp] theorem dropWrite_packed0 (s : State) : (dropWrite s).packed0 = s.packed0 := rfl
@[simp] theorem dropWrite_packed1 (s : State) : (dropWrite s).packed1 = s.packed1 := rfl
@[simp] theorem dropWrite_hist0 (s : State) : (dropWrite s).hist0 = s.hist0 := rfl
@[simp] theorem dropWrite_hist1 (s : State) : (dropWrite s).hist1 = s.hist1 := rfl
@[simp] theorem dropWrite_hist2 (s : State) : (dropWrite s).hist2 = s.hist2 := rfl
@[simp] theorem dropWrite_hist3 (s : State) : (dropWrite s).hist3 = s.hist3 := rfl
@[simp] theorem dropWrite_pix (s : State) : (dropWrite s).pix = s.pix := rfl
@[simp] theorem dropWrite_cur (s : State) : (dropWrite s).cur = s.cur := rfl
@[simp] theorem dropWrite_prev (s : State) : (dropWrite s).prev = s.prev := rfl
@[simp] theorem dropWrite_pending (s : State) : (dropWrite s).pending = s.pending := rfl
@[simp] theorem dropWrite_rst (s : State) : (dropWrite s).rst = s.rst := rfl
@[simp] theorem dropWrite_inputs (s : State) : (dropWrite s).inputs = s.inputs := rfl
@[simp] theorem dropWrite_resp (s : State) : (dropWrite s).resp = s.resp := rfl
@[simp] theorem dropWrite_draws (s : State) : (dropWrite s).draws = s.draws := rfl

/-! ### `answer` -/

@[simp] theorem answer_ctrl (a : BusAnswer) (s : State) : (answer a s).ctrl = s.ctrl := rfl
@[simp] theorem answer_bg (a : BusAnswer) (s : State) : (answer a s).bg = s.bg := rfl
@[simp] theorem answer_gtab (a : BusAnswer) (s : State) : (answer a s).gtab = s.gtab := rfl
@[simp] theorem answer_grid (a : BusAnswer) (s : State) : (answer a s).grid = s.grid := rfl
@[simp] theorem answer_linksel (a : BusAnswer) (s : State) : (answer a s).linksel = s.linksel := rfl
@[simp] theorem answer_done (a : BusAnswer) (s : State) : (answer a s).done = s.done := rfl
@[simp] theorem answer_errcode (a : BusAnswer) (s : State) : (answer a s).errcode = s.errcode := rfl
@[simp] theorem answer_errBusy (a : BusAnswer) (s : State) : (answer a s).errBusy = s.errBusy := rfl
@[simp] theorem answer_clash (a : BusAnswer) (s : State) : (answer a s).clash = s.clash := rfl
@[simp] theorem answer_wasClashed (a : BusAnswer) (s : State) :
    (answer a s).wasClashed = s.wasClashed := rfl
@[simp] theorem answer_repaired (a : BusAnswer) (s : State) :
    (answer a s).repaired = s.repaired := rfl
@[simp] theorem answer_skipped (a : BusAnswer) (s : State) : (answer a s).skipped = s.skipped := rfl
@[simp] theorem answer_anomaly (a : BusAnswer) (s : State) : (answer a s).anomaly = s.anomaly := rfl
@[simp] theorem answer_prevValid (a : BusAnswer) (s : State) :
    (answer a s).prevValid = s.prevValid := rfl
@[simp] theorem answer_stage (a : BusAnswer) (s : State) : (answer a s).stage = s.stage := rfl
@[simp] theorem answer_pixvalid (a : BusAnswer) (s : State) :
    (answer a s).pixvalid = s.pixvalid := rfl
@[simp] theorem answer_distinct (a : BusAnswer) (s : State) :
    (answer a s).distinct = s.distinct := rfl
@[simp] theorem answer_keep (a : BusAnswer) (s : State) : (answer a s).keep = s.keep := rfl
@[simp] theorem answer_slotmap (a : BusAnswer) (s : State) : (answer a s).slotmap = s.slotmap := rfl
@[simp] theorem answer_summary (a : BusAnswer) (s : State) : (answer a s).summary = s.summary := rfl
@[simp] theorem answer_packed0 (a : BusAnswer) (s : State) : (answer a s).packed0 = s.packed0 := rfl
@[simp] theorem answer_packed1 (a : BusAnswer) (s : State) : (answer a s).packed1 = s.packed1 := rfl
@[simp] theorem answer_hist0 (a : BusAnswer) (s : State) : (answer a s).hist0 = s.hist0 := rfl
@[simp] theorem answer_hist1 (a : BusAnswer) (s : State) : (answer a s).hist1 = s.hist1 := rfl
@[simp] theorem answer_hist2 (a : BusAnswer) (s : State) : (answer a s).hist2 = s.hist2 := rfl
@[simp] theorem answer_hist3 (a : BusAnswer) (s : State) : (answer a s).hist3 = s.hist3 := rfl
@[simp] theorem answer_pix (a : BusAnswer) (s : State) : (answer a s).pix = s.pix := rfl
@[simp] theorem answer_cur (a : BusAnswer) (s : State) : (answer a s).cur = s.cur := rfl
@[simp] theorem answer_prev (a : BusAnswer) (s : State) : (answer a s).prev = s.prev := rfl
@[simp] theorem answer_pending (a : BusAnswer) (s : State) : (answer a s).pending = s.pending := rfl
@[simp] theorem answer_rst (a : BusAnswer) (s : State) : (answer a s).rst = s.rst := rfl
@[simp] theorem answer_inputs (a : BusAnswer) (s : State) : (answer a s).inputs = s.inputs := rfl
@[simp] theorem answer_resp (a : BusAnswer) (s : State) : (answer a s).resp = some a := rfl
@[simp] theorem answer_draws (a : BusAnswer) (s : State) : (answer a s).draws = s.draws := rfl

/-! ### `answerRead` -/

@[simp] theorem answerRead_ctrl (a : BusAnswer) (s : State) : (answerRead a s).ctrl = s.ctrl := rfl
@[simp] theorem answerRead_bg (a : BusAnswer) (s : State) : (answerRead a s).bg = s.bg := rfl
@[simp] theorem answerRead_gtab (a : BusAnswer) (s : State) : (answerRead a s).gtab = s.gtab := rfl
@[simp] theorem answerRead_grid (a : BusAnswer) (s : State) : (answerRead a s).grid = s.grid := rfl
@[simp] theorem answerRead_linksel (a : BusAnswer) (s : State) :
    (answerRead a s).linksel = s.linksel := rfl
@[simp] theorem answerRead_done (a : BusAnswer) (s : State) : (answerRead a s).done = s.done := rfl
@[simp] theorem answerRead_errcode (a : BusAnswer) (s : State) :
    (answerRead a s).errcode = s.errcode := rfl
@[simp] theorem answerRead_errBusy (a : BusAnswer) (s : State) :
    (answerRead a s).errBusy = s.errBusy := rfl
@[simp] theorem answerRead_clash (a : BusAnswer) (s : State) :
    (answerRead a s).clash = s.clash := rfl
@[simp] theorem answerRead_wasClashed (a : BusAnswer) (s : State) :
    (answerRead a s).wasClashed = s.wasClashed := rfl
@[simp] theorem answerRead_repaired (a : BusAnswer) (s : State) :
    (answerRead a s).repaired = s.repaired := rfl
@[simp] theorem answerRead_skipped (a : BusAnswer) (s : State) :
    (answerRead a s).skipped = s.skipped := rfl
@[simp] theorem answerRead_anomaly (a : BusAnswer) (s : State) :
    (answerRead a s).anomaly = s.anomaly := rfl
@[simp] theorem answerRead_prevValid (a : BusAnswer) (s : State) :
    (answerRead a s).prevValid = s.prevValid := rfl
@[simp] theorem answerRead_stage (a : BusAnswer) (s : State) :
    (answerRead a s).stage = s.stage := rfl
@[simp] theorem answerRead_pixvalid (a : BusAnswer) (s : State) :
    (answerRead a s).pixvalid = s.pixvalid := rfl
@[simp] theorem answerRead_distinct (a : BusAnswer) (s : State) :
    (answerRead a s).distinct = s.distinct := rfl
@[simp] theorem answerRead_keep (a : BusAnswer) (s : State) : (answerRead a s).keep = s.keep := rfl
@[simp] theorem answerRead_slotmap (a : BusAnswer) (s : State) :
    (answerRead a s).slotmap = s.slotmap := rfl
@[simp] theorem answerRead_summary (a : BusAnswer) (s : State) :
    (answerRead a s).summary = s.summary := rfl
@[simp] theorem answerRead_packed0 (a : BusAnswer) (s : State) :
    (answerRead a s).packed0 = s.packed0 := rfl
@[simp] theorem answerRead_packed1 (a : BusAnswer) (s : State) :
    (answerRead a s).packed1 = s.packed1 := rfl
@[simp] theorem answerRead_hist0 (a : BusAnswer) (s : State) :
    (answerRead a s).hist0 = s.hist0 := rfl
@[simp] theorem answerRead_hist1 (a : BusAnswer) (s : State) :
    (answerRead a s).hist1 = s.hist1 := rfl
@[simp] theorem answerRead_hist2 (a : BusAnswer) (s : State) :
    (answerRead a s).hist2 = s.hist2 := rfl
@[simp] theorem answerRead_hist3 (a : BusAnswer) (s : State) :
    (answerRead a s).hist3 = s.hist3 := rfl
@[simp] theorem answerRead_pix (a : BusAnswer) (s : State) : (answerRead a s).pix = s.pix := rfl
@[simp] theorem answerRead_cur (a : BusAnswer) (s : State) : (answerRead a s).cur = s.cur := rfl
@[simp] theorem answerRead_prev (a : BusAnswer) (s : State) : (answerRead a s).prev = s.prev := rfl
@[simp] theorem answerRead_pending (a : BusAnswer) (s : State) :
    (answerRead a s).pending = s.pending := rfl
@[simp] theorem answerRead_rst (a : BusAnswer) (s : State) : (answerRead a s).rst = s.rst := rfl
@[simp] theorem answerRead_inputs (a : BusAnswer) (s : State) :
    (answerRead a s).inputs = s.inputs := rfl
@[simp] theorem answerRead_resp (a : BusAnswer) (s : State) : (answerRead a s).resp = some a := rfl
@[simp] theorem answerRead_draws (a : BusAnswer) (s : State) :
    (answerRead a s).draws = s.draws + 1 := rfl

/-! ### `resetBlock` -/

@[simp] theorem resetBlock_ctrl (s : State) : (resetBlock s).ctrl = State.reset.ctrl := rfl
@[simp] theorem resetBlock_bg (s : State) : (resetBlock s).bg = State.reset.bg := rfl
@[simp] theorem resetBlock_gtab (s : State) : (resetBlock s).gtab = State.reset.gtab := rfl
@[simp] theorem resetBlock_grid (s : State) : (resetBlock s).grid = State.reset.grid := rfl
@[simp] theorem resetBlock_linksel (s : State) : (resetBlock s).linksel = State.reset.linksel := rfl
@[simp] theorem resetBlock_done (s : State) : (resetBlock s).done = State.reset.done := rfl
@[simp] theorem resetBlock_errcode (s : State) : (resetBlock s).errcode = State.reset.errcode := rfl
@[simp] theorem resetBlock_errBusy (s : State) : (resetBlock s).errBusy = State.reset.errBusy := rfl
@[simp] theorem resetBlock_clash (s : State) : (resetBlock s).clash = State.reset.clash := rfl
@[simp] theorem resetBlock_wasClashed (s : State) :
    (resetBlock s).wasClashed = State.reset.wasClashed := rfl
@[simp] theorem resetBlock_repaired (s : State) :
    (resetBlock s).repaired = State.reset.repaired := rfl
@[simp] theorem resetBlock_skipped (s : State) : (resetBlock s).skipped = State.reset.skipped := rfl
@[simp] theorem resetBlock_anomaly (s : State) : (resetBlock s).anomaly = State.reset.anomaly := rfl
@[simp] theorem resetBlock_prevValid (s : State) :
    (resetBlock s).prevValid = State.reset.prevValid := rfl
@[simp] theorem resetBlock_stage (s : State) : (resetBlock s).stage = State.reset.stage := rfl
@[simp] theorem resetBlock_pixvalid (s : State) :
    (resetBlock s).pixvalid = State.reset.pixvalid := rfl
@[simp] theorem resetBlock_distinct (s : State) :
    (resetBlock s).distinct = State.reset.distinct := rfl
@[simp] theorem resetBlock_keep (s : State) : (resetBlock s).keep = State.reset.keep := rfl
@[simp] theorem resetBlock_slotmap (s : State) : (resetBlock s).slotmap = State.reset.slotmap := rfl
@[simp] theorem resetBlock_summary (s : State) : (resetBlock s).summary = State.reset.summary := rfl
@[simp] theorem resetBlock_packed0 (s : State) : (resetBlock s).packed0 = State.reset.packed0 := rfl
@[simp] theorem resetBlock_packed1 (s : State) : (resetBlock s).packed1 = State.reset.packed1 := rfl
@[simp] theorem resetBlock_hist0 (s : State) : (resetBlock s).hist0 = State.reset.hist0 := rfl
@[simp] theorem resetBlock_hist1 (s : State) : (resetBlock s).hist1 = State.reset.hist1 := rfl
@[simp] theorem resetBlock_hist2 (s : State) : (resetBlock s).hist2 = State.reset.hist2 := rfl
@[simp] theorem resetBlock_hist3 (s : State) : (resetBlock s).hist3 = State.reset.hist3 := rfl
@[simp] theorem resetBlock_pix (s : State) : (resetBlock s).pix = State.reset.pix := rfl
@[simp] theorem resetBlock_cur (s : State) : (resetBlock s).cur = State.reset.cur := rfl
@[simp] theorem resetBlock_prev (s : State) : (resetBlock s).prev = State.reset.prev := rfl
@[simp] theorem resetBlock_pending (s : State) : (resetBlock s).pending = State.reset.pending := rfl
@[simp] theorem resetBlock_rst (s : State) : (resetBlock s).rst = s.rst := rfl
@[simp] theorem resetBlock_inputs (s : State) : (resetBlock s).inputs = s.inputs := rfl
@[simp] theorem resetBlock_resp (s : State) : (resetBlock s).resp = s.resp := rfl
@[simp] theorem resetBlock_draws (s : State) : (resetBlock s).draws = s.draws := rfl

end Sys2Proof.Machine
end

