-- ==== Sys2Proof/Laws/Commands.lean ====
section
/-!
SUPPORT. What each command can do, said once: the clash test, the counts, the paths of PROCESS and
the fields it leaves (41_clash_detect.md R124, 44_frame_link.md R194 to R196).
-/

namespace Sys2Proof.Machine

/-! ### The clash test and the counts -/

/-- The clash test of the machine is the one of R124 on the set of colors. -/
theorem clashTest_iff {m : Mode} {bgen : Bool} {bgcol : Color} {pix : PixelRows} :
    clashTest m bgen bgcol (colorsPresent m pix) = true ↔ Clashes m bgen bgcol pix := by
  simp [clashTest, Clashes, colorsPresent_length, mem_colorsPresent, and_assoc]

theorem blockClashes_iff {s : State} : blockClashes s = true ↔ StateClashes s := clashTest_iff

theorem blockClashes_eq_false {s : State} : blockClashes s = false ↔ ¬ StateClashes s := by
  rw [← blockClashes_iff, Bool.not_eq_true]

theorem presentSet_card_pos (m : Mode) (pix : PixelRows) : 0 < (presentSet m pix).card :=
  Finset.card_pos.2 (presentSet_nonempty m pix)

theorem presentSet_card_le (m : Mode) (pix : PixelRows) : (presentSet m pix).card ≤ 16 := by
  have := Finset.card_le_univ (presentSet m pix)
  rwa [show Fintype.card Color = 16 from by decide] at this

/-- HIST and DISTINCT after `writeCounts` (R30, R38). -/
theorem writeCounts_reports (d : Nat) (hd : d < 32) (m : Mode) (pix : PixelRows) (s : State) :
    ReportsCounts d m pix (writeCounts d m pix s) := by
  have hle := presentSet_card_le m pix
  refine ⟨?_, ?_, ?_, ?_⟩
  · intro k j
    have hlane : ∀ j : Fin 4, byteLane (histWord m pix k.val) j.val =
        BitVec.ofNat 8 (colorCount m pix (BitVec.ofNat 4 (4 * k.val + j.val))) := by
      intro j
      have := byteLane_append
        (BitVec.ofNat 8 (colorCount m pix (BitVec.ofNat 4 (4 * k.val + 3))))
        (BitVec.ofNat 8 (colorCount m pix (BitVec.ofNat 4 (4 * k.val + 2))))
        (BitVec.ofNat 8 (colorCount m pix (BitVec.ofNat 4 (4 * k.val + 1))))
        (BitVec.ofNat 8 (colorCount m pix (BitVec.ofNat 4 (4 * k.val + 0))))
      match j with
      | 0 => exact this.1
      | 1 => exact this.2.1
      | 2 => exact this.2.2.1
      | 3 => exact this.2.2.2
    have hk : histReg (writeCounts d m pix s) k = histWord m pix k.val := by
      match k with
      | 0 => rfl
      | 1 => rfl
      | 2 => rfl
      | 3 => rfl
    rw [hk, hlane, BitVec.toNat_ofNat, ← colorCount_eq_pixelTotal]
    have := colorCount_le m pix (BitVec.ofNat 4 (4 * k.val + j.val))
    omega
  all_goals
    rw [writeCounts_distinct, colorsPresent_length]
    generalize (presentSet m pix).card = n at hle ⊢
    interval_cases n <;> interval_cases d <;> rfl

/-- `ReportsCounts` reads only HIST and DISTINCT. -/
theorem reportsCounts_of_same {d : Nat} {m : Mode} {pix : PixelRows} {s t : State}
    (h : ReportsCounts d m pix s) (hs : SameCounts s t) : ReportsCounts d m pix t := by
  obtain ⟨h0, h1, h2, h3, hd⟩ := hs
  have hk : ∀ k, histReg t k = histReg s k := by
    intro k
    match k with
    | 0 => exact h0
    | 1 => exact h1
    | 2 => exact h2
    | 3 => exact h3
  simpa only [ReportsCounts, hk, hd] using h

/-! ### REPAIR -/

/-- R176: a repaired block passes the clash test. -/
theorem repairBlock_passes (subst : Color → List Color) (m : Mode) (bgen : Bool) (bgcol : Color)
    (pix : PixelRows) : ¬ Clashes m bgen bgcol (repairBlock subst m bgen bgcol pix).pix := by
  classical
  set kept := keptSet m bgen bgcol (rankColors m pix) with hkept
  set after := presentSet m (repairBlock subst m bgen bgcol pix).pix with hafter
  have hsub : after ⊆ kept.toFinset := by
    intro c hc
    rw [List.mem_toFinset, mem_keptSet]
    exact repairBlock_kept subst m bgen bgcol pix hc
  have hlen : kept.toFinset.card ≤ maxSlots m :=
    le_trans (List.toFinset_card_le _) (keptSet_length_le _ _ _ _)
  have hcard := Finset.card_le_card hsub
  rintro (h | ⟨hb, he, hn⟩)
  · rw [← hafter] at h
    omega
  · rw [← hafter] at he hn
    have heq : after = kept.toFinset := Finset.eq_of_subset_of_card_le hsub (by omega)
    apply hn
    rw [heq, List.mem_toFinset, mem_keptSet]
    by_cases ha : AmongFirst m pix (maxSlots m) bgcol
    · exact .inr ⟨fun h => h.2 ha, ha⟩
    · exact .inl ⟨hb, ha, .inr rfl⟩

/-! ### PROCESS -/

/-- PROCESS raises no error exactly where R191 and R233 to R235 allow it to run. -/
theorem processError_eq_none {s : State} {bx by_ : Nat} :
    processError Config.params s bx by_ = none ↔ ProcessAllowed s bx by_ := by
  have hi : indexOk Config.params s bx by_ = true ↔ bx < gridCols s ∧ by_ < gridRows s ∧
      gridCols s * gridRows s ≤ Config.linkEntries := by
    rw [indexOk, Bool.and_eq_true, Bool.and_eq_true, decide_eq_true_eq, decide_eq_true_eq,
      decide_eq_true_eq, and_assoc]
    rfl
  unfold processError ProcessAllowed
  rw [← hi]
  by_cases h1 : ctrlMode s = .fourColor <;> by_cases h2 : s.pixvalid = 0xFF <;>
    cases h3 : bgEn s <;> cases h4 : indexOk Config.params s bx by_ <;>
    simp [h1, h2] <;> split <;> simp

/-- Where R191 and R233 to R235 allow it, PROCESS completes with what R194 computes. -/
theorem exec_process_allowed {s : State} {bx by_ : Nat} (h : ProcessAllowed s bx by_) :
    exec (.process bx by_) s =
      .next (completeWith .ok (processUpdate Config.params bx by_ s)) := by
  simp only [exec, execProcess, processCommand, processError_eq_none.2 h]

/-- What `Processed` says. -/
theorem processed_iff {s t : State} {bx by_ : Nat} :
    Processed s bx by_ t ↔
      ProcessAllowed s bx by_ ∧ t = completeWith .ok (processUpdate Config.params bx by_ s) := by
  unfold Processed
  constructor
  · rintro ⟨h, he⟩
    rw [exec_process_allowed h] at he
    exact ⟨h, (Host.Outcome.next.inj he).symm⟩
  · rintro ⟨h, rfl⟩
    exact ⟨h, exec_process_allowed h⟩

/-- PROCESS ends in an error that changes nothing else, or in what R194 computes. -/
theorem processCommand_cases (p : Params) (bx by_ : Nat) (s : State) :
    (∃ code, code ≠ .ok ∧ processError p s bx by_ = some code ∧
      processCommand p bx by_ s = completeWith code s) ∨
    (processError p s bx by_ = none ∧
      processCommand p bx by_ s = completeWith .ok (processUpdate p bx by_ s)) := by
  unfold processCommand
  cases h : processError p s bx by_ with
  | none => exact .inr ⟨rfl, rfl⟩
  | some code =>
    refine .inl ⟨code, ?_, rfl, rfl⟩
    rintro rfl
    unfold processError at h
    repeat' split at h
    all_goals cases h

/-- The five paths of PROCESS (R196). -/
inductive AnalysisPath (p : Params) (s : State) (prev : LinkRecord) (a : BlockAnalysis) : Prop
  /-- The unrepaired clash. -/
  | unrepaired (hk : blockClashes s = true) (hr : repairEn s = false)
      (ha : a = ⟨true, true, false, false, false, [], [], [], s.pix⟩)
  /-- Clean or repaired, and skipped. -/
  | skipped (hp : previousClashed prev = true) (hr : blockClashes s = true → repairEn s = true)
      (h1 : a.wasClashed = blockClashes s) (h2 : a.finalClash = false)
      (h3 : a.repaired = blockClashes s) (h4 : a.skipped = true) (h5 : a.anomaly = false)
      (h6 : a.map = [])
  /-- Clean or repaired, and assigned. -/
  | assigned (hp : previousClashed prev = false) (hr : blockClashes s = true → repairEn s = true)
      (h1 : a.wasClashed = blockClashes s) (h2 : a.finalClash = false)
      (h3 : a.repaired = blockClashes s) (h4 : a.skipped = false)
      (h5 : a.anomaly = (assignSlots (ctrlMode s) (bgEn s) (bgCol s) (gtabEn s) s.gtab prev
        (colorsPresent (ctrlMode s) a.pix)).anomaly)
      (h6 : a.map = (assignSlots (ctrlMode s) (bgEn s) (bgCol s) (gtabEn s) s.gtab prev
        (colorsPresent (ctrlMode s) a.pix)).map)

/-- The analysis takes one of its paths. -/
theorem analyzeBlock_path (p : Params) (s : State) (prev : LinkRecord) :
    AnalysisPath p s prev (analyzeBlock p s prev) := by
  unfold analyzeBlock
  split
  · next hk =>
    split
    · next hr =>
      unfold finishAnalysis
      split
      · next hp =>
        exact .skipped hp (fun _ => hr) hk.symm rfl hk.symm rfl rfl rfl
      · next hp =>
        exact .assigned (by simpa using hp) (fun _ => hr) hk.symm rfl hk.symm rfl rfl rfl
    · next hr => exact .unrepaired hk (by simpa using hr) rfl
  · next hk =>
    have hk : blockClashes s = false := by simpa using hk
    unfold finishAnalysis
    split
    · next hp =>
      exact .skipped hp (by simp [hk]) hk.symm rfl hk.symm rfl rfl rfl
    · next hp =>
      exact .assigned (by simpa using hp) (by simp [hk]) hk.symm rfl hk.symm rfl rfl rfl

/-- The pixels, and the colors for KEEP, that the analysis leaves: those of `Repair()` where it ran,
else the block as it was (R174, R194). -/
theorem analyzeBlock_repair (p : Params) (s : State) (prev : LinkRecord) :
    (blockClashes s = true ∧ repairEn s = true ∧
      (analyzeBlock p s prev).pix = (repairState p s).pix ∧
      (analyzeBlock p s prev).kept = (repairState p s).kept ∧
      (analyzeBlock p s prev).excluded = (repairState p s).excluded) ∨
    ((blockClashes s = false ∨ repairEn s = false) ∧ (analyzeBlock p s prev).pix = s.pix ∧
      (analyzeBlock p s prev).kept = [] ∧ (analyzeBlock p s prev).excluded = []) := by
  unfold analyzeBlock finishAnalysis
  cases h1 : blockClashes s <;> cases h2 : repairEn s <;> cases h3 : previousClashed prev <;> simp

/-- A block that is not left clashed passes the clash test (R176, R194). -/
theorem analyzeBlock_passes {p : Params} {s : State} {prev : LinkRecord}
    (h : (analyzeBlock p s prev).finalClash = false) :
    clashTest (ctrlMode s) (bgEn s) (bgCol s)
      (colorsPresent (ctrlMode s) (analyzeBlock p s prev).pix) = false := by
  rcases analyzeBlock_repair p s prev with ⟨hk, hr, hpix, -⟩ | ⟨hk, hpix, -⟩
  · rw [hpix, ← Bool.not_eq_true, clashTest_iff]
    exact repairBlock_passes _ _ _ _ _
  · rw [hpix]
    by_contra hc
    rw [Bool.not_eq_false] at hc
    have hb : blockClashes s = true := hc
    rcases hk with hk | hk
    · rw [hb] at hk
      cases hk
    · simp [analyzeBlock, hb, hk] at h

section
variable (s : State) (idx : Nat) (prev : LinkRecord) (a : BlockAnalysis)

@[simp] theorem encodeBlock_clash : (encodeBlock s idx prev a).clash = a.finalClash := rfl
@[simp] theorem encodeBlock_wasClashed : (encodeBlock s idx prev a).wasClashed = a.wasClashed := rfl
@[simp] theorem encodeBlock_repaired : (encodeBlock s idx prev a).repaired = a.repaired := rfl
@[simp] theorem encodeBlock_skipped : (encodeBlock s idx prev a).skipped = a.skipped := rfl
@[simp] theorem encodeBlock_anomaly : (encodeBlock s idx prev a).anomaly = a.anomaly := rfl
@[simp] theorem encodeBlock_prevValid : (encodeBlock s idx prev a).prevValid = prev.valid := rfl
@[simp] theorem encodeBlock_stage : (encodeBlock s idx prev a).stage = .binaryEncoded := rfl
@[simp] theorem encodeBlock_pix : (encodeBlock s idx prev a).pix = a.pix := rfl
@[simp] theorem encodeBlock_keep :
    (encodeBlock s idx prev a).keep = keepWord a.kept a.excluded := rfl
@[simp] theorem encodeBlock_slotmap : (encodeBlock s idx prev a).slotmap = inverseMap a.map := rfl
@[simp] theorem encodeBlock_summary :
    (encodeBlock s idx prev a).summary = summaryWord (ctrlMode s) (inverseMap a.map) := rfl
@[simp] theorem encodeBlock_cur :
    (encodeBlock s idx prev a).cur = linkWrite s.cur idx (commitRecord (ctrlMode s) a) := rfl
@[simp] theorem encodeBlock_prev : (encodeBlock s idx prev a).prev = s.prev := rfl
@[simp] theorem encodeBlock_pixvalid : (encodeBlock s idx prev a).pixvalid = s.pixvalid := rfl
@[simp] theorem encodeBlock_errBusy : (encodeBlock s idx prev a).errBusy = s.errBusy := rfl
@[simp] theorem encodeBlock_distinct : (encodeBlock s idx prev a).distinct =
    distinctWord (distinctCount s) (colorsPresent (ctrlMode s) a.pix).length := rfl
@[simp] theorem encodeBlock_ctrl : (encodeBlock s idx prev a).ctrl = s.ctrl := rfl
@[simp] theorem encodeBlock_bg : (encodeBlock s idx prev a).bg = s.bg := rfl
@[simp] theorem encodeBlock_gtab : (encodeBlock s idx prev a).gtab = s.gtab := rfl
@[simp] theorem encodeBlock_grid : (encodeBlock s idx prev a).grid = s.grid := rfl
@[simp] theorem encodeBlock_linksel : (encodeBlock s idx prev a).linksel = s.linksel := rfl

end

/-- The packed byte of a row after PROCESS is the packed row (R37, R152). -/
theorem packedByte_encodeBlock (s : State) (idx : Nat) (prev : LinkRecord) (a : BlockAnalysis)
    (y : Fin 8) :
    packedByte (encodeBlock s idx prev a) y.val =
      packRow (ctrlMode s) a.map (fillSlot (fillSel s) (bgEn s) (bgCol s) a.map) a.pix[y] := by
  have h0 := byteLane_append
    (packRow (ctrlMode s) a.map (fillSlot (fillSel s) (bgEn s) (bgCol s) a.map) a.pix[3])
    (packRow (ctrlMode s) a.map (fillSlot (fillSel s) (bgEn s) (bgCol s) a.map) a.pix[2])
    (packRow (ctrlMode s) a.map (fillSlot (fillSel s) (bgEn s) (bgCol s) a.map) a.pix[1])
    (packRow (ctrlMode s) a.map (fillSlot (fillSel s) (bgEn s) (bgCol s) a.map) a.pix[0])
  have h1 := byteLane_append
    (packRow (ctrlMode s) a.map (fillSlot (fillSel s) (bgEn s) (bgCol s) a.map) a.pix[7])
    (packRow (ctrlMode s) a.map (fillSlot (fillSel s) (bgEn s) (bgCol s) a.map) a.pix[6])
    (packRow (ctrlMode s) a.map (fillSlot (fillSel s) (bgEn s) (bgCol s) a.map) a.pix[5])
    (packRow (ctrlMode s) a.map (fillSlot (fillSel s) (bgEn s) (bgCol s) a.map) a.pix[4])
  match y with
  | 0 => exact h0.1
  | 1 => exact h0.2.1
  | 2 => exact h0.2.2.1
  | 3 => exact h0.2.2.2
  | 4 => exact h1.1
  | 5 => exact h1.2.1
  | 6 => exact h1.2.2.1
  | 7 => exact h1.2.2.2

/-- The state PROCESS leaves, with its analysis named (R194). -/
theorem processUpdate_eq (p : Params) (bx by_ : Nat) (s : State) :
    processUpdate p bx by_ s =
      encodeBlock s (blockIndex s bx by_) (previousRecord s bx by_)
        (analyzeBlock p s (previousRecord s bx by_)) := rfl

/-- The record PROCESS has committed (R195). -/
theorem committedRecord_eq {s t : State} {bx by_ : Nat} (h : Processed s bx by_ t) :
    committedRecord s t bx by_ =
      commitRecord (ctrlMode s) (analyzeBlock Config.params s (previousRecord s bx by_)) := by
  obtain ⟨-, rfl⟩ := processed_iff.1 h
  rw [committedRecord, processUpdate_eq, completeWith_cur, encodeBlock_cur,
    linkRead_linkWrite_same]

/-- The assignment of a processed block that reached Assign: the mapper on the colors the block has
after any repair, which pass the clash test (R151, R194). -/
theorem processed_assigned {s t : State} {bx by_ : Nat} (h : Processed s bx by_ t)
    (hr : ReachedAssign t) :
    let a := assignSlots (ctrlMode s) (bgEn s) (bgCol s) (gtabEn s) s.gtab
      (previousRecord s bx by_) (colorsPresent (ctrlMode s) t.pix)
    t.slotmap = inverseMap a.map ∧ t.anomaly = a.anomaly ∧
      previousClashed (previousRecord s bx by_) = false ∧
      clashTest (ctrlMode s) (bgEn s) (bgCol s) (colorsPresent (ctrlMode s) t.pix) = false := by
  obtain ⟨-, rfl⟩ := processed_iff.1 h
  have hpath := analyzeBlock_path Config.params s (previousRecord s bx by_)
  obtain ⟨hc, hs⟩ := hr
  change (analyzeBlock Config.params s (previousRecord s bx by_)).finalClash = false at hc
  change (analyzeBlock Config.params s (previousRecord s bx by_)).skipped = false at hs
  rcases hpath with ⟨-, -, ha⟩ | ⟨-, -, -, -, -, h4, -, -⟩ | ⟨hp, -, -, h2, -, -, h5, h6⟩
  · rw [ha] at hc
    cases hc
  · rw [h4] at hs
    cases hs
  · exact ⟨congrArg inverseMap h6, h5, hp, analyzeBlock_passes h2⟩

/-- The assignment of a processed block that was left clashed or skipped: none (R194). -/
theorem processed_unassigned {s t : State} {bx by_ : Nat} (h : Processed s bx by_ t)
    (hr : ¬ ReachedAssign t) :
    (analyzeBlock Config.params s (previousRecord s bx by_)).map = [] ∧ t.anomaly = false := by
  obtain ⟨-, rfl⟩ := processed_iff.1 h
  rcases analyzeBlock_path Config.params s (previousRecord s bx by_) with
    ⟨-, -, ha⟩ | ⟨-, -, -, -, -, -, h5, h6⟩ | ⟨-, -, -, h2, -, h4, -, -⟩
  · exact ⟨by rw [ha], congrArg BlockAnalysis.anomaly ha⟩
  · exact ⟨h6, h5⟩
  · exact absurd ⟨h2, h4⟩ hr

/-! ### Every command -/

/-- The state a command leaves. -/
def commandResult (i : Instr) (s : State) : State :=
  match i with
  | .nop => completeWith .ok s
  | .detect => if s.pixvalid ≠ 0xFF then completeWith .nopix s else completeWith .ok (detectUpdate s)
  | .repair =>
    if s.pixvalid ≠ 0xFF then completeWith .nopix s
    else completeWith .ok (repairUpdate Config.params s)
  | .process bx by_ => processCommand Config.params bx by_ s
  | .linkrst => completeWith .ok (invalidateBanks s)
  | .framenext => completeWith .ok (advanceFrame s)
  | .sreset => resetBlock s

/-- Every command answers the state it leaves. -/
theorem exec_eq (i : Instr) (s : State) : exec i s = .next (commandResult i s) := by
  cases i <;> simp only [exec, commandResult, execNop, execDetect, execRepair, execProcess,
    execLinkrst, execFramenext, execSreset, raiseCmdError_eq] <;> split <;> rfl

/-- The state the completion of a command word leaves (R109). -/
def completion (cmd : Word) (s : State) : State :=
  match decode cmd with
  | .ok i => commandResult i s
  | .error _ => completeWith .illegal s

theorem completeCommand_eq (cmd : Word) (s : State) :
    completeCommand cmd s = .next (completion cmd s) := by
  unfold completeCommand completion
  cases decode cmd with
  | ok i => exact exec_eq _ _
  | error e => rfl

/-- The state the engine's turn leaves. -/
def afterEngine (s : State) : State :=
  if s.rst then s
  else
    match s.pending with
    | some cmd => completion cmd s
    | none => s

theorem engineTurn_eq (s : State) : engineTurn s = .next (afterEngine s) := by
  unfold engineTurn afterEngine fetchCommand
  cases s.rst <;> cases s.pending <;>
    simp [completeCommand_eq]

/-- The state one event leaves. -/
def afterInput (e : Input) (s : State) : State :=
  match e with
  | .access a => hostAccess Config.params a s
  | .engine => afterEngine s
  | .rst asserted => driveReset asserted s

/-- The state one step leaves. -/
def afterStep (s : State) : State :=
  match s.inputs with
  | [] => afterEngine s
  | e :: rest => afterInput e { s with inputs := rest }

/-- What a step answers, by its event. -/
theorem step_eq (s : State) : step s = .next (afterStep s) := by
  unfold step nextEvent afterStep
  cases s.inputs with
  | nil => exact engineTurn_eq s
  | cons e rest =>
    cases e with
    | access a => rfl
    | engine => exact engineTurn_eq _
    | rst b => rfl

end Sys2Proof.Machine
end

