-- ==== Sys2Proof/Laws/HostAccess.lean ====
section
/-!
SUPPORT. What a bus access can do, said once (40_host_access.md R100 to R108, R110).
-/

namespace Sys2Proof.Machine

/-- A write while a command is pending: STATUS is written, any other register's write is dropped
(R102). -/
theorem writeReg_busy {s : State} (h : busy s = true) (r : Reg) (v : Word) :
    writeReg r v s = if r = .status then writeStatus v s else dropWrite s := by
  unfold writeReg
  by_cases hr : r = .status
  · subst hr
    simp [writeIdle]
  · simp [h, hr]

/-- A write with no command pending (R101). -/
theorem writeReg_idle {s : State} (h : busy s = false) (r : Reg) (v : Word) :
    writeReg r v s = writeIdle r v s := by
  simp [writeReg, h]

/-- The configuration register `CTRL` after a write, and the banks (R104). -/
theorem writeCtrl_cases (v : Word) (s : State) :
    (modeOfCtrl v = ctrlMode s ∧ writeCtrl v s = { s with ctrl := v &&& ctrlMask }) ∨
    (modeOfCtrl v ≠ ctrlMode s ∧
      writeCtrl v s = { s with ctrl := v &&& ctrlMask, cur := [], prev := [] }) := by
  unfold writeCtrl
  split
  · next h => exact .inl ⟨h, rfl⟩
  · next h => exact .inr ⟨h, rfl⟩

/-- The mode bit is not a reserved one. -/
@[simp] theorem modeOfCtrl_mask (v : Word) : modeOfCtrl (v &&& ctrlMask) = modeOfCtrl v := by
  have h : ctrlMask.getLsbD 0 = true := by decide
  simp [modeOfCtrl, h]

/-- A read answers something and uses one free value; nothing else changes (R67, R100). -/
theorem hostRead_cases (p : Params) (width : AccessWidth) (off : BitVec 12) (s : State) :
    (∃ r, accessTarget width off = some r ∧
      hostRead p width off s = answerRead (.data (readReg p s r)) s) ∨
    (accessTarget width off = none ∧
      hostRead p width off s = answerRead (.readError (freeDraw s)) s) := by
  unfold hostRead
  cases accessTarget width off with
  | none => exact .inr ⟨rfl, rfl⟩
  | some r => exact .inl ⟨r, rfl, rfl⟩

/-- A write reaches a register or gets BusError (R101). -/
theorem hostWrite_cases (width : AccessWidth) (off : BitVec 12) (v : Word) (s : State) :
    (∃ r, accessTarget width off = some r ∧
      hostWrite width off v s = answer .written (writeReg r v s)) ∨
    (accessTarget width off = none ∧ hostWrite width off v s = answer .writeError s) := by
  unfold hostWrite
  cases accessTarget width off with
  | none => exact .inr ⟨rfl, rfl⟩
  | some r => exact .inl ⟨r, rfl, rfl⟩

/-- What an access can do while a command is pending, with the reset input released: it answers, and
of the block it changes DONE and ERR_BUSY at most (R102, R107, R110). -/
theorem hostAccess_busy {p : Params} {a : BusAccess} {s : State} (h : busy s = true) :
    ∃ (d b : Bool) (r : Option BusAnswer) (n : Nat),
      hostAccess p a s = { s with done := d, errBusy := b, resp := r, draws := n } := by
  unfold hostAccess
  split
  · exact ⟨_, _, _, _, rfl⟩
  · cases a with
    | read width off =>
      rcases hostRead_cases p width off s with ⟨r, -, he⟩ | ⟨-, he⟩ <;> simp only [he] <;>
        exact ⟨_, _, _, _, rfl⟩
    | write width off v =>
      rcases hostWrite_cases width off v s with ⟨r, -, he⟩ | ⟨-, he⟩ <;> simp only [he]
      · rw [writeReg_busy h]
        split <;> exact ⟨_, _, _, _, rfl⟩
      · exact ⟨_, _, _, _, rfl⟩

end Sys2Proof.Machine
end

