-- ==== Sys2Proof/Laws/PerInstr.lean ====
section
/-!
SUPPORT. The per-instruction family `TableMatch`: the word of a well-formed command has the fixed
bits of its row of spec/opcode_table.json (30_encoding.md R81, R82, R84). One lemma per command.
-/

namespace Sys2Proof.Laws

/-- The bits of the command word that the row of the opcode table fixes. -/
def TableMatch.mask : Instr → Word
  | .nop => 0xFFFFFFFF
  | .detect => 0xFFFFFFFF
  | .repair => 0xFFFFFFFF
  | .process _ _ => 0xFF0000FF
  | .linkrst => 0xFFFFFFFF
  | .framenext => 0xFFFFFFFF
  | .sreset => 0xFFFFFFFF

/-- The values of those bits. -/
def TableMatch.fixed : Instr → Word
  | .nop => 0x00000000
  | .detect => 0x00000001
  | .repair => 0x00000002
  | .process _ _ => 0x00000003
  | .linkrst => 0x00000004
  | .framenext => 0x00000005
  | .sreset => 0x00000006

/-- The word of a well-formed command matches its row of the opcode table. -/
def TableMatch.Statement (i : Instr) : Prop :=
  i.wellFormed = true → encode i &&& TableMatch.mask i = TableMatch.fixed i

theorem TableMatch.nop : TableMatch.Statement .nop := by intro _; decide

theorem TableMatch.detect : TableMatch.Statement .detect := by intro _; decide

theorem TableMatch.repair : TableMatch.Statement .repair := by intro _; decide

theorem TableMatch.process (bx by_ : Nat) : TableMatch.Statement (.process bx by_) := by
  intro h
  simp only [Instr.wellFormed, coordinateOk, Bool.and_eq_true, decide_eq_true_eq] at h
  have hx : bx < 2 ^ 8 := h.1
  have hy : by_ < 2 ^ 8 := h.2
  simp only [encode, opcodeOf, TableMatch.mask, TableMatch.fixed]
  apply BitVec.eq_of_getLsbD_eq
  intro k hk
  simp only [BitVec.getLsbD_and, BitVec.getLsbD_or, BitVec.getLsbD_shiftLeft, BitVec.getLsbD_ofNat]
  have hbx : ∀ j, 8 ≤ j → bx.testBit j = false := fun j hj =>
    Nat.testBit_lt_two_pow (lt_of_lt_of_le hx (Nat.pow_le_pow_right (by decide) hj))
  have hby : ∀ j, 8 ≤ j → by_.testBit j = false := fun j hj =>
    Nat.testBit_lt_two_pow (lt_of_lt_of_le hy (Nat.pow_le_pow_right (by decide) hj))
  by_cases h1 : k < 8
  · have h2 : k < 16 := by omega
    simp only [h1, h2, decide_true, Bool.not_true, Bool.and_false, Bool.false_and, Bool.or_false]
    interval_cases k <;> decide
  · by_cases h2 : 24 ≤ k
    · rw [hbx (k - 8) (by omega), hby (k - 16) (by omega)]
      simp only [Bool.and_false, Bool.or_false]
      interval_cases k <;> decide
    · have h3 : (0xFF0000FF : Word).getLsbD k = false := by
        interval_cases k <;> decide
      have h4 : (0x00000003 : Word).getLsbD k = false := by
        interval_cases k <;> decide
      rw [h3, h4, Bool.and_false]

theorem TableMatch.linkrst : TableMatch.Statement .linkrst := by intro _; decide

theorem TableMatch.framenext : TableMatch.Statement .framenext := by intro _; decide

theorem TableMatch.sreset : TableMatch.Statement .sreset := by intro _; decide

end Sys2Proof.Laws
end

