-- ==== Sys2Proof/Tests/Slice0.lean ====
section
/-!
SUPPORT. The model's own tests: the WellFormed smoke tests, one word per command written out from
the encoding of 30_encoding.md, small steps with the results of 95_test_vectors.md, and for every
statement with hypotheses a concrete state that meets them.
-/

namespace Sys2Proof.Tests

-- One theorem after another: many kernel evaluations waiting at once take a thread each.
set_option Elab.async false

open Sys2Proof Sys2Proof.Machine

/-! ### WellFormed (R11, R82) -/

theorem test_process_255_wellFormed : (Instr.process 255 255).wellFormed = true := by decide

theorem test_process_bx_256_refused : (Instr.process 256 0).wellFormed = false := by decide

theorem test_process_by_256_refused : (Instr.process 0 256).wellFormed = false := by decide

/-! ### Decoding: words written bit by bit (R80 to R84) -/

theorem test_decode_nop : decode 0b00000000_00000000_00000000_00000000 = .ok .nop := by rfl

theorem test_decode_detect : decode 0b00000000_00000000_00000000_00000001 = .ok .detect := by rfl

theorem test_decode_repair : decode 0b00000000_00000000_00000000_00000010 = .ok .repair := by rfl

/-- E-10: PROCESS 39, 24 is 0x00182703, MBZ 31:24, BY 23:16, BX 15:8, OP 7:0. -/
theorem test_decode_process :
    decode 0b00000000_00011000_00100111_00000011 = .ok (.process 39 24) := by rfl

theorem test_decode_linkrst : decode 0b00000000_00000000_00000000_00000100 = .ok .linkrst := by rfl

theorem test_decode_framenext :
    decode 0b00000000_00000000_00000000_00000101 = .ok .framenext := by rfl

theorem test_decode_sreset : decode 0b00000000_00000000_00000000_00000110 = .ok .sreset := by rfl

/-- E-1 and E-3: the first and the last reserved opcode. -/
theorem test_decode_reserved :
    decode 0x00000007 = .error .reservedOpcode ∧ decode 0x000000FF = .error .reservedOpcode :=
  ⟨rfl, rfl⟩

/-- E-2, E-4 and E-5: nonzero MBZ bits. -/
theorem test_decode_mbz :
    decode 0x00000100 = .error .nonzeroMbz ∧ decode 0x01000003 = .error .nonzeroMbz ∧
      decode 0x00000106 = .error .nonzeroMbz := ⟨rfl, rfl, rfl⟩

/-- R87: the word of PROCESS 3, 2. -/
theorem test_encode_process : encode (.process 3 2) = 0x00020303 := by decide

/-! ### Small states -/

/-- The test substitution table (95_test_vectors.md section 2), with 1024 link records. -/
def testParams : Params :=
  { linkEntries := 1024
    subst := fun c => if c = 5 then [4, 3, 1] else if c = 14 then [6] else [] }

/-- A loaded block: these registers and rows written after reset, GRID one cell. -/
def blockState (ctrl bg gtab : Word) (rows : PixelRows) : State :=
  { State.reset with
    ctrl := ctrl, bg := bg, gtab := gtab, grid := 0x00000101
    pix := rows, pixvalid := 0xFF, stage := .pixelsLoaded }

/-- Eight equal rows. -/
def sameRows (row : Word) : PixelRows := #v[row, row, row, row, row, row, row, row]

/-- The three-color block T3 of section 3.2. -/
def rowsT3 : PixelRows :=
  #v[0xEEE66666, 0xEEE66666, 0xEEE66666, 0xEEE66666, 0xEEE66666, 0x3EE66666, 0x3EE66666,
    0x33E66666]

/-- The state an outcome leaves; reset where it stops. -/
def stateOf (o : Host.Outcome State Fault Refusal) : State :=
  match o with
  | .next t => t
  | .fault _ => State.reset
  | .refused _ => State.reset

/-! ### One step each (the vectors' names are those of 95_test_vectors.md) -/

/-- C-1. -/
theorem test_nop : statusWordIdle (stateOf (exec .nop State.reset)) = 0x00000002 := by
  decide +kernel

/-- D-3. -/
theorem test_detect_clashed :
    statusWordIdle (stateOf (exec .detect (blockState 0 0 0 rowsT3))) = 0xFF030302 ∧
      (stateOf (exec .detect (blockState 0 0 0 rowsT3))).hist3 = 0x00140000 := by decide +kernel

/-- D-9: four colors with the absent background counted would fill the block; three do not. -/
theorem test_detect_clean :
    statusWordIdle (stateOf (exec .detect (blockState 1 0x19 0 (sameRows 0x00002210)))) =
      0xFF020002 := by decide +kernel

/-- R-3: the kept set takes in the absent background, and the two excluded colors go different
ways. -/
theorem test_repair_background :
    (repairUpdate testParams (blockState 0 0x10 0 rowsT3)).keep = 0x40080041 ∧
      (repairUpdate testParams (blockState 0 0x10 0 rowsT3)).pix[7] = 0x00666666 := by
  decide +kernel

/-- R-4: a tie goes to the smaller index, and the candidate 4 that is not kept is passed over. -/
theorem test_repair_tie :
    (repairUpdate testParams (blockState 0 0 0
      #v[0x55333777, 0x55333777, 0x55333777, 0x55333777, 0x55533777, 0x55533777, 0x55533777,
        0x55533777])).keep = 0x00200088 := by decide +kernel

/-- B-1, the source's Scenario B. -/
theorem test_process_scenario_b :
    (processCommand testParams 0 0 (blockState 1 0x10 0 (sameRows 0x00003210))).packed0 =
        0x1B1B1B1B ∧
      (processCommand testParams 0 0 (blockState 1 0x10 0 (sameRows 0x00003210))).summary =
        0x00000312 := by decide +kernel

/-- G-1: the fallback order and the anomaly. -/
theorem test_process_global :
    slotTableWord (processCommand testParams 0 0
        (blockState 9 0x10 0x1615 (sameRows 0x00008750))).slotmap = 0x000F7850 ∧
      statusWordIdle (processCommand testParams 0 0
        (blockState 9 0x10 0x1615 (sameRows 0x00008750))) = 0xFF061002 := by decide +kernel

/-- The CUR record of A-1. -/
def recordA1 : LinkRecord :=
  { valid := true, mode := .twoColor, wasClashed := false, finalClash := false, anomaly := false
    skipped := false, repaired := false
    slots := { s0 := some 0, s1 := some 1, s2 := none, s3 := none } }

/-- A record that a repaired block leaves (P3, frame 0, in 2-color mode). -/
def recordRepaired : LinkRecord := { recordA1 with wasClashed := true, repaired := true }

/-- A record of an unrepaired clash (A-6). -/
def recordFailedA6 : LinkRecord :=
  { LinkRecord.invalid with valid := true, wasClashed := true, finalClash := true }

theorem test_record_words :
    recordWord recordA1 = 0x01030010 ∧ recordWord recordFailedA6 = 0x0D000000 := by decide

/-- R197: both banks, here with one record each. -/
theorem test_linkrst :
    let t := stateOf (exec .linkrst
      { State.reset with cur := [(0, recordA1)], prev := [(3, recordA1)] })
    t.cur = [] ∧ t.prev = [] := by decide +kernel

/-- L-6: CUR moves to PREV. -/
theorem test_framenext :
    let t := stateOf (exec .framenext { State.reset with cur := [(0, recordA1)] })
    recordWord (linkRead t.prev 0) = 0x01030010 ∧ recordWord (linkRead t.cur 0) = 0 := by
  decide +kernel

/-- C-5. -/
theorem test_sreset :
    let t := stateOf (exec .sreset { blockState 0x1F 0 0 rowsT3 with cur := [(0, recordA1)] })
    t.ctrl = 0 ∧ statusWordIdle t = 0 := by decide +kernel

/-- H-8: the write is dropped and reported. -/
theorem test_write_while_busy :
    let s := { State.reset with
      pending := some 0, inputs := [.access (.write .word 0x008 0x00000001)] }
    (stateOf (step s)).ctrl = 0 ∧ (stateOf (step s)).errBusy = true := by decide +kernel

/-- A-1: SLOTMAP, SUMMARY and FRAMECNT as the host reads them. -/
theorem test_idle_reads :
    let t := completeWith .ok (processUpdate testParams 0 0 (blockState 0 0 0 (sameRows 0x10100101)))
    readReg testParams t .slotmap = 0x00030010 ∧ readReg testParams t .summary = 0x00000010 ∧
      readReg testParams t .packed0 = 0xA5A5A5A5 ∧ readReg testParams t .framecnt = 0 := by
  decide +kernel

/-- R87 to R89: the written notation. -/
theorem test_read_command :
    readCommand "process 0x27, 24" = some (.process 39 24) ∧ readCommand "PROCESS 256, 0" = none ∧
      readCommand "Sreset" = some .sreset := by decide +kernel

theorem test_read_line :
    readLine "WR BG, 0x00000010" = some (.wr .bg 0x10) ∧
      readLine "RD SUBST_HI(15) -> v" = some (.rd (.substHi 15) "v") := by decide +kernel

theorem test_row_word : rowWord [1, 0, 1, 0, 0, 1, 0, 1] = 0x10100101 := by decide

/-! ### Concrete states that meet the hypotheses of the statements -/

/-- A clean 2-color block (Scenario A). -/
def cleanState : State := blockState 0 0 0 (sameRows 0x10100101)

/-- A clashed block, REPAIR_EN = 0. -/
def clashState : State := blockState 0 0 0 rowsT3

/-- A clashed block, REPAIR_EN = 1. -/
def repairingState : State := blockState 2 0 0 rowsT3

/-- A clean block whose previous record was clashed and repaired (R193). -/
def skippingState : State := { cleanState with prev := [(0, recordRepaired)] }

/-- A 4-color block with its background (Scenario B). -/
def fourColorState : State := blockState 1 0x10 0 (sameRows 0x00003210)

/-- A one-color block with the declared background 5 absent. -/
def absentState : State := blockState 0 0x15 0 (sameRows 0)

/-- Frame 1 of A-2: color 9 had slot 1 in the previous frame, color 12 none. -/
def reusingState : State :=
  { blockState 0 0 0 (sameRows 0xCCCC9999) with
    prev := [(0, { recordA1 with slots := { s0 := some 2, s1 := some 9, s2 := none, s3 := none } })] }

/-- Frame 1 of A-3: color 0 had slot 0, which the new background 5 has now. -/
def displacedState : State :=
  { blockState 1 0x15 0 (sameRows 0x00005550) with
    prev := [(0, { recordA1 with
      mode := .fourColor, slots := { s0 := some 0, s1 := some 5, s2 := none, s3 := none } })] }

/-- The block of G-1 and that of G-2. -/
def globalState (row : Word) : State := blockState 9 0x10 0x1615 (sameRows row)

/-- What PROCESS 0, 0 leaves. -/
def processed (s : State) : State := completeWith .ok (processUpdate Config.params 0 0 s)

/-- `LINK_ENTRIES` is at least 1 (R10). -/
theorem linkEntries_pos : 1 ≤ Config.linkEntries := Nat.le_add_left _ _

theorem linkEntries_le : Config.linkEntries ≤ 65535 := Config.linkEntriesLessOne.isLt

/-- A loaded block in the one cell of its grid is allowed. -/
theorem allowed_block {s : State} (hm : ctrlMode s = .fourColor → bgEn s = true)
    (hp : s.pixvalid = 0xFF) (hg : s.grid = 0x00000101) : ProcessAllowed s 0 0 := by
  have hc : gridCols s = 1 := by rw [gridCols, hg]; decide
  have hr : gridRows s = 1 := by rw [gridRows, hg]; decide
  exact ⟨hm, hp, by omega, by omega, by rw [hc, hr]; exact linkEntries_pos⟩

theorem processed_block {s : State} (h : ProcessAllowed s 0 0) : Processed s 0 0 (processed s) :=
  processed_iff.2 ⟨h, rfl⟩

theorem clean_allowed : ProcessAllowed cleanState 0 0 := allowed_block (by decide) rfl rfl

theorem clash_allowed : ProcessAllowed clashState 0 0 := allowed_block (by decide) rfl rfl

theorem repairing_allowed : ProcessAllowed repairingState 0 0 := allowed_block (by decide) rfl rfl

theorem skipping_allowed : ProcessAllowed skippingState 0 0 := allowed_block (by decide) rfl rfl

theorem fourColor_allowed : ProcessAllowed fourColorState 0 0 := allowed_block (by decide) rfl rfl

theorem absent_allowed : ProcessAllowed absentState 0 0 := allowed_block (by decide) rfl rfl

theorem reusing_allowed : ProcessAllowed reusingState 0 0 := allowed_block (by decide) rfl rfl

theorem displaced_allowed : ProcessAllowed displacedState 0 0 := allowed_block (by decide) rfl rfl

theorem global_allowed (row : Word) : ProcessAllowed (globalState row) 0 0 :=
  allowed_block (fun _ => (by decide : (0x10 : Word).getLsbD 4 = true)) rfl rfl

theorem clash_clashes : StateClashes clashState := blockClashes_iff.1 (by decide +kernel)

theorem repairing_clashes : StateClashes repairingState := blockClashes_iff.1 (by decide +kernel)

theorem clean_passes : ¬ StateClashes cleanState := blockClashes_eq_false.1 (by decide +kernel)

/-- The color is present in a loaded block. -/
theorem present_of {m : Mode} {pix : PixelRows} {c : Color}
    (h : (colorsPresent m pix).contains c = true) : c ∈ presentSet m pix :=
  mem_colorsPresent.1 (List.contains_iff_mem.1 h)

/-! #### Encoding -/

theorem witness_DecodeOfEncode : (Instr.process 255 0).wellFormed = true := by decide

theorem witness_EncodeOfDecode :
    decode 0x00FFFF03 = .ok (.process 255 255) ∧ decode 0x00000003 = .ok (.process 0 0) := ⟨rfl, rfl⟩

theorem witness_RegistersAtTheirOffsets :
    regAt 0x000 = some .id ∧ regAt 0x0FC = some (.substHi 15) ∧ regAt 0x100 = none := by decide

/-- The first address above the window. -/
theorem witness_WindowAddresses : ∀ off : BitVec 12, Config.bccdBase + 4096 ≠ hostAddress off := by
  intro off h
  have := off.isLt
  unfold hostAddress at h
  omega

/-! #### Steps and commands -/

/-- A word that decodes and one that is illegal, with no event left and with the engine's turn. -/
theorem witness_StepRunsThePendingCommand :
    let s := fun (cmd : Word) (events : List Input) =>
      { State.reset with pending := some cmd, inputs := events }
    (∀ cmd events, (s cmd events).rst = false ∧ (s cmd events).pending = some cmd ∧
      (s cmd events).inputs = events) ∧
      decode 1 = .ok .detect ∧ decode 7 = .error .reservedOpcode :=
  ⟨fun _ _ => ⟨rfl, rfl, rfl⟩, rfl, rfl⟩

theorem witness_FetchWordRunsNext :
    decodeTableWord 32 0x00020303 = some (.process 3 2) ∧ State.reset.inputs = [] ∧
      { State.reset with inputs := [.engine] }.inputs = .engine :: [] ∧
      { State.reset with inputs := [.access (.read .word 0)] }.inputs =
        .access (.read .word 0) :: [] := by decide +kernel

/-- Each cause: ILLEGAL, NOPIX, CFG (before NOPIX), NOPIX of PROCESS, and INDEX for the first column
and the first row outside the grid. -/
theorem witness_CommandErrorsInOrder :
    decode 7 = .error .reservedOpcode ∧ State.reset.pixvalid ≠ 0xFF ∧
      (ctrlMode { State.reset with ctrl := 1 } = .fourColor ∧
        bgEn { State.reset with ctrl := 1 } = false) ∧
      ¬ (ctrlMode State.reset = .fourColor ∧ bgEn State.reset = false) ∧
      ¬ (ctrlMode cleanState = .fourColor ∧ bgEn cleanState = false) ∧
      cleanState.pixvalid = 0xFF ∧ gridCols cleanState ≤ 1 ∧ gridRows cleanState ≤ 1 := by
  decide +kernel

theorem witness_DetectReportsTheBlock :
    clashState.pixvalid = 0xFF ∧ StateClashes clashState ∧ cleanState.pixvalid = 0xFF ∧
      ¬ StateClashes cleanState := ⟨rfl, clash_clashes, rfl, clean_passes⟩

/-- One color, and sixteen colors in 2-color mode. -/
theorem witness_ClashTestOfTheBlock :
    (presentSet .fourColor (sameRows 0x00002222)).card = 1 ∧
      (presentSet .twoColor (#v[0x76543210, 0xFEDCBA98, 0, 0, 0, 0, 0, 0])).card = 16 := by
  rw [← colorsPresent_length, ← colorsPresent_length]
  decide +kernel

theorem witness_RepairReportsTheBlock :
    clashState.pixvalid = 0xFF ∧ StateClashes clashState ∧ cleanState.pixvalid = 0xFF ∧
      ¬ StateClashes cleanState := witness_DetectReportsTheBlock

/-- Color 6 of the block is kept, color 3 is not. -/
theorem witness_RepairRewritesExcludedPixels :
    clashState.pixvalid = 0xFF ∧ StateClashes clashState ∧
      (∃ t, exec .repair clashState = .next t) ∧
      pixelOf clashState.pix[7] 0 = 6 ∧ Kept .twoColor false 0 clashState.pix 6 ∧
      pixelOf clashState.pix[7] 7 = 3 ∧ ¬ Kept .twoColor false 0 clashState.pix 3 := by
  refine ⟨rfl, clash_clashes, ⟨_, exec_eq _ _⟩, by decide, mem_keptSet.1 ?_, by decide,
    fun h => absurd (mem_keptSet.2 h) ?_⟩ <;> decide +kernel

/-- Columns 4 and 7 lie outside the 4-color block. -/
theorem witness_RepairRewritesExcludedPixels_inactive :
    let s := blockState 1 0x10 0 (sameRows 0x00004321)
    s.pixvalid = 0xFF ∧ StateClashes s ∧ (∃ t, exec .repair s = .next t) ∧
      blockWidth (ctrlMode s) ≤ 4 :=
  ⟨rfl, blockClashes_iff.1 (by decide +kernel), ⟨_, exec_eq _ _⟩, by decide⟩

theorem witness_RepairLeavesNoClash :
    clashState.pixvalid = 0xFF ∧ (∃ t, exec .repair clashState = .next t) ∧
      StateClashes clashState := ⟨rfl, ⟨_, exec_eq _ _⟩, clash_clashes⟩

theorem witness_RepairIsIdempotent :
    ¬ Clashes .twoColor false 0 cleanState.pix ∧ clashState.pixvalid = 0xFF ∧
      ∃ t u, exec .repair clashState = .next t ∧ exec .repair t = .next u :=
  ⟨clean_passes, rfl, _, _, exec_eq _ _, exec_eq _ _⟩

/-! #### PROCESS -/

/-- One state for each path: clean, unrepaired clash, repaired, skipped. -/
theorem witness_ProcessCompletesByItsPath :
    (ProcessAllowed cleanState 0 0 ∧ ¬ StateClashes cleanState) ∧
      (ProcessAllowed clashState 0 0 ∧ StateClashes clashState ∧ repairEn clashState = false) ∧
      (ProcessAllowed repairingState 0 0 ∧ StateClashes repairingState ∧
        repairEn repairingState = true) ∧
      (ProcessAllowed skippingState 0 0 ∧ (previousRecord skippingState 0 0).valid = true ∧
        (previousRecord skippingState 0 0).wasClashed = true) :=
  ⟨⟨clean_allowed, clean_passes⟩, ⟨clash_allowed, clash_clashes, by decide⟩,
    ⟨repairing_allowed, repairing_clashes, by decide⟩, skipping_allowed, by decide +kernel,
    by decide +kernel⟩

theorem witness_ProcessCommitsOneRecord :
    Processed cleanState 0 0 (processed cleanState) ∧ (1 : Nat) ≠ blockIndex cleanState 0 0 :=
  ⟨processed_block clean_allowed, by decide⟩

theorem witness_UnrepairedClashFailsTheFrame :
    Processed clashState 0 0 (processed clashState) ∧ StateClashes clashState ∧
      repairEn clashState = false :=
  ⟨processed_block clash_allowed, clash_clashes, by decide⟩

theorem witness_EmptyMapPacksSlotZero :
    (Processed clashState 0 0 (processed clashState) ∧ (processed clashState).clash = true) ∧
      Processed skippingState 0 0 (processed skippingState) ∧
      (processed skippingState).skipped = true :=
  ⟨⟨processed_block clash_allowed, by decide +kernel⟩, processed_block skipping_allowed,
    by decide +kernel⟩

theorem witness_SkipAfterAClashedPredecessor :
    Processed skippingState 0 0 (processed skippingState) ∧
      (previousRecord skippingState 0 0).valid = true ∧
      (previousRecord skippingState 0 0).wasClashed = true ∧
      (StateClashes skippingState → repairEn skippingState = true) :=
  ⟨processed_block skipping_allowed, by decide +kernel, by decide +kernel,
    fun h => absurd h clean_passes⟩

/-- A present color at slot 1, and a background that is absent from the block at slot 0. -/
theorem witness_EveryColorGetsItsOwnSlot :
    (Processed cleanState 0 0 (processed cleanState) ∧ ReachedAssign (processed cleanState) ∧
      (1 : Color) ∈ presentSet (ctrlMode cleanState) (processed cleanState).pix ∧
      slotColor (processed cleanState).slotmap 1 = some 1) ∧
      Processed absentState 0 0 (processed absentState) ∧ ReachedAssign (processed absentState) ∧
      slotColor (processed absentState).slotmap 0 = some 5 :=
  ⟨⟨processed_block clean_allowed, ⟨by decide +kernel, by decide +kernel⟩,
    present_of (by decide +kernel), by decide +kernel⟩, processed_block absent_allowed,
    ⟨by decide +kernel, by decide +kernel⟩, by decide +kernel⟩

theorem witness_BackgroundHasSlotZero :
    Processed fourColorState 0 0 (processed fourColorState) ∧
      ReachedAssign (processed fourColorState) ∧ bgEn fourColorState = true :=
  ⟨processed_block fourColor_allowed, ⟨by decide +kernel, by decide +kernel⟩, by decide⟩

theorem witness_FreshSlotsAscend :
    Processed fourColorState 0 0 (processed fourColorState) ∧
      ReachedAssign (processed fourColorState) ∧
      usesGlobalTable (ctrlMode fourColorState) (gtabEn fourColorState) = false ∧
      (previousRecord fourColorState 0 0).valid = false ∧
      (3 : Color) ∈ nonBackgroundSet fourColorState (processed fourColorState).pix := by
  refine ⟨processed_block fourColor_allowed, ⟨by decide +kernel, by decide +kernel⟩, by decide,
    by decide, ?_⟩
  rw [nonBackgroundSet, Finset.mem_filter]
  exact ⟨present_of (by decide +kernel), by decide⟩

/-- A legal bank of one record. -/
theorem bankLegal_one {m : Mode} {r : LinkRecord} (h : RecordLegal m r)
    (hw : linkBankWf [(0, r)] = true) : BankLegal m [(0, r)] := by
  refine ⟨hw, fun e he => ?_⟩
  rw [List.mem_singleton.1 he]
  exact ⟨linkEntries_pos, h⟩

/-- A-2: color 9 takes its slot 1 again, color 12 is the one deferred color and slot 0 the one free
slot. -/
theorem witness_FreshSlotsAscend_reuse :
    let s := reusingState
    let t := processed s
    let reuses := fun (c : Color) (slot : Slot) => c ∈ nonBackgroundSet s t.pix ∧
      PriorSlot (previousRecord s 0 0) c slot ∧ ¬ (bgEn s = true ∧ slot = 0)
    let deferred := fun (c : Color) => c ∈ nonBackgroundSet s t.pix ∧ ∀ slot, ¬ reuses c slot
    Processed s 0 0 t ∧ ReachedAssign t ∧ usesGlobalTable (ctrlMode s) (gtabEn s) = false ∧
      BanksLegal s ∧ reuses 9 1 ∧ deferred 12 ∧
      (∀ d, d ∈ (∅ : Finset Color) ↔ deferred d ∧ d.toNat < (12 : Color).toNat) ∧
      List.Sublist [0] (freshOrder (ctrlMode s)) ∧
      ∀ slot : Slot, slot ∈ ([0] : List Slot) ↔ slot ∈ freshOrder (ctrlMode s) ∧
        ¬ (bgEn s = true ∧ slot = 0) ∧ ∀ d, ¬ reuses d slot := by
  simp only [mem_nonBackgroundSet, PriorSlot]
  refine ⟨processed_block reusing_allowed, ⟨by decide +kernel, by decide +kernel⟩, by decide,
    ⟨⟨rfl, by simp [reusingState, blockState, State.reset]⟩, bankLegal_one
      ⟨rfl, rfl, by decide, by decide, by decide, by decide, fun _ => ⟨rfl, rfl⟩,
        by unfold TableInjective; decide⟩ (by decide)⟩, ?_⟩
  decide +kernel

/-- A-3: color 0 is deferred, since the new background has its slot 0, and slot 1 is the first of
the three free slots. -/
theorem witness_FreshSlotsAscend_displaced :
    let s := displacedState
    let t := processed s
    let reuses := fun (c : Color) (slot : Slot) => c ∈ nonBackgroundSet s t.pix ∧
      PriorSlot (previousRecord s 0 0) c slot ∧ ¬ (bgEn s = true ∧ slot = 0)
    let deferred := fun (c : Color) => c ∈ nonBackgroundSet s t.pix ∧ ∀ slot, ¬ reuses c slot
    Processed s 0 0 t ∧ ReachedAssign t ∧ usesGlobalTable (ctrlMode s) (gtabEn s) = false ∧
      BanksLegal s ∧ PriorSlot (previousRecord s 0 0) 0 0 ∧ deferred 0 ∧
      (∀ d, d ∈ (∅ : Finset Color) ↔ deferred d ∧ d.toNat < (0 : Color).toNat) ∧
      List.Sublist [1, 2, 3] (freshOrder (ctrlMode s)) ∧
      (∀ slot : Slot, slot ∈ ([1, 2, 3] : List Slot) ↔ slot ∈ freshOrder (ctrlMode s) ∧
        ¬ (bgEn s = true ∧ slot = 0) ∧ ∀ d, ¬ reuses d slot) ∧
      slotTableWord t.slotmap = 0x00030005 := by
  simp only [mem_nonBackgroundSet, PriorSlot]
  refine ⟨processed_block displaced_allowed, ⟨by decide +kernel, by decide +kernel⟩, by decide,
    ⟨⟨rfl, by simp [displacedState, blockState, State.reset]⟩, bankLegal_one
      ⟨rfl, rfl, by decide, by decide, by decide, fun _ => rfl,
        fun h => absurd h (by decide), by unfold TableInjective; decide⟩ (by decide)⟩, ?_⟩
  decide +kernel

/-- The colors of G-2 other than the background. -/
theorem global_colors (c : Color) :
    c ∈ nonBackgroundSet (globalState 0x00007650) (processed (globalState 0x00007650)).pix ↔
      c = 5 ∨ c = 6 ∨ c = 7 := by
  rw [mem_nonBackgroundSet]
  revert c
  decide +kernel

/-- G-2: both entries take effect, color 7 is the one color of the fallback, slot 3 the one slot. -/
theorem witness_GlobalTableAssignment :
    let s := globalState 0x00007650
    let t := processed s
    let colors := nonBackgroundSet s t.pix
    let fallback := fun c => c ∈ colors ∧ ¬ (G01Effective s ∧ c = gtabG01 s.gtab) ∧
      ¬ (G10Effective s ∧ c = gtabG10 s.gtab)
    Processed s 0 0 t ∧ ReachedAssign t ∧ usesGlobalTable (ctrlMode s) (gtabEn s) = true ∧
      (G01Effective s ∧ gtabG01 s.gtab ∈ colors) ∧ (G10Effective s ∧ gtabG10 s.gtab ∈ colors) ∧
      fallback 7 ∧ (∀ d, d ∈ (∅ : Finset Color) ↔ fallback d ∧ d.toNat < (7 : Color).toNat) ∧
      List.Sublist [3] ([3, 2, 1] : List Slot) ∧
      (∀ slot : Slot, slot ∈ ([3] : List Slot) ↔ slot ≠ 0 ∧
        ¬ ((G01Effective s ∧ gtabG01 s.gtab ∈ colors) ∧ slot = 1) ∧
        ¬ ((G10Effective s ∧ gtabG10 s.gtab ∈ colors) ∧ slot = 2)) ∧
      (∀ c, c ∈ ({7} : Finset Color) ↔ fallback c) ∧
      (∀ slot : Slot, slot ∈ ({3} : Finset Slot) ↔ slot ≠ 0 ∧ ¬ (G01Effective s ∧ slot = 1) ∧
        ¬ (G10Effective s ∧ slot = 2)) := by
  have h1 : G01Effective (globalState 0x00007650) := ⟨by decide, by decide⟩
  have h2 : G10Effective (globalState 0x00007650) :=
    ⟨by decide, by decide, fun h => absurd h.2 (by decide)⟩
  have e1 : gtabG01 (globalState 0x00007650).gtab = 5 := by decide
  have e2 : gtabG10 (globalState 0x00007650).gtab = 6 := by decide
  simp only [global_colors, h1, h2, e1, e2, true_and]
  exact ⟨processed_block (global_allowed _), ⟨by decide +kernel, by decide +kernel⟩, by decide,
    by decide, by decide, by decide, by decide, by decide, by decide, by decide, by decide⟩

/-! #### Packing and summary -/

theorem banks_empty_legal {s : State} (hc : s.cur = []) (hp : s.prev = []) : BanksLegal s := by
  rw [BanksLegal, hc, hp]
  exact ⟨⟨rfl, by simp⟩, rfl, by simp⟩

/-- The record of A-1 is a legal one. -/
theorem recordA1_legal : RecordLegal .twoColor recordA1 := by
  refine ⟨rfl, rfl, by decide, by decide, by decide, by decide, fun _ => ⟨rfl, rfl⟩, ?_⟩
  unfold TableInjective
  decide

/-- So is that of A-6. -/
theorem recordFailedA6_legal : RecordLegal .twoColor recordFailedA6 := by
  refine ⟨rfl, rfl, by decide, by decide, by decide, by decide, fun _ => ⟨rfl, rfl⟩, ?_⟩
  unfold TableInjective
  decide

/-- A state with a failed CUR record and a PREV record. -/
def linkedState : State :=
  { State.reset with grid := 0x00000101, cur := [(0, recordFailedA6)], prev := [(0, recordA1)] }

theorem linkedState_banks : BanksLegal linkedState :=
  ⟨bankLegal_one recordFailedA6_legal (by decide), bankLegal_one recordA1_legal (by decide)⟩

theorem witness_PackedRowsDecodeToPixels :
    BanksLegal cleanState ∧ Processed cleanState 0 0 (processed cleanState) ∧
      (7 : Nat) < blockWidth (ctrlMode cleanState) ∧
      ∃ slot, slotColor (processed cleanState).slotmap slot =
        some (pixelOf (processed cleanState).pix[(7 : Fin 8)] 7) :=
  ⟨banks_empty_legal rfl rfl, processed_block clean_allowed, by decide, 1, by decide +kernel⟩

theorem witness_SummaryFollowsTheSlots :
    (Processed cleanState 0 0 (processed cleanState) ∧ ctrlMode cleanState = .twoColor) ∧
      Processed fourColorState 0 0 (processed fourColorState) ∧
      ctrlMode fourColorState = .fourColor :=
  ⟨⟨processed_block clean_allowed, by decide⟩, processed_block fourColor_allowed, by decide⟩

/-! #### Frames -/

/-- A-2: color 9 has slot 1 in the first frame and is present in the second. -/
theorem witness_ContinuityAcrossFrames :
    let s := blockState 0 0 0 (sameRows 0x99992222)
    let t := processed s
    let f := completeWith .ok (advanceFrame t)
    let s' := { blockState 0 0 0 (sameRows 0xCCCC9999) with prev := f.prev }
    let t' := processed s'
    Processed s 0 0 t ∧ t.wasClashed = false ∧
      slotColor (committedRecord s t 0 0).slots 1 = some 9 ∧ exec .framenext t = .next f ∧
      s'.prev = f.prev ∧ blockIndex s' 0 0 = blockIndex s 0 0 ∧ s'.bg = s.bg ∧
      usesGlobalTable (ctrlMode s') (gtabEn s') = false ∧ Processed s' 0 0 t' ∧
      t'.clash = false ∧ (9 : Color) ∈ presentSet (ctrlMode s') t'.pix := by
  refine ⟨processed_block (allowed_block (by decide) rfl rfl), by decide +kernel,
    by decide +kernel, rfl, rfl, by decide, rfl, by decide,
    processed_block (allowed_block (by decide) rfl rfl), by decide +kernel,
    present_of (by decide +kernel)⟩

/-- FRAMENEXT changes PREV of `linkedState`. -/
theorem witness_PreviousFrameIsImmutable :
    let s := { linkedState with pending := some 0x00000005 }
    (∃ t, step s = .next t ∧ t.prev ≠ s.prev) ∧
      ∃ t, exec (.process 0 0) cleanState = .next t :=
  ⟨⟨_, step_eq _, by decide +kernel⟩, _, exec_eq _ _⟩

theorem witness_FrameCountsCountTheBank : BanksLegal linkedState := linkedState_banks

theorem witness_ErrorListInIndexOrder : BanksLegal linkedState := linkedState_banks

/-! #### Reset and host accesses -/

theorem witness_ResetInputResets :
    let s := { clashState with inputs := [.rst true, .access (.read .word 0)] }
    s.inputs = .rst true :: [.access (.read .word 0)] := rfl

/-- A busy state with one event to come. -/
def busyState (e : Input) : State := { State.reset with pending := some 0x00000001, inputs := [e] }

/-- A register, STATUS, and the first unmapped offset. -/
theorem witness_WriteWhileBusyIsDropped :
    (busyState (.access (.write .word (regOffset .ctrl) 1))).rst = false ∧
      (busyState (.access (.write .word (regOffset .ctrl) 1))).pending.isSome = true ∧
      (busyState (.access (.write .word (regOffset .ctrl) 1))).inputs =
        .access (.write .word (regOffset .ctrl) 1) :: [] ∧ Reg.ctrl ≠ Reg.status ∧
      (busyState (.access (.write .word (regOffset .status) 0x82))).inputs =
        .access (.write .word (regOffset .status) 0x82) :: [] ∧
      (busyState (.access (.write .word 0x03C 1))).inputs =
        .access (.write .word 0x03C 1) :: [] ∧ ∀ r : Reg, (0x03C : BitVec 12) ≠ regOffset r := by
  refine ⟨rfl, rfl, rfl, by decide, rfl, rfl, fun r => ?_⟩
  cases r <;> first | decide | (rename_i y; revert y; decide)

/-- A narrow, a misaligned and an unmapped access, written and read. -/
theorem witness_BusErrorHasNoEffect :
    State.reset.rst = false ∧ AccessWidth.byte ≠ .word ∧ (0x002 : BitVec 12).toNat % 4 ≠ 0 ∧
      (∀ r : Reg, (0x100 : BitVec 12) ≠ regOffset r) ∧
      { State.reset with inputs := [.access (.write .byte 0 1)] }.inputs =
        .access (.write .byte 0 1) :: [] ∧
      { State.reset with inputs := [.access (.read .word 0x002)] }.inputs =
        .access (.read .word 0x002) :: [] := by
  refine ⟨rfl, by decide, by decide, fun r => ?_, rfl, rfl⟩
  cases r <;> first | decide | (rename_i y; revert y; decide)

/-- A narrow misaligned read, and a word read at the last register's offset, both while busy. -/
theorem witness_ReadsHaveNoSideEffect :
    (busyState (.access (.read .half 0x003))).inputs = .access (.read .half 0x003) :: [] ∧
      (busyState (.access (.read .word 0x0FC))).inputs = .access (.read .word 0x0FC) :: [] ∧
      (busyState (.access (.read .word 0x0FC))).rst = false ∧
      (0x0FC : BitVec 12) = regOffset (.substHi 15) := ⟨rfl, rfl, rfl, by decide⟩

/-- The last row completes PIXVALID, the first one of an empty buffer does not. -/
theorem witness_PixelRowWrite :
    let s := { State.reset with
      pixvalid := 0x7F, inputs := [.access (.write .word (regOffset (.pix 7)) 5)] }
    let z := { State.reset with inputs := [.access (.write .word (regOffset (.pix 0)) 5)] }
    (s.rst = false ∧ s.pending = none ∧
      s.inputs = .access (.write .word (regOffset (.pix 7)) 5) :: [] ∧
      (stateOf (step s)).pixvalid = 0xFF) ∧
      z.rst = false ∧ z.pending = none ∧
      z.inputs = .access (.write .word (regOffset (.pix 0)) 5) :: [] ∧
      (stateOf (step z)).pixvalid ≠ 0xFF := by
  refine ⟨⟨rfl, rfl, rfl, ?_⟩, rfl, rfl, rfl, ?_⟩ <;> decide +kernel

/-- The same MODE and the other one; a read-only register. -/
theorem witness_RegisterWrites :
    let s := fun (r : Reg) (v : Word) =>
      { State.reset with inputs := [.access (.write .word (regOffset r) v)] }
    (∀ r v, (s r v).rst = false ∧ (s r v).pending = none ∧
      (s r v).inputs = .access (.write .word (regOffset r) v) :: []) ∧
      (0x1E : Word).getLsbD 0 = State.reset.ctrl.getLsbD 0 ∧
      (0x01 : Word).getLsbD 0 ≠ State.reset.ctrl.getLsbD 0 ∧
      Reg.substHi 15 ∉ [Reg.ctrl, .bg, .gtab, .grid, .cmd, .status, .linksel] ∧
      ∀ y, Reg.substHi 15 ≠ .pix y :=
  ⟨fun _ _ => ⟨rfl, rfl, rfl⟩, by decide, by decide, by decide, by decide⟩

theorem witness_StatusWriteClears :
    let s := busyState (.access (.write .word (regOffset .status) 0x82))
    s.rst = false ∧ s.inputs = .access (.write .word (regOffset .status) 0x82) :: [] ∧
      (0x82 : Word).getLsbD 1 = true ∧ (0x82 : Word).getLsbD 7 = true ∧
      (0x7D : Word).getLsbD 1 = false ∧ (0x7D : Word).getLsbD 7 = false :=
  ⟨rfl, rfl, by decide, by decide, by decide, by decide⟩

theorem witness_CommandAcceptance :
    let s := { State.reset with inputs := [.access (.write .word (regOffset .cmd) 0xFF)] }
    s.rst = false ∧ s.pending = none ∧
      s.inputs = .access (.write .word (regOffset .cmd) 0xFF) :: [] := ⟨rfl, rfl, rfl⟩

theorem witness_ReadsWhileBusy : (busyState .engine).pending.isSome = true := rfl

/-- Each result code and each stage. -/
theorem witness_StatusFields :
    clashState.pending = none ∧ ∀ (e : ErrCode) (g : Stage),
      { clashState with errcode := e, stage := g }.pending = none ∧
      { clashState with errcode := e, stage := g }.errcode = e ∧
      { clashState with errcode := e, stage := g }.stage = g := ⟨rfl, fun _ _ => ⟨rfl, rfl, rfl⟩⟩

/-- The last index is at or beyond every LINK_ENTRIES, index 0 below. -/
theorem witness_LinkdataShowsTheRecord :
    linkedState.pending = none ∧ (linkedState.linksel.extractLsb' 0 16).toNat < Config.linkEntries ∧
      { linkedState with linksel := 0x0000FFFF }.pending = none ∧
      Config.linkEntries ≤
        (({ linkedState with linksel := 0x0000FFFF } : State).linksel.extractLsb' 0 16).toNat :=
  ⟨rfl, linkEntries_pos, rfl, linkEntries_le⟩

theorem witness_InterruptFollowsDone :
    Instr.nop ≠ .sreset ∧ ∃ t, exec .nop clashState = .next t := ⟨by decide, _, exec_eq _ _⟩

/-! #### The whole machine -/

/-- A host access before the engine's turn, and a reset that abandons the command. -/
theorem witness_PendingCommandCompletes :
    let s := busyState (.access (.write .word (regOffset .ctrl) 1))
    (s.rst = false ∧ s.pending = some 1 ∧ Input.rst true ∉ s.inputs) ∧
      (busyState (.rst true)).rst = false ∧ (busyState (.rst true)).pending = some 1 :=
  ⟨⟨rfl, rfl, by decide⟩, rfl, rfl⟩

theorem witness_ResultIndependentOfLatency :
    let a := [BusAccess.write .word (regOffset .ctrl) 1, .read .word (regOffset .status)]
    let s := { clashState with pending := some 1, inputs := a.map Input.access ++ [Input.engine] }
    s.rst = false ∧ s.pending.isSome = true ∧ s.inputs = a.map Input.access ++ [Input.engine] :=
  ⟨rfl, rfl, rfl⟩

/-- A dropped write sets ERR_BUSY, a write of 1 to bit 7 clears it. -/
theorem witness_ErrBusyChanges :
    let s := busyState (.access (.write .word (regOffset .ctrl) 1))
    let u := { busyState (.access (.write .word (regOffset .status) 0x80)) with errBusy := true }
    (s.errBusy = false ∧ ∃ t, step s = .next t ∧ t.errBusy = true) ∧
      u.errBusy = true ∧ ∃ t, step u = .next t ∧ t.errBusy = false :=
  ⟨⟨rfl, _, step_eq _, by decide +kernel⟩, rfl, _, step_eq _, by decide +kernel⟩

/-- A write of all ones to CTRL. -/
theorem witness_StepKeepsReservedZero :
    let s := { clashState with inputs := [.access (.write .word (regOffset .ctrl) 0xFFFFFFFF)] }
    ReservedZero s ∧ ∃ t, step s = .next t := by
  refine ⟨?_, _, step_eq _⟩
  unfold ReservedZero
  decide +kernel

/-- The completion of DETECT on a loaded block. -/
theorem witness_StepKeepsStatusLegal :
    let s := { clashState with pending := some 0x00000001 }
    StatusLegal s ∧ ∃ t, step s = .next t := by
  refine ⟨?_, _, step_eq _⟩
  unfold StatusLegal
  decide +kernel

/-- The completion of FRAMENEXT with records in both banks. -/
theorem witness_StepKeepsBanksLegal :
    let s := { linkedState with pending := some 0x00000005 }
    BanksLegal s ∧ ∃ t, step s = .next t := ⟨linkedState_banks, _, step_eq _⟩

/-! #### Host programs -/

theorem witness_RunCompletesTheCommand :
    let s := { clashState with inputs := runInputs 2 (.process 0 0) }
    (Instr.process 0 0).wellFormed = true ∧ s.rst = false ∧ s.pending = none ∧
      s.inputs = runInputs 2 (.process 0 0) := ⟨by decide, rfl, rfl, rfl⟩

theorem witness_LoadRowsFillsTheBuffer :
    let s := { State.reset with inputs := programInputs (loadRows rowsT3) }
    s.rst = false ∧ s.pending = none ∧ s.inputs = programInputs (loadRows rowsT3) :=
  ⟨rfl, rfl, rfl⟩

/-! #### Idle reads -/

/-- Rows 0 to 7 written; one slot with a color and one without after A-1. -/
theorem witness_IdleReads :
    (∀ y : Fin 8, (processed cleanState).pixvalid.getLsbD y.val = true) ∧
      (processed cleanState).pending = none ∧
      slotColor (processed cleanState).slotmap 1 = some 1 ∧
      slotColor (processed cleanState).slotmap 2 = none := by decide +kernel

end Sys2Proof.Tests
end

/-!
SUPPORT. The registers of the window by offset (10_state.md R20, 20_memory.md R64): `regAt` on the
64 word offsets below 0x100, and outside them.
-/

namespace Sys2Proof.Machine

/-- The k-th word offset of the window. -/
def wordOffset (k : Fin 64) : BitVec 12 := BitVec.ofNat 12 (4 * k.val)

theorem wordOffset_toNat (k : Fin 64) : (wordOffset k).toNat = 4 * k.val := by
  have := k.isLt
  simp only [wordOffset, BitVec.toNat_ofNat]
  omega

/-- Every register stands at one of the 64 word offsets, and `regAt` finds it there (R20). -/
theorem regAt_regOffset (r : Reg) : regAt (regOffset r) = some r := by
  cases r with
  | pix y => revert y; decide
  | hist k => revert k; decide
  | substLo c => revert c; decide
  | substHi c => revert c; decide
  | _ => rfl

/-- A misaligned offset, and one above the substitution table, reaches no register (R64). -/
theorem regAt_eq_none_of_outside {off : BitVec 12} (h : off.toNat % 4 ≠ 0 ∨ 0x100 ≤ off.toNat) :
    regAt off = none := by
  unfold regAt
  rcases h with h | h
  · exact if_pos h
  · simp only [show ¬ off.toNat < 0x040 by omega, show ¬ off.toNat < 0x060 by omega,
      show off.toNat ≠ 0x060 by omega, show off.toNat ≠ 0x064 by omega,
      show ¬ off.toNat < 0x070 by omega, show ¬ off.toNat < 0x080 by omega,
      show ¬ off.toNat < 0x100 by omega, if_false, ite_self]

/-- The offsets that `regAt_eq_none_of_outside` leaves are the 64 word offsets. -/
theorem exists_wordOffset_eq {off : BitVec 12} (ha : off.toNat % 4 = 0) (hb : off.toNat < 0x100) :
    ∃ k, wordOffset k = off :=
  ⟨⟨off.toNat / 4, by omega⟩, BitVec.eq_of_toNat_eq (by rw [wordOffset_toNat]; dsimp only; omega)⟩

/-- The table of R20, row by row: a register found at a word offset has that offset. -/
theorem regOffset_of_regAt_wordOffset :
    ∀ k : Fin 64, (regAt (wordOffset k)).all fun r => regOffset r == wordOffset k := by decide

/-- The holes in the table of R20: 0x03C, 0x068 and 0x06C. -/
theorem regAt_wordOffset_eq_none_iff :
    ∀ k : Fin 64, regAt (wordOffset k) = none ↔ k.val = 15 ∨ k.val = 26 ∨ k.val = 27 := by decide

/-- An access reaches a register only at the register's offset (R20). -/
theorem regOffset_of_regAt {off : BitVec 12} {r : Reg} (h : regAt off = some r) :
    regOffset r = off := by
  have hin : ¬ (off.toNat % 4 ≠ 0 ∨ 0x100 ≤ off.toNat) := fun hout => by
    rw [regAt_eq_none_of_outside hout] at h
    cases h
  obtain ⟨k, rfl⟩ := exists_wordOffset_eq (off := off) (by omega) (by omega)
  simpa [h] using regOffset_of_regAt_wordOffset k

/-- The offsets that get BusError on a word access (R64). -/
theorem regAt_eq_none_iff (off : BitVec 12) :
    regAt off = none ↔
      (off.toNat % 4 ≠ 0 ∨ off.toNat = 0x03C ∨ off.toNat = 0x068 ∨ off.toNat = 0x06C ∨
        0x100 ≤ off.toNat) := by
  by_cases hout : off.toNat % 4 ≠ 0 ∨ 0x100 ≤ off.toNat
  · simp only [regAt_eq_none_of_outside hout, true_iff]
    omega
  · obtain ⟨k, rfl⟩ := exists_wordOffset_eq (off := off) (by omega) (by omega)
    rw [regAt_wordOffset_eq_none_iff, wordOffset_toNat]
    omega

/-- Settles O5: row by row on the 64 word offsets, and by the alignment test and the last bound of
`regAt` everywhere else. -/
theorem registersAtTheirOffsets : Obligations.RegistersAtTheirOffsets :=
  ⟨regAt_regOffset, fun _ _ => regOffset_of_regAt, regAt_eq_none_iff⟩

end Sys2Proof.Machine

/-!
SUPPORT. Where the fields of STATUS, LINKDATA, PARAM and the substitution view stand in the words
that a read answers (10_state.md R21, R22, R28, R40, R41).
-/

namespace Sys2Proof.Machine

open BitVec (getLsbD_append extractLsb'_append_eq_of_add_le extractLsb'_append_eq_of_le
  extractLsb'_eq_self)

/-! ### Reads -/

/-- With no command pending every register reads its idle value (R100). -/
theorem readReg_idle (p : Params) {s : State} (h : s.pending = none) (r : Reg) :
    readReg p s r = readIdle p s r := by
  simp [readReg, busy, h]

/-- The configuration registers and the constants read their value, busy or not (R110). -/
theorem readReg_of_readableWhileBusy (p : Params) (s : State) {r : Reg}
    (h : readableWhileBusy r = true) : readReg p s r = readIdle p s r := by
  have hr : r ≠ .status := by
    rintro rfl
    cases h
  simp [readReg, h, hr]

/-! ### Fields of a word -/

/-- A word reads 0 under a mask when the bits of the mask are among some that are 0 in the word. -/
theorem and_mask_eq_zero {w mask : Word} (bits : List Nat)
    (hmask : ∀ i < 32, mask.getLsbD i = true → i ∈ bits)
    (hw : ∀ i ∈ bits, w.getLsbD i = false) : w &&& mask = 0 := by
  apply BitVec.eq_of_getLsbD_eq
  intro i hi
  rw [BitVec.getLsbD_and, show (0 : Word).getLsbD i = false from BitVec.getLsbD_zero]
  cases hm : mask.getLsbD i with
  | false => exact Bool.and_false _
  | true => rw [hw i (hmask i hi hm), Bool.false_and]

/-- A one-bit field is its bit. -/
theorem getLsbD_ofBool_zero (b : Bool) : (BitVec.ofBool b).getLsbD 0 = b := by cases b <;> rfl

/-- The color fields and SVALID of a slot table, the low 20 bits of SLOTMAP and of LINKDATA, with
anything above them (R32, R40). -/
theorem slotFields_of_append (hi : BitVec 12) (t : SlotTable) (slot : Slot) :
    let w : Word := hi ++ svalidField t ++ colorField t 3 ++ colorField t 2 ++ colorField t 1 ++
      colorField t 0
    w.extractLsb' (4 * slot.val) 4 = colorField t slot ∧
      w.getLsbD (16 + slot.val) = (slotColor t slot).isSome := by
  match slot with
  | 0 | 1 | 2 | 3 =>
    constructor
    · simp (disch := decide) only [extractLsb'_append_eq_of_add_le, extractLsb'_append_eq_of_le]
      exact extractLsb'_eq_self
    · simp only [getLsbD_append, svalidField]
      exact getLsbD_ofBool_zero _

/-! ### STATUS -/

/-- The one-bit fields of STATUS (R28). -/
theorem getLsbD_statusWordIdle (s : State) :
    let w := statusWordIdle s
    w.getLsbD 0 = false ∧ w.getLsbD 1 = s.done ∧ w.getLsbD 2 = frameFail s ∧
      w.getLsbD 7 = s.errBusy ∧ w.getLsbD 8 = s.clash ∧ w.getLsbD 9 = s.wasClashed ∧
      w.getLsbD 10 = s.repaired ∧ w.getLsbD 11 = s.skipped ∧ w.getLsbD 12 = s.anomaly ∧
      w.getLsbD 13 = s.prevValid := by
  simp only [statusWordIdle, getLsbD_append, Nat.reduceLT, Nat.reduceSub, if_true, if_false,
    getLsbD_ofBool_zero, BitVec.getLsbD_ofNat, Nat.zero_testBit, Bool.and_false, and_self]

/-- ERRCODE, STAGE and PIXVALID in STATUS (R28). -/
theorem extractLsb'_statusWordIdle (s : State) :
    let w := statusWordIdle s
    w.extractLsb' 4 3 = errCodeBits s.errcode ∧ w.extractLsb' 16 3 = stageBits s.stage ∧
      w.extractLsb' 24 8 = s.pixvalid := by
  simp (disch := decide) only [statusWordIdle, extractLsb'_append_eq_of_add_le,
    extractLsb'_append_eq_of_le, Nat.reduceSub, extractLsb'_eq_self, and_self]

/-- The reserved bits 3, 15:14 and 23:19 of STATUS read 0 (R28). -/
theorem statusWordIdle_reserved (s : State) : statusWordIdle s &&& 0x00F8C008 = 0 := by
  refine and_mask_eq_zero [3, 14, 15, 19, 20, 21, 22, 23] (by decide) ?_
  simp only [statusWordIdle, getLsbD_append, List.forall_mem_cons, Nat.reduceLT, Nat.reduceSub,
    if_true, if_false, BitVec.getLsbD_ofNat, Nat.zero_testBit, Bool.and_false, true_and,
    List.not_mem_nil, false_imp_iff, implies_true]

/-- Settles O46: the fields of the word of STATUS, and the numbers of R29 and R231 by the equations
of `stageBits` and `errCodeBits`. -/
theorem statusFields : Obligations.StatusFields := by
  intro p s hidle
  rw [readReg_idle p hidle, show readIdle p s .status = statusWordIdle s from rfl]
  obtain ⟨h0, h1, h2, h7, h8, h9, h10, h11, h12, h13⟩ := getLsbD_statusWordIdle s
  obtain ⟨hcode, hstage, hpix⟩ := extractLsb'_statusWordIdle s
  refine ⟨h0, h1, h2, hcode, h7, h8, h9, h10, h11, h12, h13, hstage, hpix,
    statusWordIdle_reserved s, ?_⟩
  rw [hcode, hstage]
  simp +contextual only [errCodeBits, stageBits, implies_true, and_self]

/-! ### ID, PARAM and the substitution table -/

/-- The fields of PARAM (R22). -/
theorem extractLsb'_paramWord (p : Params) :
    (paramWord p).extractLsb' 0 16 = BitVec.ofNat 16 p.linkEntries ∧
      (paramWord p).extractLsb' 16 4 = 15 ∧ (paramWord p).extractLsb' 20 12 = 0 := by
  refine ⟨?_, ?_, ?_⟩ <;>
    simp (disch := decide) only [paramWord, extractLsb'_append_eq_of_add_le,
      extractLsb'_append_eq_of_le, Nat.reduceSub, extractLsb'_eq_self] <;> rfl

/-- `SUBST_LO`: the length of the row (R41). -/
theorem extractLsb'_substLoWord_length (row : List Color) :
    (substLoWord row).extractLsb' 0 4 = BitVec.ofNat 4 row.length := by
  simp (disch := decide) only [substLoWord, extractLsb'_append_eq_of_add_le, extractLsb'_eq_self]

/-- `SUBST_LO`: the candidates 0..6 of the row (R41). -/
theorem extractLsb'_substLoWord_candidate (row : List Color) {i : Nat} (hi : i < 7) :
    (substLoWord row).extractLsb' (4 * i + 4) 4 = row[i]?.getD 0 := by
  interval_cases i <;>
    simp (disch := decide) only [substLoWord, candidateField, extractLsb'_append_eq_of_add_le,
      extractLsb'_append_eq_of_le] <;>
    exact extractLsb'_eq_self

/-- `SUBST_HI`: the candidates 7..14 of the row (R41). -/
theorem extractLsb'_substHiWord_candidate (row : List Color) {i : Nat} (h7 : 7 ≤ i) (hi : i < 15) :
    (substHiWord row).extractLsb' (4 * (i - 7)) 4 = row[i]?.getD 0 := by
  interval_cases i <;>
    simp (disch := decide) only [substHiWord, candidateField, extractLsb'_append_eq_of_add_le,
      extractLsb'_append_eq_of_le] <;>
    exact extractLsb'_eq_self

/-- A row has at most 15 candidates, so its length fits the field (R10, R41). -/
theorem subst_length_lt (c : Color) : (Config.subst c).length < 16 := by
  have := List.length_take_le 15 (Config.substTable c)
  rw [Config.subst]
  omega

/-- LINK_ENTRIES fits its field (R10, R22). -/
theorem linkEntries_lt : Config.linkEntries < 65536 :=
  Nat.succ_lt_succ Config.linkEntriesLessOne.isLt

/-- Settles O47: the constant registers read their idle value, busy or not, and the two parameters
fit their fields. -/
theorem constantRegisters : Obligations.ConstantRegisters := by
  intro s
  obtain ⟨hentries, hmax, hzero⟩ := extractLsb'_paramWord Config.params
  simp only [readReg_of_readableWhileBusy Config.params s (r := .id) rfl,
    readReg_of_readableWhileBusy Config.params s (r := .param) rfl,
    readReg_of_readableWhileBusy Config.params s (r := .substLo _) rfl,
    readReg_of_readableWhileBusy Config.params s (r := .substHi _) rfl, readIdle]
  refine ⟨trivial, ?_, hmax, hzero, fun c => ⟨?_, fun i hi => ?_, fun i h7 hi => ?_⟩⟩
  · rw [hentries, BitVec.toNat_ofNat]
    exact Nat.mod_eq_of_lt linkEntries_lt
  · rw [extractLsb'_substLoWord_length, BitVec.toNat_ofNat]
    exact Nat.mod_eq_of_lt (subst_length_lt c)
  · exact extractLsb'_substLoWord_candidate _ hi
  · exact extractLsb'_substHiWord_candidate _ h7 hi

/-! ### LINKDATA -/

/-- The MODE bit is 1 for 4-color mode (R8). -/
theorem modeBit_eq_decide (m : Mode) : modeBit m = decide (m = .fourColor) := by cases m <;> rfl

/-- The slot fields of a record's word (R40). -/
theorem recordWord_slotFields (r : LinkRecord) (slot : Slot) :
    (recordWord r).extractLsb' (4 * slot.val) 4 = colorField r.slots slot ∧
      (recordWord r).getLsbD (16 + slot.val) = (slotColor r.slots slot).isSome :=
  slotFields_of_append _ r.slots slot

/-- The one-bit fields of a record's word (R40). -/
theorem getLsbD_recordWord (r : LinkRecord) :
    let w := recordWord r
    w.getLsbD 24 = r.valid ∧ w.getLsbD 25 = modeBit r.mode ∧ w.getLsbD 26 = r.wasClashed ∧
      w.getLsbD 27 = r.finalClash ∧ w.getLsbD 28 = r.anomaly ∧ w.getLsbD 29 = r.skipped ∧
      w.getLsbD 30 = r.repaired := by
  simp only [recordWord, getLsbD_append, Nat.reduceLT, Nat.reduceSub, if_true, if_false,
    getLsbD_ofBool_zero, and_self]

/-- The reserved bits 23:20 and 31 of a record's word read 0 (R40). -/
theorem recordWord_reserved (r : LinkRecord) : recordWord r &&& 0x80F00000 = 0 := by
  refine and_mask_eq_zero [20, 21, 22, 23, 31] (by decide) ?_
  simp only [recordWord, getLsbD_append, List.forall_mem_cons, Nat.reduceLT, Nat.reduceSub,
    if_true, if_false, BitVec.getLsbD_ofNat, Nat.zero_testBit, Bool.and_false, true_and,
    List.not_mem_nil, false_imp_iff, implies_true]

/-- Settles O48: the selected record is the one `linkdataWord` shows, and its word has the fields
of R40. -/
theorem linkdataShowsTheRecord : Obligations.LinkdataShowsTheRecord := by
  intro s hidle
  rw [readReg_idle _ hidle, show readIdle Config.params s .linkdata =
    linkdataWord Config.params s from rfl]
  refine ⟨fun hge => if_neg (Nat.not_lt.2 hge), fun hlt => ?_⟩
  rw [show linkdataWord Config.params s =
    recordWord (linkRead (linkselBank s) (linkselIndex s)) from if_pos hlt, ← modeBit_eq_decide]
  obtain ⟨hvalid, hmode, hwas, hfinal, hanomaly, hskipped, hrepaired⟩ :=
    getLsbD_recordWord (linkRead (linkselBank s) (linkselIndex s))
  exact ⟨recordWord_slotFields _, hvalid, hmode, hwas, hfinal, hanomaly, hskipped, hrepaired,
    recordWord_reserved _⟩

end Sys2Proof.Machine

/-!
The invariant `StatusLegal`: every command, every access and every other event keeps the flags, the
stage and DONE consistent (10_state.md R29, R36, 40_host_access.md R108, 44_frame_link.md R196).
-/

namespace Sys2Proof.Machine

/-! ### The parts of the invariant -/

/-- STAGE is Empty exactly while a pixel row is missing (R29, R36). -/
def StageLegal (s : State) : Prop :=
  (s.stage = .empty ↔ s.pixvalid ≠ 0xFF) ∧ s.stage ≠ .slotsAssigned

/-- The six block flags are those of one path of DETECT, REPAIR or PROCESS (R125, R175, R196). -/
def FlagsLegal (s : State) : Prop :=
  (s.wasClashed = true ↔ s.clash = true ∨ s.repaired = true) ∧
  (s.clash = true → s.repaired = false ∧ s.skipped = false) ∧
  (s.skipped = true → s.prevValid = true) ∧
  (s.anomaly = true → s.clash = false ∧ s.skipped = false)

theorem statusLegal_iff {s : State} :
    StatusLegal s ↔
      (s.pending.isSome = true → s.done = false) ∧ StageLegal s ∧ FlagsLegal s := by
  simp only [StatusLegal, StageLegal, FlagsLegal, and_assoc]

/-- With all rows valid, a stage that a block command sets is legal (R29). -/
theorem stageLegal_of_loaded {s : State} (hp : s.pixvalid = 0xFF) (he : s.stage ≠ .empty)
    (ha : s.stage ≠ .slotsAssigned) : StageLegal s :=
  ⟨iff_of_false he (not_not_intro hp), ha⟩

/-- The flags DETECT writes (R125). -/
theorem flagsLegal_detected (k : Bool) (s : State) :
    FlagsLegal (setBlockFlags k k false false false false s) := by
  simp [FlagsLegal]

/-- The flags REPAIR writes (R175). -/
theorem flagsLegal_repaired (k : Bool) (s : State) :
    FlagsLegal (setBlockFlags false k k false false false s) := by
  simp [FlagsLegal]

/-- A previous record that stops the analysis is a valid one (R193). -/
theorem valid_of_previousClashed {prev : LinkRecord} (h : previousClashed prev = true) :
    prev.valid = true :=
  (Bool.and_eq_true_iff.1 h).1

/-- The flags PROCESS writes, on each path of R196. -/
theorem flagsLegal_encodeBlock (p : Params) (s : State) (idx : Nat) (prev : LinkRecord) :
    FlagsLegal (encodeBlock s idx prev (analyzeBlock p s prev)) := by
  simp only [FlagsLegal, encodeBlock_clash, encodeBlock_wasClashed, encodeBlock_repaired,
    encodeBlock_skipped, encodeBlock_anomaly, encodeBlock_prevValid]
  cases analyzeBlock_path p s prev with
  | unrepaired _ _ ha => simp [ha]
  | skipped hp _ hwas hfinal hrep hskip hanom _ =>
    simp [hwas, hfinal, hrep, hanom, valid_of_previousClashed hp]
  | assigned _ _ hwas hfinal hrep hskip _ _ => simp [hwas, hfinal, hrep, hskip]

/-! ### Commands -/

/-- Completion clears BUSY, so DONE = 1 is consistent (R108, R109). -/
theorem statusLegal_completeWith {s : State} (code : ErrCode) (hs : StageLegal s)
    (hf : FlagsLegal s) : StatusLegal (completeWith code s) :=
  statusLegal_iff.2 ⟨by simp, hs, hf⟩

/-- A command that completes with no effect on the flags, the stage and PIXVALID. -/
theorem statusLegal_completeWith_self {s : State} (h : StatusLegal s) (code : ErrCode) :
    StatusLegal (completeWith code s) := by
  obtain ⟨-, hs, hf⟩ := statusLegal_iff.1 h
  exact statusLegal_completeWith code hs hf

/-- DETECT on a loaded block (R125). -/
theorem statusLegal_detectUpdate {s : State} (hp : s.pixvalid = 0xFF) (code : ErrCode) :
    StatusLegal (completeWith code (detectUpdate s)) := by
  have hstage : (detectUpdate s).stage = if blockClashes s then .clashed else .analyzed := rfl
  refine statusLegal_completeWith code (stageLegal_of_loaded hp ?_ ?_) (flagsLegal_detected _ _) <;>
    rw [hstage] <;> split <;> decide

/-- REPAIR on a loaded block, clashed or not (R175). -/
theorem statusLegal_repairUpdate (p : Params) {s : State} (hp : s.pixvalid = 0xFF)
    (code : ErrCode) : StatusLegal (completeWith code (repairUpdate p s)) := by
  unfold repairUpdate
  split
  · exact statusLegal_completeWith code (stageLegal_of_loaded hp Stage.noConfusion
      Stage.noConfusion) (flagsLegal_repaired true _)
  · exact statusLegal_completeWith code (stageLegal_of_loaded hp Stage.noConfusion
      Stage.noConfusion) (flagsLegal_repaired false _)

/-- PROCESS where it runs: the pixel rows are valid then, and the stage is BinaryEncoded (R194). -/
theorem statusLegal_processUpdate {s : State} {bx by_ : Nat} (h : ProcessAllowed s bx by_)
    (code : ErrCode) :
    StatusLegal (completeWith code (processUpdate Config.params bx by_ s)) := by
  obtain ⟨-, hp, -⟩ := h
  rw [processUpdate_eq]
  exact statusLegal_completeWith code
    (stageLegal_of_loaded hp Stage.noConfusion Stage.noConfusion) (flagsLegal_encodeBlock _ _ _ _)

/-- The reset values are consistent (R261). -/
theorem statusLegal_reset : StatusLegal State.reset := by
  unfold StatusLegal
  decide

/-- `Reset()` leaves the reset values (R260). -/
theorem statusLegal_resetBlock (s : State) : StatusLegal (resetBlock s) := statusLegal_reset

/-- Every command keeps the invariant. -/
theorem statusLegal_commandResult {s : State} (h : StatusLegal s) (i : Instr) :
    StatusLegal (commandResult i s) := by
  unfold commandResult
  cases i with
  | nop => exact statusLegal_completeWith_self h _
  | detect =>
    dsimp only
    split
    · exact statusLegal_completeWith_self h _
    · next hp => exact statusLegal_detectUpdate (not_not.1 hp) _
  | repair =>
    dsimp only
    split
    · exact statusLegal_completeWith_self h _
    · next hp => exact statusLegal_repairUpdate _ (not_not.1 hp) _
  | process bx by_ =>
    dsimp only
    rcases processCommand_cases Config.params bx by_ s with ⟨code, -, -, he⟩ | ⟨hn, he⟩ <;> rw [he]
    · exact statusLegal_completeWith_self h _
    · exact statusLegal_processUpdate (processError_eq_none.1 hn) _
  | linkrst => exact statusLegal_completeWith_self (s := invalidateBanks s) h _
  | framenext => exact statusLegal_completeWith_self (s := advanceFrame s) h _
  | sreset => exact statusLegal_resetBlock s

/-- The completion of any command word keeps the invariant, ILLEGAL ones included (R85, R109). -/
theorem statusLegal_completion {s : State} (h : StatusLegal s) (cmd : Word) :
    StatusLegal (completion cmd s) := by
  unfold completion
  split
  · exact statusLegal_commandResult h _
  · exact statusLegal_completeWith_self h _

/-- The engine's turn keeps the invariant. -/
theorem statusLegal_afterEngine {s : State} (h : StatusLegal s) : StatusLegal (afterEngine s) := by
  unfold afterEngine
  split
  · exact h
  · split
    · exact statusLegal_completion h _
    · exact h

/-! ### Accesses -/

/-- A pixel row write sets the stage from PIXVALID (R29, R103). -/
theorem stageLegal_writePix (y : Fin 8) (v : Word) (s : State) : StageLegal (writePix y v s) := by
  simp only [StageLegal, writePix, stageOfPixvalid]
  split
  · next hp => exact ⟨iff_of_false Stage.noConfusion (not_not_intro hp), Stage.noConfusion⟩
  · next hp => exact ⟨iff_of_true rfl hp, Stage.noConfusion⟩

/-- A pixel row write keeps the invariant (R103). -/
theorem statusLegal_writePix {s : State} (h : StatusLegal s) (y : Fin 8) (v : Word) :
    StatusLegal (writePix y v s) := by
  obtain ⟨hdone, -, hf⟩ := statusLegal_iff.1 h
  exact statusLegal_iff.2 ⟨hdone, stageLegal_writePix y v s, hf⟩

/-- A write of CTRL touches the mode and the banks only (R104). -/
theorem statusLegal_writeCtrl {s : State} (h : StatusLegal s) (v : Word) :
    StatusLegal (writeCtrl v s) := by
  rcases writeCtrl_cases v s with ⟨-, he⟩ | ⟨-, he⟩ <;> rw [he] <;> exact h

/-- A write of STATUS clears DONE and ERR_BUSY at most (R107). -/
theorem statusLegal_writeStatus {s : State} (h : StatusLegal s) (v : Word) :
    StatusLegal (writeStatus v s) := by
  obtain ⟨hdone, hs, hf⟩ := statusLegal_iff.1 h
  exact statusLegal_iff.2 ⟨fun hp => by simp [writeStatus, hdone hp], hs, hf⟩

/-- Accepting a command clears DONE (R108). -/
theorem statusLegal_acceptCommand {s : State} (h : StatusLegal s) (cmd : Word) :
    StatusLegal (acceptCommand cmd s) := by
  obtain ⟨-, hs, hf⟩ := statusLegal_iff.1 h
  exact statusLegal_iff.2 ⟨fun _ => rfl, hs, hf⟩

/-- A performed write keeps the invariant; the registers not named change none of its fields. -/
theorem statusLegal_writeIdle {s : State} (h : StatusLegal s) (r : Reg) (v : Word) :
    StatusLegal (writeIdle r v s) := by
  cases r with
  | ctrl => exact statusLegal_writeCtrl h v
  | cmd => exact statusLegal_acceptCommand h v
  | status => exact statusLegal_writeStatus h v
  | pix y => exact statusLegal_writePix h y v
  | _ => exact h

/-- A write keeps the invariant, performed or dropped (R101, R102). -/
theorem statusLegal_writeReg {s : State} (h : StatusLegal s) (r : Reg) (v : Word) :
    StatusLegal (writeReg r v s) := by
  unfold writeReg
  split
  · exact h
  · exact statusLegal_writeIdle h r v

/-- A read has no side effect on the block (R67). -/
theorem statusLegal_hostRead (p : Params) {s : State} (h : StatusLegal s) (width : AccessWidth)
    (off : BitVec 12) : StatusLegal (hostRead p width off s) := by
  rcases hostRead_cases p width off s with ⟨r, -, he⟩ | ⟨-, he⟩ <;> rw [he] <;> exact h

/-- A write reaches a register, or gets BusError and changes nothing of the block (R101, R238). -/
theorem statusLegal_hostWrite {s : State} (h : StatusLegal s) (width : AccessWidth)
    (off : BitVec 12) (v : Word) : StatusLegal (hostWrite width off v s) := by
  rcases hostWrite_cases width off v s with ⟨r, -, he⟩ | ⟨-, he⟩ <;> rw [he]
  · exact statusLegal_writeReg h r v
  · exact h

/-- A host access keeps the invariant; one made during reset is not answered (R260). -/
theorem statusLegal_hostAccess (p : Params) {s : State} (h : StatusLegal s) (a : BusAccess) :
    StatusLegal (hostAccess p a s) := by
  unfold hostAccess
  split
  · exact h
  · cases a with
    | read width off => exact statusLegal_hostRead p h width off
    | write width off v => exact statusLegal_hostWrite h width off v

/-! ### Steps -/

/-- Driving the reset input keeps the invariant: it resets, or only releases the input (R260). -/
theorem statusLegal_driveReset {s : State} (h : StatusLegal s) (asserted : Bool) :
    StatusLegal (driveReset asserted s) := by
  cases asserted with
  | false => exact h
  | true => exact statusLegal_resetBlock s

/-- Every event keeps the invariant. -/
theorem statusLegal_afterInput {s : State} (h : StatusLegal s) (e : Input) :
    StatusLegal (afterInput e s) := by
  cases e with
  | access a => exact statusLegal_hostAccess _ h a
  | engine => exact statusLegal_afterEngine h
  | rst asserted => exact statusLegal_driveReset h asserted

theorem statusLegal_afterStep {s : State} (h : StatusLegal s) : StatusLegal (afterStep s) := by
  unfold afterStep
  cases s.inputs with
  | nil => exact statusLegal_afterEngine h
  | cons e rest => exact statusLegal_afterInput (s := { s with inputs := rest }) h e

/-- Settles O55: by the event of the step; the engine's turn by the command it completes, an access
by the register it writes. -/
theorem stepKeepsStatusLegal : Obligations.StepKeepsStatusLegal := by
  intro s t h hstep
  rw [step_eq] at hstep
  obtain rfl := Host.Outcome.next.inj hstep
  exact statusLegal_afterStep h

end Sys2Proof.Machine

/-!
SUPPORT. One step of the machine that is a host access, and the register that an access reaches
(20_memory.md R63, R64, 40_host_access.md R100, R101, 60_exceptions.md R238).
-/

namespace Sys2Proof.Machine

/-! ### The window -/

/-- An offset is below the window's size, so its address lies in the window (R60). -/
theorem windowOffset_hostAddress (off : BitVec 12) : windowOffset (hostAddress off) = some off := by
  have hlt := off.isLt
  have hin : Config.bccdBase ≤ hostAddress off ∧ hostAddress off < Config.bccdBase + 4096 := by
    unfold hostAddress
    omega
  rw [windowOffset, if_pos hin, hostAddress, Nat.add_sub_cancel_left, BitVec.ofNat_toNat,
    BitVec.setWidth_eq]

/-- Every address of the window is the address of an offset (R60). -/
theorem exists_hostAddress_eq {addr : Nat}
    (h : Config.bccdBase ≤ addr ∧ addr < Config.bccdBase + 4096) :
    ∃ off : BitVec 12, addr = hostAddress off :=
  ⟨BitVec.ofNat 12 (addr - Config.bccdBase), by
    rw [hostAddress, BitVec.toNat_ofNat]
    omega⟩

/-- Settles O6: the offsets below 4096 are exactly the distances from BCCD_BASE in the window. -/
theorem windowAddresses : Obligations.WindowAddresses :=
  ⟨Nat.mul_mod_right _ _, windowOffset_hostAddress, fun _ hout =>
    if_neg fun hin => (exists_hostAddress_eq hin).elim hout⟩

/-! ### The register an access reaches -/

/-- A word access at the offset of a register reaches the register (R20, R63). -/
theorem accessTarget_regOffset (r : Reg) : accessTarget .word (regOffset r) = some r :=
  regAt_regOffset r

/-- A narrow, a misaligned and an unmapped access reach no register (R63, R64). -/
theorem accessTarget_eq_none {width : AccessWidth} {off : BitVec 12}
    (h : width ≠ .word ∨ off.toNat % 4 ≠ 0 ∨ ∀ r : Reg, off ≠ regOffset r) :
    accessTarget width off = none := by
  cases width with
  | byte => rfl
  | half => rfl
  | word =>
    cases hr : regAt off with
    | none => exact hr
    | some r =>
      have hoff := regOffset_of_regAt hr
      rcases h with hw | halign | hunmapped
      · exact absurd rfl hw
      · rw [regAt_eq_none_of_outside (.inl halign)] at hr
        cases hr
      · exact absurd hoff.symm (hunmapped r)

/-! ### A step that is an access -/

/-- A step whose event is a host access is that access (R69; log 1). -/
theorem step_access {s : State} {a : BusAccess} {rest : List Input}
    (h : s.inputs = .access a :: rest) :
    step s = .next (hostAccess Config.params a { s with inputs := rest }) := by
  rw [step_eq, afterStep, h]
  rfl

/-- A step that is a read, with the reset input released (R100, R260). -/
theorem step_read {s : State} {width : AccessWidth} {off : BitVec 12} {rest : List Input}
    (hrst : s.rst = false) (h : s.inputs = .access (.read width off) :: rest) :
    step s = .next (hostRead Config.params width off { s with inputs := rest }) := by
  rw [step_access h]
  simp [hostAccess, hrst]

/-- A step that is a write, with the reset input released (R101, R260). -/
theorem step_write {s : State} {width : AccessWidth} {off : BitVec 12} {v : Word}
    {rest : List Input} (hrst : s.rst = false)
    (h : s.inputs = .access (.write width off v) :: rest) :
    step s = .next (hostWrite width off v { s with inputs := rest }) := by
  rw [step_access h]
  simp [hostAccess, hrst]

/-- A read that reaches a register answers what the register reads (R100). -/
theorem hostRead_of_target (p : Params) (s : State) {width : AccessWidth} {off : BitVec 12}
    {r : Reg} (h : accessTarget width off = some r) :
    hostRead p width off s = answerRead (.data (readReg p s r)) s := by
  rw [hostRead, h]

/-- A read that reaches no register gets BusError with undefined data (R238). -/
theorem hostRead_of_no_target (p : Params) (s : State) {width : AccessWidth} {off : BitVec 12}
    (h : accessTarget width off = none) :
    hostRead p width off s = answerRead (.readError (freeDraw s)) s := by
  rw [hostRead, h]

/-- A write that reaches no register gets BusError (R238). -/
theorem hostWrite_of_no_target (s : State) {width : AccessWidth} {off : BitVec 12} (v : Word)
    (h : accessTarget width off = none) : hostWrite width off v s = answer .writeError s := by
  rw [hostWrite, h]

/-- What a register reads does not depend on the events to come. -/
theorem readReg_inputs (p : Params) (s : State) (rest : List Input) (r : Reg) :
    readReg p { s with inputs := rest } r = readReg p s r := by
  cases r <;> rfl

/-- A read leaves the block as it is, answered by a register, by BusError or, during reset, not at
all (R67, R238, R260). -/
theorem hostAccess_read_frame (p : Params) (width : AccessWidth) (off : BitVec 12) (s : State) :
    ∃ (a : Option BusAnswer) (n : Nat),
      hostAccess p (.read width off) s = { s with resp := a, draws := n } := by
  unfold hostAccess
  split
  · exact ⟨_, _, rfl⟩
  · rcases hostRead_cases p width off s with ⟨r, -, he⟩ | ⟨-, he⟩ <;> exact ⟨_, _, he⟩

/-- Settles O39: the access reaches no register, so the bus answers an error. -/
theorem busErrorHasNoEffect : Obligations.BusErrorHasNoEffect := by
  intro s rest width off v hrst hbad
  have htarget := accessTarget_eq_none hbad
  constructor
  · intro hin
    rw [step_write hrst hin, hostWrite_of_no_target _ _ htarget, answer]
  · intro hin
    refine ⟨freeDraw s, ?_⟩
    rw [step_read hrst hin, hostRead_of_no_target _ _ htarget]
    rfl

/-- Settles O40: the frame of a read, and what a word read at a register's offset answers. -/
theorem readsHaveNoSideEffect : Obligations.ReadsHaveNoSideEffect := by
  intro s rest width off hin
  constructor
  · obtain ⟨a, n, he⟩ :=
      hostAccess_read_frame Config.params width off { s with inputs := rest }
    exact ⟨_, step_access hin, by rw [he]⟩
  · rintro r hrst rfl rfl
    rw [step_read hrst hin, hostRead_of_target _ _ (accessTarget_regOffset r), readReg_inputs]
    rfl

end Sys2Proof.Machine

/-!
The invariant `ReservedZero`: every command, every access and every other event keeps the reserved
bits at 0 (20_memory.md R65).
-/

namespace Sys2Proof.Machine

open BitVec (getLsbD_append)

/-! ### The words that are stored -/

/-- What a configuration register stores of a value has no reserved bit (R65, R104 to R106). -/
theorem masked_reserved (v mask : Word) : v &&& mask &&& ~~~mask = 0 := by
  rw [BitVec.and_assoc, BitVec.and_not_self]
  exact BitVec.and_zero

/-- The reserved bits of DISTINCT are 0 in every word the block puts there (R30). -/
theorem distinctWord_reserved (dDetect dFinal : Nat) :
    distinctWord dDetect dFinal &&& ~~~(0x00001F1F : Word) = 0 := by
  refine and_mask_eq_zero [5, 6, 7, 13, 14, 15, 16, 17, 18, 19, 20, 21, 22, 23, 24, 25, 26, 27, 28,
    29, 30, 31] (by decide) ?_
  simp only [distinctWord, getLsbD_append, List.forall_mem_cons, Nat.reduceLT, Nat.reduceSub,
    if_true, if_false, BitVec.getLsbD_ofNat, Nat.zero_testBit, Bool.and_false, true_and,
    List.not_mem_nil, false_imp_iff, implies_true]

/-- The bits 31:16 of SUMMARY are 0 in both modes (R33, R156). -/
theorem summaryWord_reserved (m : Mode) (t : SlotTable) :
    summaryWord m t &&& ~~~(0x0000FFFF : Word) = 0 := by
  refine and_mask_eq_zero [16, 17, 18, 19, 20, 21, 22, 23, 24, 25, 26, 27, 28, 29, 30, 31]
    (by decide) ?_
  cases m <;>
    simp only [summaryWord, getLsbD_append, List.forall_mem_cons, Nat.reduceLT, Nat.reduceSub,
      if_false, BitVec.getLsbD_ofNat, Nat.zero_testBit, Bool.and_false, true_and,
      List.not_mem_nil, false_imp_iff, implies_true]

/-! ### Commands -/

/-- HIST and DISTINCT are written with legal words (R30, R38). -/
theorem reservedZero_writeCounts {s : State} (h : ReservedZero s) (d : Nat) (m : Mode)
    (pix : PixelRows) : ReservedZero (writeCounts d m pix s) := by
  obtain ⟨hctrl, hbg, hgtab, hgrid, hlinksel, -, hsummary⟩ := h
  exact ⟨hctrl, hbg, hgtab, hgrid, hlinksel, distinctWord_reserved _ _, hsummary⟩

/-- REPAIR writes DISTINCT and no other register with reserved bits, clashed or not (R175). -/
theorem reservedZero_repairUpdate {s : State} (h : ReservedZero s) (p : Params) :
    ReservedZero (repairUpdate p s) := by
  unfold repairUpdate
  split
  · exact reservedZero_writeCounts h (distinctCount s) (ctrlMode s) (repairState p s).pix
  · exact reservedZero_writeCounts h (distinctCount s) (ctrlMode s) s.pix

/-- PROCESS writes DISTINCT and SUMMARY and keeps the configuration (R194). -/
theorem reservedZero_encodeBlock {s : State} (h : ReservedZero s) (idx : Nat) (prev : LinkRecord)
    (a : BlockAnalysis) : ReservedZero (encodeBlock s idx prev a) := by
  obtain ⟨hctrl, hbg, hgtab, hgrid, hlinksel, -, -⟩ := h
  exact ⟨hctrl, hbg, hgtab, hgrid, hlinksel, distinctWord_reserved _ _, summaryWord_reserved _ _⟩

/-- The reset values have no reserved bit (R261). -/
theorem reservedZero_reset : ReservedZero State.reset := by
  unfold ReservedZero
  decide

/-- `Reset()` leaves the reset values (R260). -/
theorem reservedZero_resetBlock (s : State) : ReservedZero (resetBlock s) := reservedZero_reset

/-- Every command keeps the reserved bits at 0, an error completion included. -/
theorem reservedZero_commandResult {s : State} (h : ReservedZero s) (i : Instr) :
    ReservedZero (commandResult i s) := by
  unfold commandResult
  cases i with
  | nop => exact h
  | detect =>
    dsimp only
    split
    · exact h
    · exact reservedZero_writeCounts h (distinctCount s) (ctrlMode s) s.pix
  | repair =>
    dsimp only
    split
    · exact h
    · exact reservedZero_repairUpdate h Config.params
  | process bx by_ =>
    dsimp only
    rcases processCommand_cases Config.params bx by_ s with ⟨code, -, -, he⟩ | ⟨-, he⟩ <;> rw [he]
    · exact h
    · exact reservedZero_encodeBlock h (blockIndex s bx by_) (previousRecord s bx by_)
        (analyzeBlock Config.params s (previousRecord s bx by_))
  | linkrst => exact h
  | framenext => exact h
  | sreset => exact reservedZero_resetBlock s

/-- The completion of any command word keeps the reserved bits at 0 (R85, R109). -/
theorem reservedZero_completion {s : State} (h : ReservedZero s) (cmd : Word) :
    ReservedZero (completion cmd s) := by
  unfold completion
  split
  · exact reservedZero_commandResult h _
  · exact h

/-- The engine's turn keeps the reserved bits at 0. -/
theorem reservedZero_afterEngine {s : State} (h : ReservedZero s) :
    ReservedZero (afterEngine s) := by
  unfold afterEngine
  split
  · exact h
  · split
    · exact reservedZero_completion h _
    · exact h

/-! ### Accesses -/

/-- A write of CTRL stores its unreserved bits, whatever becomes of the banks (R104). -/
theorem reservedZero_writeCtrl {s : State} (h : ReservedZero s) (v : Word) :
    ReservedZero (writeCtrl v s) := by
  obtain ⟨-, hrest⟩ := h
  rcases writeCtrl_cases v s with ⟨-, he⟩ | ⟨-, he⟩ <;> rw [he] <;>
    exact ⟨masked_reserved v ctrlMask, hrest⟩

/-- A performed write stores the unreserved bits of the value in a configuration register; the
registers not named change none of the fields with reserved bits. -/
theorem reservedZero_writeIdle {s : State} (h : ReservedZero s) (r : Reg) (v : Word) :
    ReservedZero (writeIdle r v s) := by
  have ⟨hctrl, hbg, hgtab, hgrid, hlinksel, hreports⟩ := h
  cases r with
  | ctrl => exact reservedZero_writeCtrl h v
  | bg => exact ⟨hctrl, masked_reserved v bgMask, hgtab, hgrid, hlinksel, hreports⟩
  | gtab => exact ⟨hctrl, hbg, masked_reserved v gtabMask, hgrid, hlinksel, hreports⟩
  | grid => exact ⟨hctrl, hbg, hgtab, masked_reserved v gridMask, hlinksel, hreports⟩
  | linksel => exact ⟨hctrl, hbg, hgtab, hgrid, masked_reserved v linkselMask, hreports⟩
  | _ => exact h

/-- A write keeps the reserved bits at 0, performed or dropped (R101, R102). -/
theorem reservedZero_writeReg {s : State} (h : ReservedZero s) (r : Reg) (v : Word) :
    ReservedZero (writeReg r v s) := by
  unfold writeReg
  split
  · exact h
  · exact reservedZero_writeIdle h r v

/-- A write reaches a register, or gets BusError and changes nothing of the block (R101, R238). -/
theorem reservedZero_hostWrite {s : State} (h : ReservedZero s) (width : AccessWidth)
    (off : BitVec 12) (v : Word) : ReservedZero (hostWrite width off v s) := by
  rcases hostWrite_cases width off v s with ⟨r, -, he⟩ | ⟨-, he⟩ <;> rw [he]
  · exact reservedZero_writeReg h r v
  · exact h

/-- A host access keeps the reserved bits at 0; a read changes nothing of the block (R67). -/
theorem reservedZero_hostAccess (p : Params) {s : State} (h : ReservedZero s) (a : BusAccess) :
    ReservedZero (hostAccess p a s) := by
  cases a with
  | read width off =>
    obtain ⟨a, n, he⟩ := hostAccess_read_frame p width off s
    rw [he]
    exact h
  | write width off v =>
    unfold hostAccess
    split
    · exact h
    · exact reservedZero_hostWrite h width off v

/-! ### Steps -/

/-- Every event keeps the reserved bits at 0; the reset input resets, or is only released (R260). -/
theorem reservedZero_afterInput {s : State} (h : ReservedZero s) (e : Input) :
    ReservedZero (afterInput e s) := by
  cases e with
  | access a => exact reservedZero_hostAccess _ h a
  | engine => exact reservedZero_afterEngine h
  | rst asserted =>
    cases asserted with
    | false => exact h
    | true => exact reservedZero_resetBlock s

/-- The step is the engine's turn or the next event (log 1). -/
theorem reservedZero_afterStep {s : State} (h : ReservedZero s) : ReservedZero (afterStep s) := by
  unfold afterStep
  cases s.inputs with
  | nil => exact reservedZero_afterEngine h
  | cons e rest => exact reservedZero_afterInput (s := { s with inputs := rest }) h e

/-- Settles O54: by the event of the step; DISTINCT and SUMMARY by the words the commands write, a
configuration register by the mask of its write. -/
theorem stepKeepsReservedZero : Obligations.StepKeepsReservedZero := by
  intro s t h hstep
  rw [step_eq] at hstep
  obtain rfl := Host.Outcome.next.inj hstep
  exact reservedZero_afterStep h

end Sys2Proof.Machine

/-!
SUPPORT. The decoder and the encoder as inverse functions (30_encoding.md R80 to R86): the fields of
a command word as digits of its number, the outcomes of `decode`, and the words `encode` gives.
-/

namespace Sys2Proof.Machine

/-! ### The fields of a command word as numbers -/

/-- OP is the lowest byte of the word (R80). -/
theorem opcodeField_toNat (w : Word) : (opcodeField w).toNat = w.toNat % 256 := by
  simp [opcodeField]

/-- BX is the second byte (R82). -/
theorem bxField_toNat (w : Word) : (bxField w).toNat = w.toNat / 256 % 256 := by
  simp [bxField, Nat.shiftRight_eq_div_pow]

/-- BY is the third byte (R82). -/
theorem byField_toNat (w : Word) : (byField w).toNat = w.toNat / 65536 % 256 := by
  simp [byField, Nat.shiftRight_eq_div_pow]

/-- The must-be-zero bits of format N are 0 where the word is its opcode alone (R81). -/
theorem mbzFieldN_eq_zero_iff (w : Word) : mbzFieldN w = 0 ↔ w.toNat < 256 := by
  have := w.isLt
  rw [← BitVec.toNat_inj]
  simp only [mbzFieldN, BitVec.extractLsb'_toNat, Nat.shiftRight_eq_div_pow]
  change _ = 0 ↔ _
  omega

/-- The must-be-zero bits of format B are 0 where the word fits 24 bits (R82). -/
theorem mbzFieldB_eq_zero_iff (w : Word) : mbzFieldB w = 0 ↔ w.toNat < 2 ^ 24 := by
  have := w.isLt
  rw [← BitVec.toNat_inj]
  simp only [mbzFieldB, BitVec.extractLsb'_toNat, Nat.shiftRight_eq_div_pow]
  change _ = 0 ↔ _
  omega

/-- The opcode of PROCESS, as a number (R84). -/
theorem opcodeField_eq_three_iff (w : Word) : opcodeField w = 0x03 ↔ w.toNat % 256 = 3 := by
  rw [← opcodeField_toNat, ← BitVec.toNat_inj]
  rfl

/-! ### The encoder -/

/-- PROCESS is well-formed where both coordinates are bytes (R82). -/
theorem wellFormed_process {bx by_ : Nat} :
    (Instr.process bx by_).wellFormed = true ↔ bx < 256 ∧ by_ < 256 := by
  simp [Instr.wellFormed, coordinateOk]

/-- The word of PROCESS as a number: its fields do not overlap, so the `or` is a sum (R82). -/
theorem encode_process_toNat {bx by_ : Nat} (hbx : bx < 256) (hby : by_ < 256) :
    (encode (.process bx by_)).toNat = 3 + 256 * bx + 65536 * by_ := by
  have hx : 3 ||| 2 ^ 8 * bx = 2 ^ 8 * bx + 3 :=
    (Nat.or_comm _ _).trans (Nat.two_pow_add_eq_or_of_lt (by decide) _).symm
  have hy : (2 ^ 8 * bx + 3) ||| 2 ^ 16 * by_ = 2 ^ 16 * by_ + (2 ^ 8 * bx + 3) :=
    (Nat.or_comm _ _).trans (Nat.two_pow_add_eq_or_of_lt (by omega) _).symm
  have hbx' : (BitVec.ofNat 32 bx <<< 8).toNat = 2 ^ 8 * bx := by
    rw [BitVec.toNat_shiftLeft, BitVec.toNat_ofNat, Nat.shiftLeft_eq]
    omega
  have hby' : (BitVec.ofNat 32 by_ <<< 16).toNat = 2 ^ 16 * by_ := by
    rw [BitVec.toNat_shiftLeft, BitVec.toNat_ofNat, Nat.shiftLeft_eq]
    omega
  have hop : (opcodeOf (.process bx by_)).toNat = 3 := rfl
  rw [encode, BitVec.toNat_or, BitVec.toNat_or, hbx', hby', hop, hx, hy]
  omega

/-! ### Format N -/

/-- A format N command is well-formed, and its word is its opcode (R81, R84). -/
theorem formatNCommand_eq_some {op : BitVec 8} {i : Instr} (h : formatNCommand op = some i) :
    i.wellFormed = true ∧ encode i = op.setWidth 32 := by
  unfold formatNCommand at h
  split_ifs at h <;> cases h <;> subst op <;> exact ⟨rfl, rfl⟩

/-- The opcodes without a format N command: that of PROCESS and the reserved ones (R84, R85). -/
theorem formatNCommand_eq_none_iff :
    ∀ op : BitVec 8, formatNCommand op = none ↔ op.toNat = 3 ∨ 6 < op.toNat := by decide

/-! ### The decoder -/

/-- Every outcome of the decoder, by the number of the word (R85, R86). -/
theorem decode_cases (w : Word) :
    (w.toNat % 256 = 3 ∧ w.toNat < 2 ^ 24 ∧
      decode w = .ok (.process (w.toNat / 256 % 256) (w.toNat / 65536 % 256))) ∨
    (w.toNat % 256 = 3 ∧ 2 ^ 24 ≤ w.toNat ∧ decode w = .error .nonzeroMbz) ∨
    (6 < w.toNat % 256 ∧ decode w = .error .reservedOpcode) ∨
    (w.toNat % 256 ≠ 3 ∧ w.toNat % 256 ≤ 6 ∧ 256 ≤ w.toNat ∧ decode w = .error .nonzeroMbz) ∨
    (w.toNat ≠ 3 ∧ w.toNat ≤ 6 ∧
      ∃ i, formatNCommand (opcodeField w) = some i ∧ decode w = .ok i) := by
  have hnone := formatNCommand_eq_none_iff (opcodeField w)
  rw [opcodeField_toNat] at hnone
  simp only [decode, opcodeField_eq_three_iff, ne_eq, mbzFieldB_eq_zero_iff, mbzFieldN_eq_zero_iff,
    bxField_toNat, byField_toNat]
  by_cases hop : w.toNat % 256 = 3
  · by_cases hm : w.toNat < 2 ^ 24
    · exact .inl ⟨hop, hm, by rw [if_pos hop, if_neg (not_not_intro hm)]⟩
    · exact .inr (.inl ⟨hop, not_lt.1 hm, by rw [if_pos hop, if_pos hm]⟩)
  · rw [if_neg hop]
    refine .inr (.inr ?_)
    cases hf : formatNCommand (opcodeField w) with
    | none => exact .inl ⟨(hnone.1 hf).resolve_left hop, rfl⟩
    | some i =>
      have hle : w.toNat % 256 ≤ 6 := not_lt.1 fun hlt => by simp [hf, hlt] at hnone
      by_cases hm : w.toNat < 256
      · exact .inr (.inr ⟨by omega, by omega, i, rfl, if_neg (not_not_intro hm)⟩)
      · exact .inr (.inl ⟨hop, hle, not_lt.1 hm, if_pos hm⟩)

/-- Settles O1: PROCESS by the number of its word, every other command by its one word. -/
theorem decodeOfEncode : Obligations.DecodeOfEncode := by
  intro i hwf
  cases i with
  | process bx by_ =>
    obtain ⟨hbx, hby⟩ := wellFormed_process.1 hwf
    have hn := encode_process_toNat hbx hby
    rcases decode_cases (encode (.process bx by_)) with ⟨-, -, he⟩ | ⟨-, hm, -⟩ | ⟨hop, -⟩ |
      ⟨hop, -⟩ | ⟨hop, hle, -⟩
    · have hx : (encode (.process bx by_)).toNat / 256 % 256 = bx := by omega
      have hy : (encode (.process bx by_)).toNat / 65536 % 256 = by_ := by omega
      rw [he, hx, hy]
    all_goals omega
  | _ => rfl

/-- Settles O2: by the outcomes of the decoder that give a command. -/
theorem encodeOfDecode : Obligations.EncodeOfDecode := by
  intro w i h
  rcases decode_cases w with ⟨hop, hm, he⟩ | ⟨-, -, he⟩ | ⟨-, he⟩ | ⟨-, -, -, he⟩ |
    ⟨-, hle, j, hf, he⟩ <;> cases he.symm.trans h
  · have hbx : w.toNat / 256 % 256 < 256 := Nat.mod_lt _ (by decide)
    have hby : w.toNat / 65536 % 256 < 256 := Nat.mod_lt _ (by decide)
    refine ⟨wellFormed_process.2 ⟨hbx, hby⟩, BitVec.eq_of_toNat_eq ?_⟩
    rw [encode_process_toNat hbx hby]
    omega
  · obtain ⟨hwf, henc⟩ := formatNCommand_eq_some hf
    refine ⟨hwf, henc.trans (BitVec.eq_of_toNat_eq ?_)⟩
    rw [BitVec.toNat_setWidth, opcodeField_toNat]
    omega

/-- Settles O3: by the outcomes of the decoder, two of them a command and three ILLEGAL. -/
theorem illegalWords : Obligations.IllegalWords := by
  intro w
  have hok {i : Instr} (he : decode w = .ok i) : ¬ ∃ e, decode w = .error e := by simp [he]
  rcases decode_cases w with ⟨hop, hm, he⟩ | ⟨hop, hm, he⟩ | ⟨hop, he⟩ | ⟨hop, -, hm, he⟩ |
    ⟨hne, hle, i, -, he⟩
  · exact iff_of_false (hok he) (by omega)
  · exact iff_of_true ⟨_, he⟩ (by omega)
  · exact iff_of_true ⟨_, he⟩ (by omega)
  · exact iff_of_true ⟨_, he⟩ (by omega)
  · exact iff_of_false (hok he) (by omega)

/-- Settles O4: the decoder evaluated on the seven words. -/
theorem tableWordsDecode : Obligations.TableWordsDecode :=
  ⟨rfl, rfl, rfl, rfl, rfl, rfl, rfl⟩

end Sys2Proof.Machine

/-!
SUPPORT. Runs of host programs (30_encoding.md R89): the events a program stands for, the steps they
take, and that a command depends on no field of the model's own (logs 1 and 5).
-/

namespace Sys2Proof.Machine

/-! ### The model's own fields -/

/-- The state with the events to come, the last answer and the number of draws replaced. -/
def withOutside (ins : List Input) (a : Option BusAnswer) (n : Nat) (s : State) : State :=
  { s with inputs := ins, resp := a, draws := n }

/-! ### What every command keeps and completes -/

/-- REPAIR neither reads nor writes the model's own fields (R175). -/
theorem repairUpdate_withOutside (p : Params) (ins : List Input) (a : Option BusAnswer) (n : Nat)
    (s : State) :
    repairUpdate p (withOutside ins a n s) = withOutside ins a n (repairUpdate p s) := by
  unfold repairUpdate
  rw [show blockClashes (withOutside ins a n s) = blockClashes s from rfl]
  cases blockClashes s <;> rfl

/-- PROCESS neither reads nor writes the model's own fields, in an error or not (R194, R236). -/
theorem processCommand_withOutside (p : Params) (bx by_ : Nat) (ins : List Input)
    (a : Option BusAnswer) (n : Nat) (s : State) :
    processCommand p bx by_ (withOutside ins a n s) =
      withOutside ins a n (processCommand p bx by_ s) := by
  unfold processCommand
  rw [show processError p (withOutside ins a n s) bx by_ = processError p s bx by_ from rfl]
  cases processError p s bx by_ <;> rfl

/-- No command reads or writes the model's own fields, so its effect does not depend on them. -/
theorem commandResult_withOutside (i : Instr) (ins : List Input) (a : Option BusAnswer) (n : Nat)
    (s : State) :
    commandResult i (withOutside ins a n s) = withOutside ins a n (commandResult i s) := by
  have hpix : (withOutside ins a n s).pixvalid = s.pixvalid := rfl
  cases i with
  | detect =>
    simp only [commandResult, hpix]
    split <;> rfl
  | repair =>
    simp only [commandResult, hpix, repairUpdate_withOutside]
    split <;> rfl
  | process bx by_ => exact processCommand_withOutside _ _ _ _ _ _ _
  | _ => rfl

/-- REPAIR leaves the reset input alone, clashed or not (R175). -/
theorem repairUpdate_rst (p : Params) (s : State) : (repairUpdate p s).rst = s.rst := by
  unfold repairUpdate
  split <;> rfl

/-- Every command leaves the block idle and the reset input alone (R109, R221, R260). -/
theorem commandResult_idle (i : Instr) (s : State) :
    (commandResult i s).pending = none ∧ (commandResult i s).rst = s.rst := by
  unfold commandResult
  cases i with
  | detect =>
    dsimp only
    split <;> exact ⟨rfl, rfl⟩
  | repair =>
    dsimp only
    split
    · exact ⟨rfl, rfl⟩
    · exact ⟨rfl, repairUpdate_rst _ _⟩
  | process bx by_ =>
    dsimp only
    rcases processCommand_cases Config.params bx by_ s with ⟨code, -, -, he⟩ | ⟨-, he⟩ <;>
      rw [he] <;> exact ⟨rfl, rfl⟩
  | _ => exact ⟨rfl, rfl⟩

/-! ### One step of a program -/

/-- A read of a register changes the model's own fields only (R67, R100). -/
theorem step_read_register {s : State} {r : Reg} (rest : List Input) (a : Option BusAnswer)
    (n : Nat) (hrst : s.rst = false) :
    step (withOutside (.access (.read .word (regOffset r)) :: rest) a n s) =
      .next (withOutside rest (some (.data (readReg Config.params (withOutside rest a n s) r)))
        (n + 1) s) := by
  have hstep := step_read (rest := rest) (width := .word) (off := regOffset r)
    (s := withOutside (.access (.read .word (regOffset r)) :: rest) a n s) hrst rfl
  rwa [hostRead_of_target _ _ (accessTarget_regOffset r)] at hstep

/-- A write that reaches a register writes it (R101). -/
theorem hostWrite_of_target (s : State) {width : AccessWidth} {off : BitVec 12} {r : Reg} (v : Word)
    (h : accessTarget width off = some r) :
    hostWrite width off v s = answer .written (writeReg r v s) := by
  rw [hostWrite, h]

/-- A step that writes a register of an idle block with the reset input released (R101). -/
theorem step_write_register {s : State} {r : Reg} {v : Word} {rest : List Input}
    (hrst : s.rst = false) (hidle : s.pending = none)
    (h : s.inputs = .access (.write .word (regOffset r) v) :: rest) :
    step s = .next (answer .written (writeIdle r v { s with inputs := rest })) := by
  have hbusy : busy { s with inputs := rest } = false := by simp [busy, hidle]
  rw [step_write hrst h, hostWrite_of_target _ _ (accessTarget_regOffset r), writeReg_idle hbusy]

/-- The acceptance of a command by an idle block (R108). -/
theorem step_accept {s : State} {cmd : Word} {rest : List Input} (hrst : s.rst = false)
    (hidle : s.pending = none)
    (h : s.inputs = .access (.write .word (regOffset .cmd) cmd) :: rest) :
    step s = .next (withOutside rest (some .written) s.draws (acceptCommand cmd s)) :=
  step_write_register hrst hidle h

/-- The engine's turn with a legal command pending is the command's effect (R109). -/
theorem step_engine_command {s : State} {cmd : Word} {i : Instr} (rest : List Input)
    (a : Option BusAnswer) (n : Nat) (hrst : s.rst = false) (hcmd : s.pending = some cmd)
    (hdec : decode cmd = .ok i) :
    step (withOutside (.engine :: rest) a n s) =
      .next (withOutside rest a n (commandResult i s)) := by
  have hturn : afterEngine (withOutside rest a n s) = commandResult i (withOutside rest a n s) := by
    simp [afterEngine, withOutside, hrst, hcmd, completion, hdec]
  rw [step_eq, ← commandResult_withOutside, ← hturn]
  rfl

/-- A run of any machine begins with its first step. -/
theorem core_run_succ (M : Host.Core) (n : Nat) {s t : M.State} (h : M.step s = .next t) :
    M.run (n + 1) s = M.run n t := by
  rw [Host.Core.run, h]

/-- A run of this machine begins with its first step. -/
theorem run_of_step {s t : State} (n : Nat) (h : step s = .next t) :
    Host.Core.run Sys2Proof.core (n + 1) s = Host.Core.run Sys2Proof.core n t :=
  core_run_succ Sys2Proof.core n h

/-! ### RUN -/

/-- The event of one poll of `WAIT`. -/
def pollInput : Input := .access (.read .word (regOffset .status))

/-- The polls of a program as events. -/
theorem programInputs_polls (polls : Nat) :
    programInputs (List.replicate polls pollLine) = List.replicate polls pollInput := by
  rw [programInputs, List.filterMap_replicate_of_some (f := lineAccess) (a := pollLine) rfl,
    List.map_replicate]
  rfl

/-- The events of `RUN`: the acceptance, the polls that find it busy, the completion, the last
poll. -/
theorem runInputs_eq (polls : Nat) (i : Instr) :
    runInputs polls i = .access (.write .word (regOffset .cmd) (encode i)) ::
      (List.replicate polls pollInput ++ [.engine, pollInput]) := by
  rw [← programInputs_polls]
  rfl

/-- Polls change the model's own fields only, whatever is pending (R67). -/
theorem run_polls (polls k : Nat) (rest : List Input) (a : Option BusAnswer) (n : Nat) {s : State}
    (hrst : s.rst = false) :
    ∃ a' n', Host.Core.run Sys2Proof.core (polls + k)
        (withOutside (List.replicate polls pollInput ++ rest) a n s) =
      Host.Core.run Sys2Proof.core k (withOutside rest a' n' s) := by
  induction polls generalizing a n with
  | zero => exact ⟨a, n, by rw [Nat.zero_add]; rfl⟩
  | succ polls ih =>
    have hpoll :=
      step_read_register (r := .status) (List.replicate polls pollInput ++ rest) a n hrst
    obtain ⟨a', n', he⟩ := ih _ _
    refine ⟨a', n', ?_⟩
    rw [Nat.add_right_comm]
    exact (run_of_step (polls + k) hpoll).trans he

/-- A poll of an idle block ends the `WAIT` loop: BUSY reads 0 (R89, R28). -/
theorem waitEnds_of_idle (p : Params) {s : State} (h : s.pending = none) :
    waitEnds (readReg p s .status) = true := by
  rw [readReg_idle p h, waitEnds, Bool.not_eq_true']
  exact (getLsbD_statusWordIdle s).1

/-- Settles O58: the acceptance, the polls, the completion of the command that the word decodes
back to, and the last poll. -/
theorem runCompletesTheCommand : Obligations.RunCompletesTheCommand := by
  intro s polls i hwf hrst hidle hin
  rw [runInputs_eq] at hin
  set accepted := acceptCommand (encode i) s
  obtain ⟨a, n, hpolls⟩ :=
    run_polls polls 2 [.engine, pollInput] (some .written) s.draws (s := accepted) hrst
  set u := commandResult i accepted
  obtain ⟨hpending, hurst⟩ : u.pending = none ∧ u.rst = s.rst := commandResult_idle i accepted
  set v := readReg Config.params (withOutside [] a n u) .status
  refine ⟨withOutside [] (some (.data v)) (n + 1) u, u, v, ?_, exec_eq i _, rfl, hpending,
    waitEnds_of_idle Config.params hpending⟩
  calc Host.Core.run Sys2Proof.core (polls + 3) s
      = Host.Core.run Sys2Proof.core (polls + 2) _ :=
        run_of_step _ (step_accept hrst hidle hin)
    _ = Host.Core.run Sys2Proof.core 2 (withOutside [.engine, pollInput] a n accepted) := hpolls
    _ = Host.Core.run Sys2Proof.core 1 (withOutside [pollInput] a n u) :=
        run_of_step _ (step_engine_command _ a n hrst rfl (decodeOfEncode i hwf))
    _ = .next (withOutside [] (some (.data v)) (n + 1) u) :=
        run_of_step 0 (step_read_register [] a n (hurst.trans hrst))

/-! ### LOADROWS -/

/-- The event that writes one row. -/
def rowInput (rows : PixelRows) (y : Fin 8) : Input :=
  .access (.write .word (regOffset (.pix y)) rows[y])

/-- The events of `LOADROWS`, one write per row. -/
theorem programInputs_loadRows (rows : PixelRows) :
    programInputs (loadRows rows) = (List.finRange 8).map (rowInput rows) := rfl

/-- The pixel buffer after the writes of some rows. -/
def rowsStored (rows : PixelRows) (ys : List (Fin 8)) (pix : PixelRows) : PixelRows :=
  ys.foldl (fun (p : PixelRows) (y : Fin 8) => p.set y rows[y]) pix

/-- PIXVALID after the writes of some rows. -/
def rowsMarked (ys : List (Fin 8)) (valid : BitVec 8) : BitVec 8 :=
  ys.foldl (fun v y => v ||| (1#8 <<< y.val)) valid

/-- A row that is written holds the new word, any other its old one. -/
theorem getElem_rowsStored (rows : PixelRows) (ys : List (Fin 8)) (pix : PixelRows) (z : Fin 8) :
    (rowsStored rows ys pix)[z] = if z ∈ ys then rows[z] else pix[z] := by
  induction ys generalizing pix with
  | nil => simp [rowsStored]
  | cons y ys ih =>
    rw [show rowsStored rows (y :: ys) pix = rowsStored rows ys (pix.set y rows[y]) from rfl, ih]
    by_cases hz : z ∈ ys
    · simp [hz]
    · by_cases hy : z = y
      · simp [hy]
      · have hne : y.val ≠ z.val := fun he => hy (Fin.ext he.symm)
        simp [hz, hy, hne]

/-- Writing every row replaces the buffer. -/
theorem rowsStored_all (rows pix : PixelRows) : rowsStored rows (List.finRange 8) pix = rows :=
  Vector.ext fun k hk => by
    simpa using getElem_rowsStored rows (List.finRange 8) pix ⟨k, hk⟩

/-- Writing every row makes every row valid, whichever were before (R36). -/
theorem rowsMarked_all : ∀ valid : BitVec 8, rowsMarked (List.finRange 8) valid = 0xFF := by decide

/-- The state the writes of some rows leave when no event follows (R103). -/
def afterRows (rows : PixelRows) (ys : List (Fin 8)) (s : State) : State :=
  { s with
    inputs := [], resp := some .written
    pix := rowsStored rows ys s.pix, pixvalid := rowsMarked ys s.pixvalid
    stage := stageOfPixvalid (rowsMarked ys s.pixvalid) }

/-- A run of row writes on an idle block; the stage is the one the last write sets (R103). -/
theorem run_rows (rows : PixelRows) (y : Fin 8) (ys : List (Fin 8)) {s : State}
    (hrst : s.rst = false) (hidle : s.pending = none)
    (h : s.inputs = (y :: ys).map (rowInput rows)) :
    Host.Core.run Sys2Proof.core (y :: ys).length s = .next (afterRows rows (y :: ys) s) := by
  induction ys generalizing s y with
  | nil => exact run_of_step 0 (step_write_register hrst hidle h)
  | cons z zs ih =>
    exact (run_of_step _ (step_write_register hrst hidle h)).trans (ih z hrst hidle rfl)

/-- Settles O59: the run of the eight writes, which store and validate every row. -/
theorem loadRowsFillsTheBuffer : Obligations.LoadRowsFillsTheBuffer := by
  intro s rows hrst hidle hin
  rw [programInputs_loadRows] at hin
  refine ⟨_, run_rows rows 0 [1, 2, 3, 4, 5, 6, 7] hrst hidle hin, ?_⟩
  change afterRows rows (List.finRange 8) s = _
  rw [afterRows, rowsStored_all, rowsMarked_all]
  rfl

end Sys2Proof.Machine

/-!
The pending command: the step that completes it, what host accesses made before that step change,
and that it completes (40_host_access.md R102, R109, 70_reset_and_hazards.md R260, R268, R269).
-/

namespace Sys2Proof.Machine

/-! ### The engine's turn -/

/-- With no event left the engine moves (log 1). -/
theorem step_of_no_inputs {s : State} (h : s.inputs = []) : step s = engineTurn s := by
  rw [step, nextEvent, h]

/-- A step whose event is the engine's turn. -/
theorem step_engine {s : State} {rest : List Input} (h : s.inputs = .engine :: rest) :
    step s = engineTurn { s with inputs := rest } := by
  rw [step, nextEvent, h]
  rfl

/-- With the reset input released the engine completes the pending command (R109). -/
theorem engineTurn_of_pending {s : State} {cmd : Word} (hrst : s.rst = false)
    (hcmd : s.pending = some cmd) : engineTurn s = completeCommand cmd s := by
  simp [engineTurn, fetchCommand, hrst, hcmd]

/-- A legal word is executed (R109). -/
theorem completeCommand_of_ok {cmd : Word} {i : Instr} (h : decode cmd = .ok i) (s : State) :
    completeCommand cmd s = exec i s := by
  rw [completeCommand, h]

/-- An illegal word completes with ILLEGAL (R85, R232). -/
theorem completeCommand_of_error {cmd : Word} {e : DecodeError} (h : decode cmd = .error e)
    (s : State) : completeCommand cmd s = .next (completeWith .illegal s) := by
  rw [completeCommand, h]
  rfl

/-- Settles O7: the engine's turn is the completion of the pending word, which executes what the
word decodes to. -/
theorem stepRunsThePendingCommand : Obligations.StepRunsThePendingCommand := by
  intro s cmd hrst hcmd
  have hlast : s.inputs = [] → step s = completeCommand cmd s := fun h =>
    (step_of_no_inputs h).trans (engineTurn_of_pending hrst hcmd)
  have hturn : ∀ rest, s.inputs = .engine :: rest →
      step s = completeCommand cmd { s with inputs := rest } := fun rest h =>
    (step_engine h).trans (engineTurn_of_pending hrst hcmd)
  refine ⟨fun i hdec => ⟨fun h => ?_, fun rest h => ?_⟩,
    fun e hdec => ⟨fun h => ?_, fun rest h => ?_⟩⟩
  · rw [hlast h, completeCommand_of_ok hdec]
  · rw [hturn rest h, completeCommand_of_ok hdec]
  · exact ⟨_, (hlast h).trans (completeCommand_of_error hdec s), rfl⟩
  · exact ⟨_, (hturn rest h).trans (completeCommand_of_error hdec _), rfl⟩

/-! ### Loading a command word -/

/-- A table word that decodes is decoded by the block's decoder. -/
theorem decode_tableWord {nbits w : Nat} {i : Instr} (h : decodeTableWord nbits w = some i) :
    decode (tableWord nbits w) = .ok i := by
  unfold decodeTableWord at h
  split at h
  · next hdec => rw [hdec, Option.some.inj h]
  · cases h

/-- The block with a word accepted, the reset input released and the given events to come
(R108; log 1). -/
def loadedState (cmd : Word) (ins : List Input) (s : State) : State :=
  { acceptCommand cmd s with rst := false, inputs := ins }

/-- Loading a word puts the engine's turn before the events to come, unless it already is next. -/
theorem withCommand_eq (cmd : Word) (s : State) :
    withCommand cmd s =
      loadedState cmd (if engineNext s then s.inputs else .engine :: s.inputs) s := rfl

/-- With no event to come a loaded legal word runs at the next step (R109; log 1). -/
theorem step_loadedState_nil {cmd : Word} {i : Instr} (h : decode cmd = .ok i) (s : State) :
    step (loadedState cmd [] s) = exec i (loadedState cmd [] s) :=
  ((stepRunsThePendingCommand _ cmd rfl rfl).1 i h).1 rfl

/-- With the engine's turn next a loaded legal word runs at the next step (R109). -/
theorem step_loadedState_engine {cmd : Word} {i : Instr} (h : decode cmd = .ok i)
    (rest : List Input) (s : State) :
    step (loadedState cmd (.engine :: rest) s) = exec i (loadedState cmd rest s) :=
  ((stepRunsThePendingCommand _ cmd rfl rfl).1 i h).2 rest rfl

/-- Settles O8: the loaded state has the engine's turn next, put before the events to come where
they do not begin with it. -/
theorem fetchWordRunsNext : Obligations.FetchWordRunsNext := by
  intro s nbits w i htable
  have hdec := decode_tableWord htable
  rw [State.withFetchWord, withCommand_eq, engineNext]
  match s.inputs with
  | [] => exact ⟨[], step_loadedState_nil hdec s, by simp⟩
  | .engine :: more => exact ⟨more, step_loadedState_engine hdec more s, by simp⟩
  | .access a :: more =>
    exact ⟨.access a :: more, step_loadedState_engine hdec (.access a :: more) s, by simp⟩
  | .rst b :: more =>
    exact ⟨.rst b :: more, step_loadedState_engine hdec (.rst b :: more) s, by simp⟩

/-! ### Events before the engine's turn -/

/-- The events after which a pending command is still pending: the host's accesses (R102), and the
release of a reset input that is not asserted. -/
def keepsPending : Input → Bool
  | .access _ => true
  | .engine => false
  | .rst asserted => !asserted

/-- The state with DONE, ERR_BUSY and the model's own fields replaced: all that host accesses change
while a command is pending (R102, R107). -/
def withTraffic (done errBusy : Bool) (ins : List Input) (a : Option BusAnswer) (n : Nat)
    (s : State) : State :=
  withOutside ins a n { s with done := done, errBusy := errBusy }

/-- An event before the engine's turn leaves a busy block as it is, but for `withTraffic`. -/
theorem step_keepsPending {s : State} {e : Input} {rest : List Input} (hrst : s.rst = false)
    (hbusy : busy s = true) (he : keepsPending e = true) (h : s.inputs = e :: rest) :
    ∃ d b a n, step s = .next (withTraffic d b rest a n s) := by
  cases e with
  | access acc =>
    obtain ⟨d, b, a, n, hacc⟩ :=
      hostAccess_busy (p := Config.params) (a := acc) (s := { s with inputs := rest }) hbusy
    exact ⟨d, b, a, n, by rw [step_access h, hacc]; rfl⟩
  | engine => cases he
  | rst asserted =>
    cases asserted with
    | true => cases he
    | false =>
      refine ⟨s.done, s.errBusy, s.resp, s.draws, ?_⟩
      rw [step_eq, afterStep, h]
      simp only [afterInput, driveReset, withTraffic, withOutside, hrst, Bool.false_eq_true,
        if_false]

/-- The events before the engine's turn leave a busy block as it is, but for `withTraffic`. -/
theorem run_keepsPending {s : State} (k : Nat) (ws rest : List Input) (hrst : s.rst = false)
    (hbusy : busy s = true) (hws : ∀ e ∈ ws, keepsPending e = true) (h : s.inputs = ws ++ rest) :
    ∃ d b a n, Host.Core.run Sys2Proof.core (ws.length + k) s =
      Host.Core.run Sys2Proof.core k (withTraffic d b rest a n s) := by
  induction ws generalizing s with
  | nil =>
    subst h
    exact ⟨s.done, s.errBusy, s.resp, s.draws, by rw [List.length_nil, Nat.zero_add]; rfl⟩
  | cons e ws ih =>
    obtain ⟨he, hrest⟩ := List.forall_mem_cons.1 hws
    obtain ⟨d, b, a, n, hstep⟩ := step_keepsPending hrst hbusy he h
    obtain ⟨d', b', a', n', hrun⟩ :=
      ih (s := withTraffic d b (ws ++ rest) a n s) hrst hbusy hrest rfl
    refine ⟨d', b', a', n', ?_⟩
    rw [List.length_cons, Nat.add_right_comm]
    exact (run_of_step (ws.length + k) hstep).trans hrun

/-! ### A completion after host accesses -/

/-- REPAIR neither reads nor writes DONE and ERR_BUSY (R175). -/
theorem repairUpdate_flags (p : Params) (d b : Bool) (s : State) :
    repairUpdate p { s with done := d, errBusy := b } =
      { repairUpdate p s with done := d, errBusy := b } := by
  unfold repairUpdate
  rw [show blockClashes { s with done := d, errBusy := b } = blockClashes s from rfl]
  cases blockClashes s <;> rfl

/-- PROCESS neither reads nor writes ERR_BUSY, and sets DONE, in an error or not (R194, R236). -/
theorem processCommand_flags (p : Params) (bx by_ : Nat) (d b : Bool) (s : State) :
    processCommand p bx by_ { s with done := d, errBusy := b } =
      { processCommand p bx by_ s with errBusy := b } := by
  unfold processCommand
  rw [show processError p { s with done := d, errBusy := b } bx by_ = processError p s bx by_
    from rfl]
  cases processError p s bx by_ <;> rfl

/-- What a command leaves does not depend on DONE, and on ERR_BUSY at most in ERR_BUSY, which all
keep but SRESET (R109, R221). -/
theorem commandResult_flags (i : Instr) (d b : Bool) (s : State) :
    ∃ b', commandResult i { s with done := d, errBusy := b } =
      { commandResult i s with errBusy := b' } := by
  unfold commandResult
  cases i with
  | detect =>
    refine ⟨b, ?_⟩
    dsimp only
    split <;> rfl
  | repair =>
    refine ⟨b, ?_⟩
    dsimp only
    rw [repairUpdate_flags]
    split <;> rfl
  | process bx by_ => exact ⟨b, processCommand_flags _ _ _ _ _ _⟩
  | sreset => exact ⟨false, rfl⟩
  | _ => exact ⟨b, rfl⟩

/-- No completion reads or writes the model's own fields. -/
theorem completion_withOutside (cmd : Word) (ins : List Input) (a : Option BusAnswer) (n : Nat)
    (s : State) :
    completion cmd (withOutside ins a n s) = withOutside ins a n (completion cmd s) := by
  unfold completion
  cases decode cmd with
  | ok i => exact commandResult_withOutside i ins a n s
  | error e => rfl

/-- What the completion leaves does not depend on DONE and ERR_BUSY, but for ERR_BUSY (R109). -/
theorem completion_flags (cmd : Word) (d b : Bool) (s : State) :
    ∃ b', completion cmd { s with done := d, errBusy := b } =
      { completion cmd s with errBusy := b' } := by
  unfold completion
  cases decode cmd with
  | ok i => exact commandResult_flags i d b s
  | error e => exact ⟨b, rfl⟩

/-- A completion leaves the block idle (R109, R221). -/
theorem completion_pending (cmd : Word) (s : State) : (completion cmd s).pending = none := by
  unfold completion
  cases decode cmd with
  | ok i => exact (commandResult_idle i s).1
  | error e => rfl

/-- A step at which the engine moves leaves the completion of the pending command (R109). -/
theorem step_completes {s : State} {cmd : Word} {ins : List Input} (a : Option BusAnswer) (n : Nat)
    (hrst : s.rst = false) (hcmd : s.pending = some cmd)
    (hins : ins = [] ∨ ∃ rest, ins = .engine :: rest) :
    step (withOutside ins a n s) = .next (withOutside ins.tail a n (completion cmd s)) := by
  rw [← completion_withOutside, ← completeCommand_eq]
  rcases hins with rfl | ⟨rest, rfl⟩
  · exact (step_of_no_inputs rfl).trans (engineTurn_of_pending hrst hcmd)
  · exact (step_engine rfl).trans (engineTurn_of_pending hrst hcmd)

/-- The engine's turn after events that keep the command pending leaves the completion of the state
before them, but for ERR_BUSY and the model's own fields (R109, R268). -/
theorem run_completes {s : State} {cmd : Word} {ws rest : List Input} (hrst : s.rst = false)
    (hcmd : s.pending = some cmd) (hws : ∀ e ∈ ws, keepsPending e = true)
    (h : s.inputs = ws ++ rest) (hrest : rest = [] ∨ ∃ more, rest = .engine :: more) :
    ∃ b a n, Host.Core.run Sys2Proof.core (ws.length + 1) s =
      .next (withOutside rest.tail a n { completion cmd s with errBusy := b }) := by
  have hbusy : busy s = true := by simp [busy, hcmd]
  obtain ⟨d, b, a, n, hrun⟩ := run_keepsPending 1 ws rest hrst hbusy hws h
  obtain ⟨b', hflags⟩ := completion_flags cmd d b s
  refine ⟨b', a, n, hrun.trans ?_⟩
  rw [← hflags]
  exact run_of_step 0 (step_completes a n hrst hcmd hrest)

/-- Settles O52: both runs leave the completion of `s`, but for what the accesses before the
engine's turn change. -/
theorem resultIndependentOfLatency : Obligations.ResultIndependentOfLatency := by
  intro s accesses hrst hpending hin
  obtain ⟨cmd, hcmd⟩ := Option.isSome_iff_exists.1 hpending
  have hws : ∀ e ∈ accesses.map Input.access, keepsPending e = true := by simp [keepsPending]
  obtain ⟨b, a, n, hrun⟩ := run_completes hrst hcmd hws hin (.inr ⟨[], rfl⟩)
  rw [List.length_map] at hrun
  exact ⟨_, _, hrun, step_completes s.resp s.draws hrst hcmd (.inr ⟨[], rfl⟩), rfl⟩

/-! ### Completion after finitely many steps -/

/-- Where the events that keep a command pending end: at the end of the events, at the engine's
turn, or at the assertion of the reset input. -/
theorem exists_keepsPending_prefix (ins : List Input) :
    ∃ ws rest, ins = ws ++ rest ∧ (∀ e ∈ ws, keepsPending e = true) ∧
      ((rest = [] ∨ ∃ more, rest = .engine :: more) ∨ ∃ more, rest = .rst true :: more) := by
  refine ⟨ins.takeWhile keepsPending, ins.dropWhile keepsPending,
    List.takeWhile_append_dropWhile.symm, fun e he => List.mem_takeWhile_imp he, ?_⟩
  have hhead := List.head?_dropWhile_not keepsPending ins
  match ins.dropWhile keepsPending, hhead with
  | [], _ => exact .inl (.inl rfl)
  | .engine :: more, _ => exact .inl (.inr ⟨more, rfl⟩)
  | .rst true :: more, _ => exact .inr ⟨more, rfl⟩

/-- Asserting the reset input abandons the command (R260). -/
theorem step_abandons {s : State} {rest : List Input} (h : s.inputs = .rst true :: rest) :
    ∃ t, step s = .next t ∧ t.pending = none :=
  ⟨_, step_eq s, by rw [afterStep, h]; rfl⟩

/-- Settles O51: the events up to the engine's turn, or up to the assertion of the reset input, keep
the command pending; then it completes, or the reset abandons it. -/
theorem pendingCommandCompletes : Obligations.PendingCommandCompletes := by
  intro s cmd hrst hcmd
  obtain ⟨ws, rest, hin, hws, hrest | ⟨more, rfl⟩⟩ := exists_keepsPending_prefix s.inputs
  · have hk : ws.length + 1 ≤ s.inputs.length + 1 := by simp [hin]
    have hdrop : s.inputs.drop (ws.length + 1) = rest.tail := by simp [hin]
    obtain ⟨b, a, n, hrun⟩ := run_completes hrst hcmd hws hin hrest
    refine ⟨⟨_, _, hk, hrun, completion_pending cmd s⟩, fun _ =>
      ⟨_, _, _, hk, hrun, completeCommand_eq cmd s, ?_⟩⟩
    rw [hdrop]
    rfl
  · have hbusy : busy s = true := by simp [busy, hcmd]
    obtain ⟨d, b, a, n, hrun⟩ := run_keepsPending 1 ws (.rst true :: more) hrst hbusy hws hin
    obtain ⟨t, hstep, hidle⟩ := step_abandons (s := withTraffic d b (.rst true :: more) a n s) rfl
    exact ⟨⟨_, t, by simp [hin], hrun.trans (run_of_step 0 hstep), hidle⟩, fun hnot =>
      absurd (by simp [hin]) hnot⟩

end Sys2Proof.Machine

/-!
Host writes, busy and idle, by the register they reach, and what the registers read
(40_host_access.md R100 to R108, R110).
-/

namespace Sys2Proof.Machine

open BitVec (getLsbD_append extractLsb'_append_eq_of_add_le extractLsb'_append_eq_of_le
  extractLsb'_eq_self)

/-! ### Writes while a command is pending -/

/-- A step that writes a register with the reset input released, busy or not (R101, R102). -/
theorem step_writeReg {s : State} {r : Reg} {v : Word} {rest : List Input} (hrst : s.rst = false)
    (h : s.inputs = .access (.write .word (regOffset r) v) :: rest) :
    step s = .next (answer .written (writeReg r v { s with inputs := rest })) := by
  rw [step_write hrst h, hostWrite_of_target _ _ (accessTarget_regOffset r)]

/-- A write to STATUS is performed, busy or not (R107). -/
theorem writeReg_status (v : Word) (s : State) : writeReg .status v s = writeStatus v s := by
  simp [writeReg, writeIdle]

/-- While a command is pending a write to any register but STATUS is dropped (R102). -/
theorem writeReg_dropped {s : State} {r : Reg} (h : s.pending.isSome = true) (hr : r ≠ .status)
    (v : Word) : writeReg r v s = dropWrite s :=
  (writeReg_busy h r v).trans (if_neg hr)

/-- Settles O38: the write is dropped, reaches STATUS, or reaches no register. -/
theorem writeWhileBusyIsDropped : Obligations.WriteWhileBusyIsDropped := by
  intro s rest off v hrst hbusy hin
  refine ⟨?_, ?_, fun hunmapped => ?_⟩
  · rintro r rfl hr
    rw [step_writeReg hrst hin, writeReg_dropped (s := { s with inputs := rest }) hbusy hr]
    rfl
  · rintro rfl
    rw [step_writeReg hrst hin, writeReg_status]
    rfl
  · rw [step_write hrst hin,
      hostWrite_of_no_target _ _ (accessTarget_eq_none (.inr (.inr hunmapped)))]
    rfl

/-- A write to STATUS clears DONE by bit 1 (R107). -/
@[simp] theorem writeStatus_done (v : Word) (s : State) :
    (writeStatus v s).done = (s.done && !v.getLsbD 1) := rfl

/-- A write to STATUS clears ERR_BUSY by bit 7 (R107). -/
@[simp] theorem writeStatus_errBusy (v : Word) (s : State) :
    (writeStatus v s).errBusy = (s.errBusy && !v.getLsbD 7) := rfl

/-- Settles O43: by the two bits of the value that `writeStatus` looks at. -/
theorem statusWriteClears : Obligations.StatusWriteClears := by
  intro s rest v hrst hin
  refine ⟨_, step_writeReg hrst hin, ?_⟩
  rw [writeReg_status]
  refine ⟨rfl, ?_, ?_, ?_, ?_⟩ <;> intro hv <;>
    simp only [answer_done, answer_errBusy, writeStatus_done, writeStatus_errBusy, hv,
      Bool.not_true, Bool.not_false, Bool.and_false, Bool.and_true]

/-! ### Writes with no command pending -/

/-- Settles O44: `step_accept`, the acceptance of a command. -/
theorem commandAcceptance : Obligations.CommandAcceptance := fun _ _ _ hrst hidle hin =>
  ⟨_, step_accept hrst hidle hin, rfl, rfl, rfl⟩

/-- CTRL values have the same mode when they have the same MODE bit (R23). -/
theorem modeOfCtrl_eq_iff (a b : Word) :
    modeOfCtrl a = modeOfCtrl b ↔ a.getLsbD 0 = b.getLsbD 0 := by
  unfold modeOfCtrl
  cases a.getLsbD 0 <;> cases b.getLsbD 0 <;> decide

/-- A write of CTRL that keeps MODE keeps the banks (R104). -/
theorem writeCtrl_of_same_mode {v : Word} {s : State} (h : v.getLsbD 0 = s.ctrl.getLsbD 0) :
    writeCtrl v s = { s with ctrl := v &&& ctrlMask } :=
  if_pos ((modeOfCtrl_eq_iff v s.ctrl).2 h)

/-- A write of CTRL that changes MODE invalidates both banks (R104). -/
theorem writeCtrl_of_other_mode {v : Word} {s : State} (h : v.getLsbD 0 ≠ s.ctrl.getLsbD 0) :
    writeCtrl v s = { s with ctrl := v &&& ctrlMask, cur := [], prev := [] } :=
  if_neg fun hmode => h ((modeOfCtrl_eq_iff v s.ctrl).1 hmode)

/-- A read-only register ignores a write (R65). -/
theorem writeIdle_readOnly {r : Reg} (v : Word) (s : State)
    (hr : r ∉ [Reg.ctrl, .bg, .gtab, .grid, .cmd, .status, .linksel]) (hpix : ∀ y, r ≠ .pix y) :
    writeIdle r v s = s := by
  cases r with
  | pix y => exact absurd rfl (hpix y)
  | ctrl | bg | gtab | grid | cmd | status | linksel => exact absurd (by simp) hr
  | _ => rfl

/-- Settles O42: by the register, and for CTRL by whether MODE changes. -/
theorem registerWrites : Obligations.RegisterWrites := by
  intro s rest r v hrst hidle hin
  rw [step_write_register hrst hidle hin]
  refine ⟨?_, ?_, ?_, ?_, ?_, ?_, fun hr hpix => ?_⟩
  · rintro rfl hmode
    rw [writeIdle, writeCtrl_of_same_mode (s := { s with inputs := rest }) hmode]
    rfl
  · rintro rfl hmode
    rw [writeIdle, writeCtrl_of_other_mode (s := { s with inputs := rest }) hmode]
    rfl
  · rintro rfl
    rfl
  · rintro rfl
    rfl
  · rintro rfl
    rfl
  · rintro rfl
    rfl
  · rw [writeIdle_readOnly v _ hr hpix]
    rfl

/-! ### A pixel row -/

/-- The bits of PIXVALID after a row is marked (R36). -/
theorem getLsbD_markRow (valid : BitVec 8) (y : Fin 8) (k : Nat) :
    (valid ||| (1#8 <<< y.val)).getLsbD k = (valid.getLsbD k || decide (k = y.val)) := by
  rw [← BitVec.twoPow_eq, BitVec.getLsbD_or, BitVec.getLsbD_twoPow, decide_eq_true y.isLt,
    Bool.true_and]
  simp only [eq_comm]

/-- A valid row reads what it holds (R35). -/
theorem readReg_pix (p : Params) {s : State} {y : Fin 8} (hidle : s.pending = none)
    (hvalid : s.pixvalid.getLsbD y.val = true) : readReg p s (.pix y) = s.pix[y] := by
  rw [readReg_idle p hidle]
  exact if_pos hvalid

/-- Settles O41: `writePix`, row by row and bit by bit of PIXVALID. -/
theorem pixelRowWrite : Obligations.PixelRowWrite := by
  intro s rest y v hrst hidle hin
  set t := answer .written (writePix y v { s with inputs := rest })
  have hpix : t.pix = s.pix.set y v := rfl
  have hvalid : t.pixvalid = s.pixvalid ||| (1#8 <<< y.val) := rfl
  have hstage : t.stage = stageOfPixvalid t.pixvalid := rfl
  have hrow : t.pix[y] = v := by simp [hpix]
  refine ⟨t, step_write_register hrst hidle hin, rfl, hrow, fun z hz => ?_,
    fun k => hvalid ▸ getLsbD_markRow s.pixvalid y k, fun hfull => ?_, fun hpart => ?_, ?_⟩
  · have hne : y.val ≠ z.val := fun he => hz (Fin.ext he.symm)
    simp [hpix, hne]
  · rw [hstage, stageOfPixvalid, if_pos hfull]
  · rw [hstage, stageOfPixvalid, if_neg hpart]
  · have hbit : t.pixvalid.getLsbD y.val = true := by
      rw [hvalid, getLsbD_markRow, decide_eq_true rfl, Bool.or_true]
    rw [readReg_pix (s := t) _ hidle hbit, hrow]

/-! ### Reads while a command is pending -/

/-- While a command is pending STATUS reads the word of R110. -/
theorem readReg_status_busy (p : Params) {s : State} (h : s.pending.isSome = true) :
    readReg p s .status = statusWordBusy s (freeDraw s) := by
  simp [readReg, busy, h]

/-- The bits of STATUS that R110 fixes. -/
theorem getLsbD_statusWordBusy (s : State) (any : Word) :
    let w := statusWordBusy s any
    w.getLsbD 0 = true ∧ w.getLsbD 1 = false ∧ w.getLsbD 7 = s.errBusy := by
  simp only [statusWordBusy, getLsbD_append, Nat.reduceLT, Nat.reduceSub, if_true, if_false,
    getLsbD_ofBool_zero]
  exact ⟨rfl, rfl, trivial⟩

/-- PIXVALID in STATUS while a command is pending (R110). -/
theorem extractLsb'_statusWordBusy (s : State) (any : Word) :
    (statusWordBusy s any).extractLsb' 24 8 = s.pixvalid := by
  simp (disch := decide) only [statusWordBusy, extractLsb'_append_eq_of_le, Nat.reduceSub,
    extractLsb'_eq_self]

/-- The reserved bits 3, 15:14 and 23:19 of STATUS read 0 while a command is pending (R110). -/
theorem statusWordBusy_reserved (s : State) (any : Word) :
    statusWordBusy s any &&& 0x00F8C008 = 0 := by
  refine and_mask_eq_zero [3, 14, 15, 19, 20, 21, 22, 23] (by decide) ?_
  simp only [statusWordBusy, getLsbD_append, List.forall_mem_cons, Nat.reduceLT, Nat.reduceSub,
    if_true, if_false, BitVec.getLsbD_ofNat, Nat.zero_testBit, Bool.and_false, true_and,
    List.not_mem_nil, false_imp_iff, implies_true]

/-- Settles O45: the word of STATUS, and the registers that `readableWhileBusy` names. -/
theorem readsWhileBusy : Obligations.ReadsWhileBusy := by
  intro p s hbusy
  have hread : ∀ {r : Reg}, readableWhileBusy r = true → readReg p s r = readIdle p s r :=
    readReg_of_readableWhileBusy p s
  rw [readReg_status_busy p hbusy]
  obtain ⟨h0, h1, h7⟩ := getLsbD_statusWordBusy s (freeDraw s)
  refine ⟨⟨h0, h1, h7, extractLsb'_statusWordBusy _ _, statusWordBusy_reserved _ _⟩,
    hread rfl, hread rfl, hread rfl, hread rfl, hread rfl, hread rfl, hread rfl, ?_⟩
  rintro r (rfl | ⟨c, rfl | rfl⟩) <;>
    rw [hread rfl, readReg_of_readableWhileBusy p _ rfl] <;> rfl

/-! ### Reads with no command pending -/

/-- The fields of SLOTMAP (R32). -/
theorem slotTableWord_slotFields (t : SlotTable) (slot : Slot) :
    (slotTableWord t).extractLsb' (4 * slot.val) 4 = (slotColor t slot).getD 0 ∧
      (slotTableWord t).getLsbD (16 + slot.val) = (slotColor t slot).isSome :=
  slotFields_of_append _ t slot

/-- The reserved bits 31:20 of SLOTMAP read 0 (R32). -/
theorem slotTableWord_reserved (t : SlotTable) : slotTableWord t &&& 0xFFF00000 = 0 := by
  refine and_mask_eq_zero [20, 21, 22, 23, 24, 25, 26, 27, 28, 29, 30, 31] (by decide) ?_
  simp only [slotTableWord, getLsbD_append, List.forall_mem_cons, Nat.reduceLT, Nat.reduceSub,
    if_false, BitVec.getLsbD_ofNat, Nat.zero_testBit, Bool.and_false, true_and,
    List.not_mem_nil, false_imp_iff, implies_true]

/-- The fields of FRAMECNT (R34). -/
theorem extractLsb'_framecntWord (s : State) :
    (framecntWord s).extractLsb' 0 16 = BitVec.ofNat 16 (errCount s) ∧
      (framecntWord s).extractLsb' 16 16 = BitVec.ofNat 16 (anomCount s) := by
  simp (disch := decide) only [framecntWord, extractLsb'_append_eq_of_add_le,
    extractLsb'_append_eq_of_le, Nat.reduceSub, extractLsb'_eq_self, and_self]

/-- Settles O60: every register reads its idle value, and SLOTMAP and FRAMECNT have the fields of
their words. -/
theorem idleReads : Obligations.IdleReads := by
  intro p s hidle
  have hread : ∀ r, readReg p s r = readIdle p s r := readReg_idle p hidle
  obtain ⟨herr, hanom⟩ := extractLsb'_framecntWord s
  refine ⟨hread _, hread _, hread _, hread _, hread _, hread _, hread _, hread _, hread _, hread _,
    hread _, hread _, hread _, hread _, hread _, fun y hvalid => readReg_pix p hidle hvalid, ?_⟩
  rw [hread .slotmap, hread .framecnt]
  exact ⟨slotTableWord_slotFields s.slotmap, slotTableWord_reserved s.slotmap, herr, hanom⟩

end Sys2Proof.Machine

/-!
The clash detector: the clash test, the counts of the block and DETECT (41_clash_detect.md R121 to
R125).
-/

namespace Sys2Proof.Machine

/-! ### The counts -/

/-- Every active pixel has one of the sixteen colors, so the counts sum to the active pixels
(R121, R122). -/
theorem sum_colorCount (m : Mode) (pix : PixelRows) :
    (∑ c : Color, colorCount m pix c) = (activePixels m pix).length := by
  have hmem : ∀ c ∈ (activePixels m pix : Multiset Color), c ∈ (Finset.univ : Finset Color) :=
    fun c _ => Finset.mem_univ c
  simpa only [colorCount, Multiset.coe_count, Multiset.coe_card] using
    Multiset.sum_count_eq_card hmem

/-- Settles O13: by the number of active pixels, and by the bounds on the set of colors. -/
theorem countsSumToThePixels : Obligations.CountsSumToThePixels := by
  intro m pix
  rw [sum_colorCount, activePixels_length, colorsPresent_length]
  exact ⟨rfl, presentSet_card_pos m pix, presentSet_card_le m pix⟩

/-! ### The clash test -/

/-- Both modes have at least 2 and at most 4 slots (R120). -/
theorem maxSlots_bounds (m : Mode) : 2 ≤ maxSlots m ∧ maxSlots m ≤ 4 := by cases m <;> decide

/-- A block with fewer colors than slots does not clash, whatever its background (R124). -/
theorem not_clashes_of_card_lt {m : Mode} {bgen : Bool} {bgcol : Color} {pix : PixelRows}
    (h : (presentSet m pix).card < maxSlots m) : ¬ Clashes m bgen bgcol pix := by
  rintro (hmore | ⟨-, hfull, -⟩) <;> omega

/-- Settles O12: `clashTest_iff`; one color is fewer than the slots of either mode, and sixteen are
more. -/
theorem clashTestOfTheBlock : Obligations.ClashTestOfTheBlock := by
  intro m bgen bgcol pix
  obtain ⟨htwo, hfour⟩ := maxSlots_bounds m
  refine ⟨clashTest_iff, fun hone => not_clashes_of_card_lt ?_, fun hsixteen => .inl ?_⟩ <;> omega

/-! ### DETECT -/

/-- With every row written DETECT completes and leaves what `detectUpdate` writes (R125). -/
theorem exec_detect_of_loaded {s : State} (h : s.pixvalid = 0xFF) :
    exec .detect s = .next (completeWith .ok (detectUpdate s)) := by
  rw [exec_eq, commandResult, if_neg (not_not.2 h)]

/-- CLASH after DETECT is the clash test (R125). -/
@[simp] theorem detectUpdate_clash (s : State) : (detectUpdate s).clash = blockClashes s := rfl

/-- WAS_CLASHED after DETECT is the clash test (R125). -/
@[simp] theorem detectUpdate_wasClashed (s : State) :
    (detectUpdate s).wasClashed = blockClashes s := rfl

/-- STAGE after DETECT (R29, R125). -/
@[simp] theorem detectUpdate_stage (s : State) :
    (detectUpdate s).stage = if blockClashes s then .clashed else .analyzed := rfl

/-- What DETECT leaves in HIST and DISTINCT: D_DETECT and D_FINAL are both the D of the block
(R30, R38). -/
theorem detectUpdate_reports (s : State) :
    ReportsCounts (presentSet (ctrlMode s) s.pix).card (ctrlMode s) s.pix (detectUpdate s) := by
  have hcount : distinctCount s = (presentSet (ctrlMode s) s.pix).card := colorsPresent_length _ _
  have hle := presentSet_card_le (ctrlMode s) s.pix
  rw [← hcount] at hle ⊢
  exact reportsCounts_of_same (writeCounts_reports _ (by omega) _ _ s) ⟨rfl, rfl, rfl, rfl, rfl⟩

/-- What DETECT does not write (R125). -/
theorem detectUpdate_frame (s : State) :
    SamePixels s (detectUpdate s) ∧ SameEncoding s (detectUpdate s) ∧
      SameBanks s (detectUpdate s) ∧ SameConfig s (detectUpdate s) ∧
      SameOutside s (detectUpdate s) ∧ (detectUpdate s).errBusy = s.errBusy := by
  simp [detectUpdate, SamePixels, SameEncoding, SameBanks, SameConfig, SameOutside]

/-- Settles O11: the clash test gives the flags and STAGE, `detectUpdate_reports` the counts, and
`detectUpdate_frame` the fields that stay. -/
theorem detectReportsTheBlock : Obligations.DetectReportsTheBlock := by
  intro s hloaded
  have hcounts := reportsCounts_of_same (t := completeWith .ok (detectUpdate s))
    (detectUpdate_reports s) ⟨rfl, rfl, rfl, rfl, rfl⟩
  refine ⟨_, exec_detect_of_loaded hloaded, ⟨rfl, rfl, rfl⟩, ?_, ?_, rfl, rfl, rfl, rfl,
    fun hclash => ?_, fun hclean => ?_, hcounts, rfl, detectUpdate_frame s⟩
  · rw [completeWith_clash, detectUpdate_clash, blockClashes_iff]
  · rw [completeWith_wasClashed, detectUpdate_wasClashed, blockClashes_iff]
  · rw [completeWith_stage, detectUpdate_stage, if_pos (blockClashes_iff.2 hclash)]
  · rw [completeWith_stage, detectUpdate_stage, if_neg (mt blockClashes_iff.1 hclean)]

end Sys2Proof.Machine

/-!
The slot map of PROCESS (42_slot_assign.md R140 to R159): its domain, the two paths of the mapper,
the packed rows and SUMMARY.
-/

namespace Sys2Proof.Machine

/-! ### The map that PROCESS encodes -/

/-- The slot map PROCESS finds for a block; empty where the block is left clashed or skipped
(R194). -/
def processedMap (s : State) (bx by_ : Nat) : SlotMap :=
  (analyzeBlock Config.params s (previousRecord s bx by_)).map

/-- SLOTMAP after PROCESS is the inverse mapping (R155). -/
theorem slotmap_processed {s t : State} {bx by_ : Nat} (h : Processed s bx by_ t) :
    t.slotmap = inverseMap (processedMap s bx by_) := by
  obtain ⟨-, rfl⟩ := processed_iff.1 h
  rfl

/-- A block that reached Assign has the map of the mapper (R151). -/
theorem processedMap_of_assigned {s t : State} {bx by_ : Nat} (h : Processed s bx by_ t)
    (hr : ReachedAssign t) :
    processedMap s bx by_ = (assignSlots (ctrlMode s) (bgEn s) (bgCol s) (gtabEn s) s.gtab
      (previousRecord s bx by_) (colorsPresent (ctrlMode s) t.pix)).map := by
  obtain ⟨-, rfl⟩ := processed_iff.1 h
  obtain ⟨hclash, hskip⟩ := hr
  rw [processUpdate_eq, completeWith_clash, encodeBlock_clash] at hclash
  rw [processUpdate_eq, completeWith_skipped, encodeBlock_skipped] at hskip
  cases analyzeBlock_path Config.params s (previousRecord s bx by_) with
  | unrepaired _ _ ha => simp [ha] at hclash
  | skipped _ _ _ _ _ hs => simp [hs] at hskip
  | assigned _ _ _ _ _ _ _ hmap => exact hmap

/-- A block left clashed or skipped has an empty map (R194). -/
theorem processedMap_of_unassigned {s t : State} {bx by_ : Nat} (h : Processed s bx by_ t)
    (hr : ¬ ReachedAssign t) : processedMap s bx by_ = [] := (processed_unassigned h hr).1

/-- R141: the map is a partial injective function. -/
theorem processedMap_ok {s t : State} {bx by_ : Nat} (h : Processed s bx by_ t) :
    MapOk (processedMap s bx by_) := by
  by_cases hr : ReachedAssign t
  · rw [processedMap_of_assigned h hr]
    exact assignSlots_ok _ _ _ _ _ _ (colorsPresent_nodup _ _)
  · rw [processedMap_of_unassigned h hr]
    exact mapOk_nil

/-- SLOTMAP names a color at a slot exactly when the map gives the color that slot (R155). -/
theorem slotColor_processed {s t : State} {bx by_ : Nat} (h : Processed s bx by_ t) {c : Color}
    {slot : Slot} :
    slotColor t.slotmap slot = some c ↔ (c, slot) ∈ processedMap s bx by_ := by
  rw [slotmap_processed h, slotColor_inverseMap, colorOfSlot_eq_some (processedMap_ok h)]

/-- R157: every color of a block that reached Assign has a slot. -/
theorem processedMap_total {s t : State} {bx by_ : Nat} (h : Processed s bx by_ t)
    (hr : ReachedAssign t) {c : Color} (hc : c ∈ presentSet (ctrlMode s) t.pix) :
    ∃ slot, (c, slot) ∈ processedMap s bx by_ := by
  obtain ⟨-, -, -, hpasses⟩ := processed_assigned h hr
  rw [processedMap_of_assigned h hr]
  exact assignSlots_total _ _ _ (colorsPresent_nodup _ _) hpasses h.1.1 (mem_colorsPresent.2 hc)

/-- The map gives slots to the colors of the block, and slot 0 to a declared background. -/
theorem processedMap_dom {s t : State} {bx by_ : Nat} (h : Processed s bx by_ t)
    (hr : ReachedAssign t) {c : Color} {slot : Slot} (hm : (c, slot) ∈ processedMap s bx by_) :
    c ∈ presentSet (ctrlMode s) t.pix ∨ (bgEn s = true ∧ c = bgCol s ∧ slot = 0) := by
  rw [processedMap_of_assigned h hr] at hm
  rw [← mem_colorsPresent]
  exact assignSlots_dom _ _ _ _ _ _ (colorsPresent_nodup _ _) hm

/-- R142: a declared background is in the map at slot 0. -/
theorem processedMap_background {s t : State} {bx by_ : Nat} (h : Processed s bx by_ t)
    (hr : ReachedAssign t) (hbg : bgEn s = true) : (bgCol s, 0) ∈ processedMap s bx by_ := by
  rw [processedMap_of_assigned h hr, hbg]
  exact assignSlots_background _ _ _ _ _ (colorsPresent_nodup _ _)

/-- Settles O23: `processedMap_total`, injectivity of the map, and `processedMap_dom`. -/
theorem everyColorGetsItsOwnSlot : Obligations.EveryColorGetsItsOwnSlot := by
  intro s t bx by_ h hr
  refine ⟨fun c hc => ?_, fun a b c ha hb => ?_, fun slot c hc => ?_⟩
  · obtain ⟨slot, hm⟩ := processedMap_total h hr hc
    exact ⟨slot, (slotColor_processed h).2 hm⟩
  · rw [slotColor_processed h] at ha hb
    exact mapOk_slot_unique (processedMap_ok h) ha hb
  · exact processedMap_dom h hr ((slotColor_processed h).1 hc)

/-- Settles O24: the background is in the map at slot 0, and the map gives a color one slot. -/
theorem backgroundHasSlotZero : Obligations.BackgroundHasSlotZero := by
  intro s t bx by_ h hr hbg
  have hzero := processedMap_background h hr hbg
  exact ⟨(slotColor_processed h).2 hzero, fun slot hslot =>
    mapOk_slot_unique (processedMap_ok h) ((slotColor_processed h).1 hslot) hzero⟩

/-! ### Positions in the order of allocation -/

/-- A set that a list without repetition enumerates has as many members as the list. -/
theorem card_eq_length {α : Type} [DecidableEq α] {l : List α} (hl : l.Nodup) {set : Finset α}
    (h : ∀ a, a ∈ set ↔ a ∈ l) : set.card = l.length := by
  rw [← List.toFinset_card_of_nodup hl]
  congr 1
  ext a
  rw [h, List.mem_toFinset]

/-- In an ascending list a color stands at the number of smaller colors (R143). -/
theorem card_before_eq {l : List Color} (hl : l.Pairwise fun a b => a.toNat < b.toNat) {i : Nat}
    {c : Color} (hi : l[i]? = some c) {before : Finset Color}
    (hb : ∀ d, d ∈ before ↔ d ∈ l ∧ d.toNat < c.toNat) : before.card = i := by
  obtain ⟨hlt, rfl⟩ := List.getElem?_eq_some_iff.1 hi
  have htake : ∀ d, d ∈ before ↔ d ∈ l.take i := by
    intro d
    have hsplit : l = l.take i ++ l[i] :: l.drop (i + 1) := by
      rw [List.getElem_cons_drop, List.take_append_drop]
    have hpair := hl
    rw [hsplit, List.pairwise_append, List.pairwise_cons] at hpair
    obtain ⟨-, ⟨hafter, -⟩, hbefore⟩ := hpair
    have hmem : d ∈ l ↔ d ∈ l.take i ∨ d = l[i] ∨ d ∈ l.drop (i + 1) := by
      conv_lhs => rw [hsplit]
      rw [List.mem_append, List.mem_cons]
    rw [hb, hmem]
    constructor
    · rintro ⟨hd | rfl | hd, hlt⟩
      · exact hd
      · exact absurd hlt (lt_irrefl _)
      · exact absurd hlt (lt_asymm (hafter d hd))
    · intro hd
      exact ⟨.inl hd, hbefore d hd _ List.mem_cons_self⟩
  rw [card_eq_length ((nodup_of_sorted hl).sublist (List.take_sublist _ _)) htake,
    List.length_take, min_eq_left hlt.le]

/-- A sublist of an order without repetition is known by its members. -/
theorem sublist_eq_filter {order free : List Slot} (horder : order.Nodup)
    (hsub : List.Sublist free order) {p : Slot → Bool}
    (hfree : ∀ slot, slot ∈ free ↔ slot ∈ order ∧ p slot = true) : free = order.filter p := by
  have hself : free.filter p = free :=
    List.filter_eq_self.2 fun slot hslot => ((hfree slot).1 hslot).2
  have hfilter : List.Sublist free (order.filter p) := hself ▸ hsub.filter p
  refine hfilter.eq_of_length_le ((horder.filter p).subperm fun slot hslot => ?_).length_le
  exact (hfree slot).2 (List.mem_filter.1 hslot)

/-- R145, R148: a color that the allocation placed has the free slot that stands, in the order, at
the number of smaller colors to place. -/
theorem allocate_position {order free : List Slot} (horder : order.Nodup) {map : SlotMap}
    {colors : List Color} (hcolors : colors.Pairwise fun a b => a.toNat < b.toNat)
    {c : Color} {slot : Slot} (hm : (c, slot) ∈ allocate order map colors)
    (hnew : ∀ other, (c, other) ∉ map) {before : Finset Color}
    (hb : ∀ d, d ∈ before ↔ d ∈ colors ∧ d.toNat < c.toNat) (hsub : List.Sublist free order)
    (hfree : ∀ other, other ∈ free ↔ other ∈ order ∧ ¬ slotTaken map other = true) :
    free[before.card]? = some slot := by
  have hfilter : free = order.filter fun other => !slotTaken map other :=
    sublist_eq_filter horder hsub (by simpa using hfree)
  rw [allocate_eq order horder, ← hfilter] at hm
  rcases List.mem_append.1 hm with hm | hm
  · exact absurd hm (hnew slot)
  · obtain ⟨i, hi⟩ := List.mem_iff_getElem?.1 hm
    obtain ⟨hcolor, hslot⟩ := List.getElem?_zip_eq_some.1 hi
    rw [card_before_eq hcolors hcolor hb, hslot]

/-- The colors other than the background are walked in ascending order (R143). -/
theorem nonBackground_sorted (m : Mode) (bgen : Bool) (bgcol : Color) (pix : PixelRows) :
    (nonBackground bgen bgcol (colorsPresent m pix)).Pairwise fun a b => a.toNat < b.toNat :=
  (colorsPresent_sorted m pix).filter _

/-- A color other than the background is a color of the block (R143). -/
theorem present_of_mem_nonBackgroundSet {s : State} {pix : PixelRows} {c : Color}
    (h : c ∈ nonBackgroundSet s pix) : c ∈ presentSet (ctrlMode s) pix := (Finset.mem_filter.1 h).1

/-! ### The record of the previous frame -/

/-- The previous record of a legal bank is invalid or one that some PROCESS wrote (R192, R195). -/
theorem previousRecord_legal {s : State} (h : BanksLegal s) (bx by_ : Nat) :
    previousRecord s bx by_ = LinkRecord.invalid ∨
      RecordLegal (ctrlMode s) (previousRecord s bx by_) := by
  by_cases hinv : previousRecord s bx by_ = LinkRecord.invalid
  · exact .inl hinv
  · exact .inr (h.2.2 _ (mem_of_linkRead hinv)).2

/-- A legal previous record gives no color two slots (R141). -/
theorem previousRecord_injective {s : State} (h : BanksLegal s) (bx by_ : Nat)
    (hv : (previousRecord s bx by_).valid = true) :
    TableInjective (previousRecord s bx by_).slots := by
  rcases previousRecord_legal h bx by_ with hinv | ⟨-, -, -, -, -, -, -, hinj⟩
  · rw [hinv] at hv
    cases hv
  · exact hinj

/-- A legal previous record of 2-color mode uses only the slots 0 and 1 (R32, R140). -/
theorem previousRecord_two_color {s : State} (h : BanksLegal s) (bx by_ : Nat)
    (hm : ctrlMode s = .twoColor) :
    (previousRecord s bx by_).slots.s2 = none ∧ (previousRecord s bx by_).slots.s3 = none := by
  rcases previousRecord_legal h bx by_ with hinv | ⟨-, -, -, -, -, -, htwo, -⟩
  · rw [hinv]
    exact ⟨rfl, rfl⟩
  · exact htwo hm

/-- `pm[c]` is the slot the previous record gives the color, where it gives no color two (R144). -/
theorem previousSlot_iff {prev : LinkRecord} (hi : prev.valid = true → TableInjective prev.slots)
    {c : Color} {slot : Slot} : previousSlot prev c = some slot ↔ PriorSlot prev c slot := by
  cases hv : prev.valid with
  | true => exact previousSlot_eq_some (hi hv)
  | false => simp [previousSlot, PriorSlot, hv]

/-! ### The two-pass path -/

/-- Pass 1 on the colors of the pixels `pix`: the map and the deferred colors (R144). -/
def passOne (s : State) (pix : PixelRows) (prev : LinkRecord) : SlotMap × List Color :=
  reusePass prev (seedMap (bgEn s) (bgCol s))
    (nonBackground (bgEn s) (bgCol s) (colorsPresent (ctrlMode s) pix))

/-- The color takes the slot it had in the previous frame: it is not slot 0, which a declared
background has (R142, R144). -/
def Reuses (s : State) (pix : PixelRows) (prev : LinkRecord) (c : Color) (slot : Slot) : Prop :=
  c ∈ nonBackgroundSet s pix ∧ PriorSlot prev c slot ∧ ¬ (bgEn s = true ∧ slot = 0)

/-- The color is left for Pass 2 (R144). -/
def Deferred (s : State) (pix : PixelRows) (prev : LinkRecord) (c : Color) : Prop :=
  c ∈ nonBackgroundSet s pix ∧ ∀ slot, ¬ Reuses s pix prev c slot

theorem passOne_spec (s : State) (pix : PixelRows) (prev : LinkRecord) :
    ReuseSpec prev (seedMap (bgEn s) (bgCol s))
      (nonBackground (bgEn s) (bgCol s) (colorsPresent (ctrlMode s) pix)) (passOne s pix prev) :=
  reused_spec _ _ _ (colorsPresent_nodup _ _)

/-- On the two-pass path the map is that of Pass 1 with the deferred colors allocated (R145). -/
theorem processedMap_twoPass {s t : State} {bx by_ : Nat} (h : Processed s bx by_ t)
    (hr : ReachedAssign t) (hpath : usesGlobalTable (ctrlMode s) (gtabEn s) = false) :
    processedMap s bx by_ = allocate (freshOrder (ctrlMode s))
      (passOne s t.pix (previousRecord s bx by_)).1
      (passOne s t.pix (previousRecord s bx by_)).2 := by
  rw [processedMap_of_assigned h hr, assignSlots, hpath]
  rfl

section
variable {s : State} {pix : PixelRows} {prev : LinkRecord}
  (hi : prev.valid = true → TableInjective prev.slots)
include hi

/-- What Pass 1 adds to the background is a color with its previous slot (R144). -/
theorem prior_of_mem_passOne {c : Color} {slot : Slot} (hm : (c, slot) ∈ (passOne s pix prev).1) :
    (bgEn s = true ∧ (c, slot) = (bgCol s, 0)) ∨
      (c ∈ nonBackgroundSet s pix ∧ PriorSlot prev c slot) := by
  rcases (passOne_spec s pix prev).fresh c slot hm with hseed | ⟨hc, hprior⟩
  · exact .inl (mem_seedMap.1 hseed)
  · exact .inr ⟨mem_nonBackgroundSet.2 hc, (previousSlot_iff hi).1 hprior⟩

/-- Pass 1 gives slots to a declared background and to the colors that take their previous slot
(R142, R144). -/
theorem mem_passOne {c : Color} {slot : Slot} :
    (c, slot) ∈ (passOne s pix prev).1 ↔
      (bgEn s = true ∧ (c, slot) = (bgCol s, 0)) ∨ Reuses s pix prev c slot := by
  have hspec := passOne_spec s pix prev
  have hseed : bgEn s = true → (bgCol s, 0) ∈ (passOne s pix prev).1 := fun hb =>
    hspec.extends_ _ (mem_seedMap.2 ⟨hb, rfl⟩)
  constructor
  · intro hm
    refine (prior_of_mem_passOne hi hm).imp_right fun ⟨hc, hprior⟩ => ⟨hc, hprior, ?_⟩
    rintro ⟨hb, rfl⟩
    have hbg := mapOk_color_unique (hspec.ok (seedMap_ok _ _)) hm (hseed hb)
    exact (Finset.mem_filter.1 hc).2 ⟨hb, hbg⟩
  · rintro (⟨hb, he⟩ | ⟨hc, hprior, hfree⟩)
    · rw [he]
      exact hseed hb
    · have htaken : ∃ d, (d, slot) ∈ (passOne s pix prev).1 := by
        rcases hspec.covered c (mem_nonBackgroundSet.1 hc) with ⟨other, hm⟩ | hd
        · rcases prior_of_mem_passOne hi hm with ⟨hb, he⟩ | ⟨-, hother⟩
          · exact absurd ⟨hb, congrArg Prod.fst he⟩ (Finset.mem_filter.1 hc).2
          · rw [hi hprior.1 _ _ _ hprior.2 hother.2]
            exact ⟨c, hm⟩
        · exact slotTaken_iff.1 (hspec.reason c hd slot ((previousSlot_iff hi).2 hprior))
      obtain ⟨d, hd⟩ := htaken
      rcases prior_of_mem_passOne hi hd with ⟨hb, he⟩ | ⟨-, hother⟩
      · exact absurd ⟨hb, congrArg Prod.snd he⟩ hfree
      · have hcd : c = d := Option.some.inj (hprior.2.symm.trans hother.2)
        rwa [hcd]

/-- The colors that Pass 1 defers (R144). -/
theorem mem_passOne_deferred {c : Color} :
    c ∈ (passOne s pix prev).2 ↔ Deferred s pix prev c := by
  have hspec := passOne_spec s pix prev
  constructor
  · intro hd
    refine ⟨mem_nonBackgroundSet.2 (hspec.sublist.subset hd), fun slot hreuse => ?_⟩
    exact hspec.deferredFree c hd slot ((mem_passOne hi).2 (.inr hreuse))
  · rintro ⟨hc, hnone⟩
    refine (hspec.covered c (mem_nonBackgroundSet.1 hc)).resolve_left ?_
    rintro ⟨slot, hm⟩
    rcases (mem_passOne hi).1 hm with ⟨hb, he⟩ | hreuse
    · exact (Finset.mem_filter.1 hc).2 ⟨hb, congrArg Prod.fst he⟩
    · exact hnone slot hreuse

/-- The slots that Pass 1 leaves free (R145). -/
theorem slotTaken_passOne {slot : Slot} :
    ¬ slotTaken (passOne s pix prev).1 slot = true ↔
      ¬ (bgEn s = true ∧ slot = 0) ∧ ∀ d, ¬ Reuses s pix prev d slot := by
  simp only [slotTaken_iff, mem_passOne hi, Prod.mk.injEq, exists_or, not_or, not_exists]
  exact and_congr_left fun _ =>
    ⟨fun h ⟨hb, hz⟩ => h _ ⟨hb, rfl, hz⟩, fun h _ ⟨hb, _, hz⟩ => h ⟨hb, hz⟩⟩

end

section
variable {s t : State} {bx by_ : Nat} (h : Processed s bx by_ t) (hr : ReachedAssign t)
  (hpath : usesGlobalTable (ctrlMode s) (gtabEn s) = false)
  (hi : (previousRecord s bx by_).valid = true → TableInjective (previousRecord s bx by_).slots)
include h hr hpath hi

/-- R144: a color that takes its previous slot has it in SLOTMAP. -/
theorem slotColor_of_reuses {c : Color} {slot : Slot}
    (hreuse : Reuses s t.pix (previousRecord s bx by_) c slot) :
    slotColor t.slotmap slot = some c := by
  rw [slotColor_processed h, processedMap_twoPass h hr hpath, allocate_eq _ (freshOrder_nodup _)]
  exact List.mem_append_left _ ((mem_passOne hi).2 (.inr hreuse))

/-- R145: a deferred color has the free slot that stands, in the fresh-allocation order, at the
number of smaller deferred colors. -/
theorem slotColor_of_deferred {c : Color} {before : Finset Color} {free : List Slot}
    (hc : Deferred s t.pix (previousRecord s bx by_) c)
    (hb : ∀ d, d ∈ before ↔ Deferred s t.pix (previousRecord s bx by_) d ∧ d.toNat < c.toNat)
    (hsub : List.Sublist free (freshOrder (ctrlMode s)))
    (hfree : ∀ slot, slot ∈ free ↔ slot ∈ freshOrder (ctrlMode s) ∧
      ¬ (bgEn s = true ∧ slot = 0) ∧ ∀ d, ¬ Reuses s t.pix (previousRecord s bx by_) d slot) :
    ∃ slot, free[before.card]? = some slot ∧ slotColor t.slotmap slot = some c := by
  have hspec := passOne_spec s t.pix (previousRecord s bx by_)
  obtain ⟨slot, hm⟩ := processedMap_total h hr (present_of_mem_nonBackgroundSet hc.1)
  refine ⟨slot, ?_, (slotColor_processed h).2 hm⟩
  rw [processedMap_twoPass h hr hpath] at hm
  simp only [← mem_passOne_deferred hi] at hb hc
  simp only [← slotTaken_passOne hi] at hfree
  exact allocate_position (freshOrder_nodup _)
    ((nonBackground_sorted _ _ _ _).sublist hspec.sublist) hm (hspec.deferredFree c hc) hb hsub
    hfree

end

/-- The fresh-allocation order without the background's slot counts up, from slot 1 where a
background is declared, which 4-color mode demands (R140, R233). -/
theorem getElem?_freshOrder {m : Mode} {bgen : Bool} (hbg : m = .fourColor → bgen = true) {k : Nat}
    {slot : Slot}
    (h : ((freshOrder m).filter fun other => !(bgen && other == 0))[k]? = some slot) :
    slot.val = k + (if bgen then 1 else 0) := by
  have hcount : ∀ i (hi : i < ((freshOrder m).filter fun other => !(bgen && other == 0)).length),
      (((freshOrder m).filter fun other => !(bgen && other == 0))[i]).val =
        i + (if bgen then 1 else 0) := by
    cases m with
    | twoColor => cases bgen <;> decide
    | fourColor =>
      rw [hbg rfl]
      decide
  obtain ⟨hk, rfl⟩ := List.getElem?_eq_some_iff.1 h
  exact hcount k hk

/-- Settles O25: without a previous record every color is deferred and the free slots count up; with
one, `slotColor_of_reuses` and `slotColor_of_deferred`. -/
theorem freshSlotsAscend : Obligations.FreshSlotsAscend := by
  intro s t bx by_ h hr hpath
  refine ⟨fun hv c hc => ?_, fun hlegal => ?_⟩
  · have hinvalid : (previousRecord s bx by_).valid ≠ true := by simp [hv]
    have hnone : ∀ d slot, ¬ Reuses s t.pix (previousRecord s bx by_) d slot :=
      fun _ _ ⟨_, hprior, _⟩ => hinvalid hprior.1
    obtain ⟨slot, hpos, hslot⟩ := slotColor_of_deferred h hr hpath
      (fun hvalid => absurd hvalid hinvalid) ⟨hc, hnone c⟩
      (before := (nonBackgroundSet s t.pix).filter fun d => d.toNat < c.toNat)
      (free := (freshOrder (ctrlMode s)).filter fun other => !(bgEn s && other == 0))
      (by simp [Deferred, hnone]) List.filter_sublist (by simp [hnone, imp_iff_not_or])
    exact ⟨slot, hslot, getElem?_freshOrder h.1.1 hpos⟩
  · have hi := previousRecord_injective hlegal bx by_
    exact ⟨fun c slot => slotColor_of_reuses h hr hpath hi,
      fun c before free => slotColor_of_deferred h hr hpath hi⟩

/-! ### The global-table path -/

/-- The colors of a state with the pixels `pix` that go to the fallback (R148). -/
def stateFallback (s : State) (pix : PixelRows) : List Color :=
  fallbackColors s.gtab (bgEn s) (bgCol s)
    (nonBackground (bgEn s) (bgCol s) (colorsPresent (ctrlMode s) pix))

/-- The map of a state with the pixels `pix` after the global match (R147). -/
def stateMatched (s : State) (pix : PixelRows) : SlotMap :=
  seedMap (bgEn s) (bgCol s) ++ matchedPairs s.gtab (bgEn s) (bgCol s)
    (nonBackground (bgEn s) (bgCol s) (colorsPresent (ctrlMode s) pix))

theorem mem_stateFallback {s : State} {pix : PixelRows} {c : Color} :
    c ∈ stateFallback s pix ↔ c ∈ nonBackgroundSet s pix ∧
      ¬ (G01Effective s ∧ c = gtabG01 s.gtab) ∧ ¬ (G10Effective s ∧ c = gtabG10 s.gtab) := by
  rw [mem_nonBackgroundSet]
  exact mem_fallbackColors

theorem stateFallback_sorted (s : State) (pix : PixelRows) :
    (stateFallback s pix).Pairwise fun a b => a.toNat < b.toNat :=
  (nonBackground_sorted _ _ _ _).filter _

/-- The effective entries that are present, and a declared background, are what the global match
places (R142, R147). -/
theorem mem_stateMatched {s : State} {pix : PixelRows} {c : Color} {slot : Slot} :
    (c, slot) ∈ stateMatched s pix ↔ (bgEn s = true ∧ (c, slot) = (bgCol s, 0)) ∨
      (c ∈ nonBackgroundSet s pix ∧
        ((slot = 1 ∧ G01Effective s ∧ c = gtabG01 s.gtab) ∨
          (slot = 2 ∧ G10Effective s ∧ c = gtabG10 s.gtab))) := by
  rw [stateMatched, List.mem_append, mem_seedMap, mem_matchedPairs, globalSlot_eq_some,
    mem_nonBackgroundSet]
  rfl

/-- The slots other than slot 0 that the global match leaves free (R148). -/
theorem slotTaken_stateMatched {s : State} {pix : PixelRows} {slot : Slot} (hslot : slot ≠ 0) :
    ¬ slotTaken (stateMatched s pix) slot = true ↔
      ¬ ((G01Effective s ∧ gtabG01 s.gtab ∈ nonBackgroundSet s pix) ∧ slot = 1) ∧
        ¬ ((G10Effective s ∧ gtabG10 s.gtab ∈ nonBackgroundSet s pix) ∧ slot = 2) := by
  rw [slotTaken_iff, ← not_or]
  refine not_congr ⟨?_, ?_⟩
  · rintro ⟨c, hm⟩
    rcases mem_stateMatched.1 hm with ⟨-, he⟩ | ⟨hc, ⟨hs, hg, rfl⟩ | ⟨hs, hg, rfl⟩⟩
    · exact absurd (congrArg Prod.snd he) hslot
    · exact .inl ⟨⟨hg, hc⟩, hs⟩
    · exact .inr ⟨⟨hg, hc⟩, hs⟩
  · rintro (⟨⟨hg, hc⟩, hs⟩ | ⟨⟨hg, hc⟩, hs⟩)
    · exact ⟨_, mem_stateMatched.2 (.inr ⟨hc, .inl ⟨hs, hg, rfl⟩⟩)⟩
    · exact ⟨_, mem_stateMatched.2 (.inr ⟨hc, .inr ⟨hs, hg, rfl⟩⟩)⟩

/-- The colors the table places do not go to the fallback (R148). -/
theorem not_mem_stateMatched {s : State} {pix : PixelRows} {c : Color}
    (h : c ∈ stateFallback s pix) (slot : Slot) : (c, slot) ∉ stateMatched s pix :=
  fun hm => globalMatched_disjoint c slot hm h

theorem mem_fallbackOrder {slot : Slot} : slot ∈ fallbackOrder ↔ slot ≠ 0 := by
  revert slot
  decide

section
variable {s t : State} {bx by_ : Nat} (h : Processed s bx by_ t) (hr : ReachedAssign t)
  (hpath : usesGlobalTable (ctrlMode s) (gtabEn s) = true)
include h hr hpath

/-- On the global-table path the map is the matched one with the fallback colors allocated
(R148). -/
theorem processedMap_global :
    processedMap s bx by_ =
      allocate fallbackOrder (stateMatched s t.pix) (stateFallback s t.pix) := by
  rw [processedMap_of_assigned h hr, assignSlots, if_pos hpath, assignGlobal_map]
  rfl

/-- R147: what the global match places is in SLOTMAP. -/
theorem slotColor_of_matched {c : Color} {slot : Slot}
    (hm : (c, slot) ∈ stateMatched s t.pix) : slotColor t.slotmap slot = some c := by
  rw [slotColor_processed h, processedMap_global h hr hpath, allocate_eq _ fallbackOrder_nodup]
  exact List.mem_append_left _ hm

/-- R149: the anomaly bit compares the fallback colors with the slots the table leaves. -/
theorem anomaly_iff_global :
    t.anomaly = true ↔
      (undedicatedSlots (effectiveGlobal s.gtab (bgEn s) (bgCol s))).length <
        (stateFallback s t.pix).length := by
  obtain ⟨-, hanomaly, -, -⟩ := processed_assigned h hr
  rw [hanomaly, assignSlots, if_pos hpath, assignGlobal_anomaly, decide_eq_true_iff]
  rfl

/-- R148: a fallback color has the free slot that stands, in the fallback order, at the number of
smaller fallback colors. -/
theorem slotColor_of_fallback {c : Color} {before : Finset Color} {free : List Slot}
    (hc : c ∈ stateFallback s t.pix)
    (hb : ∀ d, d ∈ before ↔ d ∈ stateFallback s t.pix ∧ d.toNat < c.toNat)
    (hsub : List.Sublist free fallbackOrder)
    (hfree : ∀ slot, slot ∈ free ↔ slot ∈ fallbackOrder ∧
      ¬ slotTaken (stateMatched s t.pix) slot = true) :
    ∃ slot, free[before.card]? = some slot ∧ slotColor t.slotmap slot = some c := by
  obtain ⟨slot, hm⟩ :=
    processedMap_total h hr (present_of_mem_nonBackgroundSet (mem_stateFallback.1 hc).1)
  refine ⟨slot, ?_, (slotColor_processed h).2 hm⟩
  rw [processedMap_global h hr hpath] at hm
  exact allocate_position fallbackOrder_nodup (stateFallback_sorted _ _) hm
    (not_mem_stateMatched hc) hb hsub hfree

end

/-- Settles O26: `mem_stateMatched` gives the matched slots, `slotColor_of_fallback` the fallback
slots, and `anomaly_iff_global` the anomaly. -/
theorem globalTableAssignment : Obligations.GlobalTableAssignment := by
  intro s t bx by_ h hr hpath
  refine ⟨fun ⟨hg, hc⟩ => ?_, fun ⟨hg, hc⟩ => ?_, fun c before free hc hb hsub hfree => ?_,
    fun all slots hall hslots => ?_⟩
  · exact slotColor_of_matched h hr hpath (mem_stateMatched.2 (.inr ⟨hc, .inl ⟨rfl, hg, rfl⟩⟩))
  · exact slotColor_of_matched h hr hpath (mem_stateMatched.2 (.inr ⟨hc, .inr ⟨rfl, hg, rfl⟩⟩))
  · refine slotColor_of_fallback h hr hpath (mem_stateFallback.2 hc)
      (fun d => by rw [mem_stateFallback]; exact hb d) hsub fun slot => ?_
    rw [hfree, mem_fallbackOrder]
    exact and_congr_right fun hslot => (slotTaken_stateMatched hslot).symm
  · have hcolors : all.card = (stateFallback s t.pix).length :=
      card_eq_length (nodup_of_sorted (stateFallback_sorted _ _)) fun c =>
        (hall c).trans mem_stateFallback.symm
    have hfree : slots.card =
        (undedicatedSlots (effectiveGlobal s.gtab (bgEn s) (bgCol s))).length :=
      card_eq_length (undedicatedSlots_nodup _) fun slot =>
        (hslots slot).trans mem_undedicatedSlots.symm
    rw [hcolors, hfree]
    exact anomaly_iff_global h hr hpath

/-! ### Packed rows and SUMMARY -/

/-- The packed byte of a row after PROCESS (R37, R152). -/
theorem packedByte_processed {s t : State} {bx by_ : Nat} (h : Processed s bx by_ t) (y : Fin 8) :
    packedByte t y.val = packRow (ctrlMode s) (processedMap s bx by_)
      (fillSlot (fillSel s) (bgEn s) (bgCol s) (processedMap s bx by_)) t.pix[y] := by
  obtain ⟨-, rfl⟩ := processed_iff.1 h
  exact packedByte_encodeBlock s (blockIndex s bx by_) (previousRecord s bx by_)
    (analyzeBlock Config.params s (previousRecord s bx by_)) y

/-- In 2-color mode PROCESS uses only the slots 0 and 1 (R140). -/
theorem processedMap_two_color {s t : State} {bx by_ : Nat} (hlegal : BanksLegal s)
    (h : Processed s bx by_ t) (hmode : ctrlMode s = .twoColor) {c : Color} {slot : Slot}
    (hm : (c, slot) ∈ processedMap s bx by_) : slot.val < 2 := by
  have hr : ReachedAssign t := by
    by_contra hr
    rw [processedMap_of_unassigned h hr] at hm
    cases hm
  rw [processedMap_of_assigned h hr, hmode] at hm
  have hprev := previousRecord_two_color hlegal bx by_ hmode
  rcases assignSlots_two_color _ _ (colorsPresent_nodup _ _) hprev hm with rfl | rfl <;> decide

/-- A map that uses only the slots 0 and 1 packs every color as one of them, also a color without a
slot (R152, R153). -/
theorem packedSlot_lt_two {map : SlotMap} (h : ∀ c slot, (c, slot) ∈ map → slot.val < 2)
    (fillsel bgen : Bool) (bgcol c : Color) :
    (packedSlot map (fillSlot fillsel bgen bgcol map) c).val < 2 := by
  have hgetD : ∀ (d : Color) (other : Slot), other.val < 2 →
      ((slotOfColor map d).getD other).val < 2 := by
    intro d other hother
    cases hd : slotOfColor map d with
    | none => exact hother
    | some slot => exact h d slot (mem_of_slotOfColor hd)
  refine hgetD c _ ?_
  unfold fillSlot
  split
  · exact hgetD bgcol 0 (by decide)
  · decide

/-- A packed byte shows the slot of each active column, in 2-color mode for the slots 0 and 1
(R152). -/
theorem packedPixel_packRow {m : Mode} {map : SlotMap} {fill : Slot}
    (h : m = .twoColor → ∀ c, (packedSlot map fill c).val < 2) (row : Word) {x : Nat}
    (hx : x < blockWidth m) :
    packedPixel m (packRow m map fill row) x = (packedSlot map fill (pixelOf row x)).val := by
  cases m with
  | twoColor => exact packedPixel_packRow_two _ _ _ (fun _ _ => h rfl _) hx
  | fourColor => exact packedPixel_packRow_four _ _ _ hx

/-- Settles O27: a color with a slot packs as that slot, and the packed byte shows it. -/
theorem packedRowsDecodeToPixels : Obligations.PackedRowsDecodeToPixels := by
  rintro s t bx by_ hlegal h y x hx ⟨slot, hslot⟩
  refine ⟨slot, ?_, hslot⟩
  have hm := (slotColor_processed h).1 hslot
  have hpacked : ∀ fill, packedSlot (processedMap s bx by_) fill (pixelOf t.pix[y] x) = slot :=
    fun fill => by rw [packedSlot, (slotOfColor_eq_some (processedMap_ok h)).2 hm]; rfl
  rw [packedByte_processed h, packedPixel_packRow ?_ _ hx, hpacked]
  exact fun hmode => packedSlot_lt_two (fun _ _ => processedMap_two_color hlegal h hmode) _ _ _

/-- SUMMARY after PROCESS (R156). -/
theorem summary_processed {s t : State} {bx by_ : Nat} (h : Processed s bx by_ t) :
    t.summary = summaryWord (ctrlMode s) t.slotmap := by
  obtain ⟨-, rfl⟩ := processed_iff.1 h
  rfl

/-- A word with a color below it, as a number. -/
theorem toNat_append_color {n : Nat} (hi : BitVec n) (c : Color) :
    (hi ++ c).toNat = hi.toNat * 16 + c.toNat := by
  rw [BitVec.toNat_append, ← Nat.shiftLeft_add_eq_or_of_lt c.isLt, Nat.shiftLeft_eq]

/-- Settles O28: SUMMARY is the word of R156, color by color. -/
theorem summaryFollowsTheSlots : Obligations.SummaryFollowsTheSlots := by
  intro s t bx by_ h
  rw [summary_processed h]
  constructor
  · intro hmode
    rw [hmode, summaryWord, toNat_append_color, toNat_append_color, BitVec.toNat_ofNat,
      Nat.zero_mod]
    omega
  · intro hmode
    rw [hmode, summaryWord, toNat_append_color, toNat_append_color, toNat_append_color,
      BitVec.toNat_ofNat, Nat.zero_mod]
    omega

end Sys2Proof.Machine

/-!
Clash repair (43_clash_repair.md R170 to R177): the kept set on blocks that pass the clash test and
on repaired ones, and what REPAIR leaves.
-/

namespace Sys2Proof.Machine

/-! ### The kept set -/

/-- In a block of at most n colors, all of them are among the first n of the ranking: a color does
not rank before itself (R170). -/
theorem amongFirst_of_card_le {m : Mode} {pix : PixelRows} {n : Nat} {c : Color}
    (hc : c ∈ presentSet m pix) (hn : (presentSet m pix).card ≤ n) : AmongFirst m pix n c := by
  have hself : c ∉ rankedBefore m pix c := by simp [rankedBefore]
  have hfewer : (rankedBefore m pix c).card < (presentSet m pix).card :=
    Finset.card_lt_card <| (Finset.ssubset_iff_of_subset (Finset.filter_subset _ _)).2
      ⟨c, hc, hself⟩
  exact ⟨hc, hfewer.trans_le hn⟩

/-- A block that passes the clash test keeps all of its colors: where a declared background is not
among them, they leave a slot free for it (R124, R171). -/
theorem kept_of_not_clashes {m : Mode} {bgen : Bool} {bgcol : Color} {pix : PixelRows} {c : Color}
    (h : ¬ Clashes m bgen bgcol pix) (hc : c ∈ presentSet m pix) : Kept m bgen bgcol pix c := by
  rw [Clashes, not_or, not_lt] at h
  obtain ⟨hfit, hroom⟩ := h
  by_cases hbg : bgen = true ∧ ¬ AmongFirst m pix (maxSlots m) bgcol
  · obtain ⟨hen, hout⟩ := hbg
    have habsent : bgcol ∉ presentSet m pix := fun hin => hout (amongFirst_of_card_le hin hfit)
    have hless : (presentSet m pix).card ≠ maxSlots m := fun hfull => hroom ⟨hen, hfull, habsent⟩
    exact .inl ⟨hen, hout, .inl (amongFirst_of_card_le hc (by omega))⟩
  · exact .inr ⟨hbg, amongFirst_of_card_le hc hfit⟩

/-- A declared background is kept (R171). -/
theorem kept_background {m : Mode} {bgen : Bool} {bgcol : Color} {pix : PixelRows}
    (h : bgen = true) : Kept m bgen bgcol pix bgcol := by
  by_cases hfirst : AmongFirst m pix (maxSlots m) bgcol
  · exact .inr ⟨fun hout => hout.2 hfirst, hfirst⟩
  · exact .inl ⟨h, hfirst, .inr rfl⟩

/-- A set of maxSlots kept colors is the whole kept set, which has no more (R171). -/
theorem mem_of_kept_of_card {m : Mode} {bgen : Bool} {bgcol : Color} {pix : PixelRows}
    {colors : Finset Color} (hkept : ∀ c ∈ colors, Kept m bgen bgcol pix c)
    (hcard : colors.card = maxSlots m) {c : Color} (hc : Kept m bgen bgcol pix c) :
    c ∈ colors := by
  have hsub : colors ⊆ (keptSet m bgen bgcol (rankColors m pix)).toFinset := fun d hd =>
    List.mem_toFinset.2 (mem_keptSet.2 (hkept d hd))
  have hle : (keptSet m bgen bgcol (rankColors m pix)).toFinset.card ≤ colors.card :=
    hcard ▸ (List.toFinset_card_le _).trans (keptSet_length_le _ _ _ _)
  rw [Finset.eq_of_subset_of_card_le hsub hle]
  exact List.mem_toFinset.2 (mem_keptSet.2 hc)

/-- The repair rules change no pixel of a block that passes the clash test (R177). -/
theorem repairBlock_pix_of_not_clashes (subst : Color → List Color) {m : Mode} {bgen : Bool}
    {bgcol : Color} {pix : PixelRows} (h : ¬ Clashes m bgen bgcol pix) :
    (repairBlock subst m bgen bgcol pix).pix = pix := by
  refine recolor_eq_self m _ pix fun y x hx => if_neg fun hexcluded => ?_
  obtain ⟨hpresent, hnot⟩ := mem_excludedSet.1 (List.contains_iff_mem.1 hexcluded)
  exact hnot (kept_of_not_clashes h hpresent)

/-! ### What REPAIR writes -/

section
variable {p : Params} {s t : State}

theorem repairUpdate_of_clashes (h : StateClashes s) :
    repairUpdate p s = repairClashedUpdate p s := by
  rw [repairUpdate, if_pos (blockClashes_iff.2 h)]

theorem repairUpdate_of_clean (h : ¬ StateClashes s) : repairUpdate p s = repairCleanUpdate s := by
  rw [repairUpdate, if_neg (mt blockClashes_iff.1 h)]

/-- What REPAIR does not write, on either of its paths (R175). -/
theorem repairUpdate_frame (p : Params) (s : State) :
    (repairUpdate p s).pixvalid = s.pixvalid ∧ SameEncoding s (repairUpdate p s) ∧
      SameBanks s (repairUpdate p s) ∧ SameConfig s (repairUpdate p s) ∧
      SameOutside s (repairUpdate p s) ∧ (repairUpdate p s).errBusy = s.errBusy := by
  by_cases h : StateClashes s
  · simp [repairUpdate_of_clashes h, repairClashedUpdate, SameEncoding, SameBanks, SameConfig,
      SameOutside]
  · simp [repairUpdate_of_clean h, repairCleanUpdate, SameEncoding, SameBanks, SameConfig,
      SameOutside]

/-- HIST and D_FINAL after REPAIR are those of the block it leaves, D_DETECT is that of the block it
found (R30, R38). -/
theorem repairUpdate_reports (p : Params) (s : State) :
    ReportsCounts (presentSet (ctrlMode s) s.pix).card (ctrlMode s) (repairUpdate p s).pix
      (repairUpdate p s) := by
  have hcount : distinctCount s = (presentSet (ctrlMode s) s.pix).card := colorsPresent_length _ _
  have hle := presentSet_card_le (ctrlMode s) s.pix
  rw [← hcount] at hle ⊢
  have hcounts := fun pix => writeCounts_reports (distinctCount s) (by omega) (ctrlMode s) pix s
  by_cases h : StateClashes s
  · rw [repairUpdate_of_clashes h]
    exact reportsCounts_of_same (hcounts _) ⟨rfl, rfl, rfl, rfl, rfl⟩
  · rw [repairUpdate_of_clean h]
    exact reportsCounts_of_same (hcounts _) ⟨rfl, rfl, rfl, rfl, rfl⟩

/-- With every row written REPAIR completes and leaves what `repairUpdate` writes (R175). -/
theorem exec_repair_of_loaded (h : s.pixvalid = 0xFF) :
    exec .repair s = .next (completeWith .ok (repairUpdate Config.params s)) := by
  rw [exec_eq, commandResult, if_neg (not_not.2 h)]

/-- What REPAIR leaves, from its answer. -/
theorem eq_of_exec_repair (hloaded : s.pixvalid = 0xFF) (h : exec .repair s = .next t) :
    t = completeWith .ok (repairUpdate Config.params s) := by
  rw [exec_repair_of_loaded hloaded] at h
  exact (Host.Outcome.next.inj h).symm

/-- REPAIR keeps the registers that select the mode and the background, and the row validity. -/
theorem exec_repair_config (hloaded : s.pixvalid = 0xFF) (h : exec .repair s = .next t) :
    ctrlMode t = ctrlMode s ∧ bgEn t = bgEn s ∧ bgCol t = bgCol s ∧ t.pixvalid = s.pixvalid := by
  obtain ⟨hvalid, -, -, ⟨hctrl, hbg, -⟩, -⟩ := repairUpdate_frame Config.params s
  rw [eq_of_exec_repair hloaded h]
  simp [ctrlMode, bgEn, bgCol, hctrl, hbg, hvalid]

/-- REPAIR leaves the pixels of a block that does not clash (R175). -/
theorem exec_repair_pix_of_clean (hloaded : s.pixvalid = 0xFF) (hclean : ¬ StateClashes s)
    (h : exec .repair s = .next t) : t.pix = s.pix := by
  rw [eq_of_exec_repair hloaded h, repairUpdate_of_clean hclean]
  rfl

/-- REPAIR leaves the pixels of `Repair()` on a clashed block (R174, R175). -/
theorem exec_repair_pix_of_clashes (hloaded : s.pixvalid = 0xFF) (hclash : StateClashes s)
    (h : exec .repair s = .next t) : t.pix = (repairState Config.params s).pix := by
  rw [eq_of_exec_repair hloaded h, repairUpdate_of_clashes hclash]
  rfl

/-- KEEP after REPAIR of a clashed block shows `Repair()`'s two sets (R31, R175). -/
theorem exec_repair_keep_of_clashes (hloaded : s.pixvalid = 0xFF) (hclash : StateClashes s)
    (h : exec .repair s = .next t) : t.keep =
      keepWord (repairState Config.params s).kept (repairState Config.params s).excluded := by
  rw [eq_of_exec_repair hloaded h, repairUpdate_of_clashes hclash]
  rfl

/-- The block REPAIR leaves passes the clash test, repaired or clean from the start (R176). -/
theorem exec_repair_passes (hloaded : s.pixvalid = 0xFF) (h : exec .repair s = .next t) :
    ¬ StateClashes t := by
  obtain ⟨hmode, hen, hcol, -⟩ := exec_repair_config hloaded h
  rw [StateClashes, hmode, hen, hcol]
  by_cases hclash : StateClashes s
  · rw [exec_repair_pix_of_clashes hloaded hclash h]
    exact repairBlock_passes _ _ _ _ _
  · rw [exec_repair_pix_of_clean hloaded hclash h]
    exact hclash

end

/-! ### The obligations -/

/-- Settles O14: the two paths of R175 give the flags and STAGE, `repairUpdate_reports` the counts,
and `repairUpdate_frame` the fields that stay. -/
theorem repairReportsTheBlock : Obligations.RepairReportsTheBlock := by
  intro s hloaded
  have hcounts := reportsCounts_of_same (t := completeWith .ok (repairUpdate Config.params s))
    (repairUpdate_reports Config.params s) ⟨rfl, rfl, rfl, rfl, rfl⟩
  have hframe := repairUpdate_frame Config.params s
  refine ⟨_, exec_repair_of_loaded hloaded, ⟨rfl, rfl, rfl⟩, ?_⟩
  by_cases hclash : StateClashes s
  · rw [repairUpdate_of_clashes hclash] at hcounts hframe ⊢
    exact ⟨rfl, iff_of_true rfl hclash, iff_of_true rfl hclash, rfl, rfl, rfl, fun _ => rfl,
      fun hclean => absurd hclash hclean, hcounts, hframe⟩
  · rw [repairUpdate_of_clean hclash] at hcounts hframe ⊢
    exact ⟨rfl, iff_of_false Bool.false_ne_true hclash, iff_of_false Bool.false_ne_true hclash, rfl,
      rfl, rfl, fun h => absurd h hclash, fun _ => ⟨rfl, rfl, rfl⟩, hcounts, hframe⟩

/-- Settles O15: the pixels are those of `Repair()`, active ones by `repairBlock_pixel` and the
others by `repairBlock_inactive`; KEEP is read off the kept and the excluded set. -/
theorem repairRewritesExcludedPixels : Obligations.RepairRewritesExcludedPixels := by
  intro s t hloaded hclash h
  rw [exec_repair_pix_of_clashes hloaded hclash h, exec_repair_keep_of_clashes hloaded hclash h]
  refine ⟨fun y x hx => repairBlock_pixel _ _ _ _ _ y hx,
    fun y x hx hx8 => repairBlock_inactive _ _ _ _ _ y hx hx8, fun c => ?_⟩
  obtain ⟨hkept, hexcluded⟩ := getLsbD_keepWord (repairState Config.params s).kept
    (repairState Config.params s).excluded c
  exact ⟨hkept.trans mem_keptSet, hexcluded.trans mem_excludedSet⟩

/-- Settles O16: `exec_repair_passes`; the repaired block has only kept colors, of which there are
at most maxSlots. -/
theorem repairLeavesNoClash : Obligations.RepairLeavesNoClash := by
  intro s t hloaded h
  refine ⟨exec_repair_passes hloaded h, fun hclash => ?_⟩
  rw [exec_repair_pix_of_clashes hloaded hclash h]
  have hkept : ∀ c ∈ presentSet (ctrlMode s) (repairState Config.params s).pix,
      Kept (ctrlMode s) (bgEn s) (bgCol s) s.pix c := fun _ => repairBlock_kept _ _ _ _ _
  exact ⟨hkept, kept_background, fun hcard _ => mem_of_kept_of_card hkept hcard⟩

/-- Settles O17: a block that passes the clash test is left as it is, and the block the first REPAIR
leaves passes it. -/
theorem repairIsIdempotent : Obligations.RepairIsIdempotent := by
  refine ⟨fun subst _ _ _ _ => repairBlock_pix_of_not_clashes subst, fun s t u hloaded ht hu => ?_⟩
  obtain ⟨-, -, -, hvalid⟩ := exec_repair_config hloaded ht
  exact exec_repair_pix_of_clean (hvalid.trans hloaded) (exec_repair_passes hloaded ht) hu

end Sys2Proof.Machine

/-!
What PROCESS leaves: the flags of its path, the record it commits and the fields it keeps
(44_frame_link.md R191 to R196).
-/

namespace Sys2Proof.Machine

/-! ### The flags of the analysis -/

/-- The flags of the analysis in terms of the clash test, REPAIR_EN and the previous record: the
five paths of R196 at once. -/
theorem analyzeBlock_flags (p : Params) (s : State) (prev : LinkRecord) :
    (analyzeBlock p s prev).wasClashed = blockClashes s ∧
      (analyzeBlock p s prev).finalClash = (blockClashes s && !repairEn s) ∧
      (analyzeBlock p s prev).repaired = (blockClashes s && repairEn s) ∧
      (analyzeBlock p s prev).skipped =
        ((!blockClashes s || repairEn s) && previousClashed prev) := by
  cases analyzeBlock_path p s prev with
  | unrepaired hk hr ha => simp [ha, hk, hr]
  | skipped hp hr hwas hfinal hrep hskip _ _ =>
    rw [hwas, hfinal, hrep, hskip, hp]
    cases hk : blockClashes s with
    | false => simp
    | true => simp [hr hk]
  | assigned hp hr hwas hfinal hrep hskip _ _ =>
    rw [hwas, hfinal, hrep, hskip, hp]
    cases hk : blockClashes s with
    | false => simp
    | true => simp [hr hk]

/-- Only 4-color mode with GTAB_EN takes the global-table path (R150). -/
theorem usesGlobalTable_iff {m : Mode} {gtabEn : Bool} :
    usesGlobalTable m gtabEn = true ↔ m = .fourColor ∧ gtabEn = true := by
  cases m <;> simp [usesGlobalTable]

/-- The two-pass path has no anomaly (R149). -/
theorem usesGlobalTable_of_anomaly {m : Mode} {bgen : Bool} {bgcol : Color} {gtabEn : Bool}
    {gtab : Word} {prev : LinkRecord} {present : List Color}
    (h : (assignSlots m bgen bgcol gtabEn gtab prev present).anomaly = true) :
    usesGlobalTable m gtabEn = true := by
  unfold assignSlots at h
  split at h
  · assumption
  · cases h

/-- Of a record it is VALID and WAS_CLASHED that stop the analysis (R193). -/
theorem previousClashed_iff {prev : LinkRecord} :
    previousClashed prev = true ↔ prev.valid = true ∧ prev.wasClashed = true := Bool.and_eq_true_iff

/-- With an empty map the packed rows are 0 (R153). -/
theorem packRows_empty (m : Mode) (fillsel bgen : Bool) (bgcol : Color) (r0 r1 r2 r3 : Word) :
    packRows m [] (fillSlot fillsel bgen bgcol []) r0 r1 r2 r3 = 0 := by
  simp only [packRows, packRow_empty]
  rfl

/-! ### What PROCESS leaves -/

section
variable {s t : State} {bx by_ : Nat} (h : Processed s bx by_ t)
include h

/-- WAS_CLASHED after PROCESS is the clash test before any repair (R196). -/
theorem processed_wasClashed : t.wasClashed = true ↔ StateClashes s := by
  obtain ⟨-, rfl⟩ := processed_iff.1 h
  obtain ⟨hwas, -⟩ := analyzeBlock_flags Config.params s (previousRecord s bx by_)
  rw [processUpdate_eq, completeWith_wasClashed, encodeBlock_wasClashed, hwas, blockClashes_iff]

/-- CLASH after PROCESS: a clash that was not to be repaired (R196). -/
theorem processed_clash : t.clash = true ↔ StateClashes s ∧ repairEn s = false := by
  obtain ⟨-, rfl⟩ := processed_iff.1 h
  obtain ⟨-, hfinal, -⟩ := analyzeBlock_flags Config.params s (previousRecord s bx by_)
  rw [processUpdate_eq, completeWith_clash, encodeBlock_clash, hfinal, Bool.and_eq_true,
    blockClashes_iff, Bool.not_eq_true']

/-- REPAIRED after PROCESS: a clash that was to be repaired (R196). -/
theorem processed_repaired : t.repaired = true ↔ StateClashes s ∧ repairEn s = true := by
  obtain ⟨-, rfl⟩ := processed_iff.1 h
  obtain ⟨-, -, hrep, -⟩ := analyzeBlock_flags Config.params s (previousRecord s bx by_)
  rw [processUpdate_eq, completeWith_repaired, encodeBlock_repaired, hrep, Bool.and_eq_true,
    blockClashes_iff]

/-- SKIPPED after PROCESS: not left clashed, and the previous block was clashed (R193, R196). -/
theorem processed_skipped :
    t.skipped = true ↔ (StateClashes s → repairEn s = true) ∧
      (previousRecord s bx by_).valid = true ∧ (previousRecord s bx by_).wasClashed = true := by
  obtain ⟨-, rfl⟩ := processed_iff.1 h
  obtain ⟨-, -, -, hskip⟩ := analyzeBlock_flags Config.params s (previousRecord s bx by_)
  rw [processUpdate_eq, completeWith_skipped, encodeBlock_skipped, hskip, Bool.and_eq_true,
    previousClashed_iff, Bool.or_eq_true, Bool.not_eq_true', blockClashes_eq_false,
    imp_iff_not_or]

/-- The flags PROCESS leaves fit together (R28, R196). -/
theorem processed_flagsLegal : FlagsLegal t := by
  obtain ⟨-, rfl⟩ := processed_iff.1 h
  exact flagsLegal_encodeBlock Config.params s (blockIndex s bx by_) (previousRecord s bx by_)

/-- An anomaly comes from the global-table path, on a block that reached Assign (R149, R196). -/
theorem processed_anomaly (ha : t.anomaly = true) :
    ctrlMode s = .fourColor ∧ gtabEn s = true ∧ ReachedAssign t := by
  have hr : ReachedAssign t := by
    by_contra hr
    rw [(processed_unassigned h hr).2] at ha
    cases ha
  obtain ⟨-, hanomaly, -, -⟩ := processed_assigned h hr
  obtain ⟨hmode, hen⟩ := usesGlobalTable_iff.1 (usesGlobalTable_of_anomaly (hanomaly ▸ ha))
  exact ⟨hmode, hen, hr⟩

/-- Without a repair the pixels stay and KEEP is 0 (R194). -/
theorem processed_of_not_repaired (hn : t.repaired = false) : t.pix = s.pix ∧ t.keep = 0 := by
  rw [← Bool.not_eq_true, processed_repaired h] at hn
  obtain ⟨-, rfl⟩ := processed_iff.1 h
  rw [processUpdate_eq, completeWith_pix, completeWith_keep, encodeBlock_pix, encodeBlock_keep]
  rcases analyzeBlock_repair Config.params s (previousRecord s bx by_) with
    ⟨hk, hen, -⟩ | ⟨-, hpix, hkept, hexcluded⟩
  · exact absurd ⟨blockClashes_iff.1 hk, hen⟩ hn
  · rw [hpix, hkept, hexcluded]
    exact ⟨rfl, rfl⟩

/-- A repair leaves the pixels and KEEP that the command REPAIR leaves (R174, R194). -/
theorem processed_of_repaired (hrep : t.repaired = true) :
    ∃ u, exec .repair s = .next u ∧ t.pix = u.pix ∧ t.keep = u.keep := by
  obtain ⟨hclash, hrepairEn⟩ := (processed_repaired h).1 hrep
  obtain ⟨⟨-, hloaded, -⟩, rfl⟩ := processed_iff.1 h
  have hu := exec_repair_of_loaded hloaded
  refine ⟨_, hu, ?_⟩
  rw [exec_repair_pix_of_clashes hloaded hclash hu, exec_repair_keep_of_clashes hloaded hclash hu,
    processUpdate_eq, completeWith_pix, completeWith_keep, encodeBlock_pix, encodeBlock_keep]
  rcases analyzeBlock_repair Config.params s (previousRecord s bx by_) with
    ⟨-, -, hpix, hkept, hexcluded⟩ | ⟨hno | hno, -⟩
  · rw [hpix, hkept, hexcluded]
    exact ⟨rfl, rfl⟩
  · exact absurd hclash (blockClashes_eq_false.1 hno)
  · rw [hrepairEn] at hno
    cases hno

/-- HIST and D_FINAL are those of the block PROCESS leaves, D_DETECT is that of the block it found
(R30, R38). -/
theorem processed_reports :
    ReportsCounts (presentSet (ctrlMode s) s.pix).card (ctrlMode s) t.pix t := by
  obtain ⟨-, rfl⟩ := processed_iff.1 h
  have hcount : distinctCount s = (presentSet (ctrlMode s) s.pix).card := colorsPresent_length _ _
  have hle := presentSet_card_le (ctrlMode s) s.pix
  rw [← hcount] at hle ⊢
  exact reportsCounts_of_same (writeCounts_reports _ (by omega) _ _ s) ⟨rfl, rfl, rfl, rfl, rfl⟩

/-- What PROCESS does not write (R194). -/
theorem processed_frame :
    t.prev = s.prev ∧ t.pixvalid = s.pixvalid ∧ SameConfig s t ∧ SameOutside s t ∧
      t.errBusy = s.errBusy := by
  obtain ⟨-, rfl⟩ := processed_iff.1 h
  exact ⟨rfl, rfl, ⟨rfl, rfl, rfl, rfl, rfl⟩, ⟨rfl, rfl, rfl, rfl⟩, rfl⟩

/-- The record PROCESS commits holds the flags and the slots that it reports (R195). -/
theorem committedRecord_of_processed :
    committedRecord s t bx by_ =
      { valid := true, mode := ctrlMode s, wasClashed := t.wasClashed, finalClash := t.clash
        anomaly := t.anomaly, skipped := t.skipped, repaired := t.repaired
        slots := t.slotmap } := by
  rw [committedRecord_eq h]
  obtain ⟨-, rfl⟩ := processed_iff.1 h
  rfl

/-- PROCESS writes the record at the block's index of CUR (R195). -/
theorem cur_of_processed :
    t.cur = linkWrite s.cur (blockIndex s bx by_) (committedRecord s t bx by_) := by
  rw [committedRecord_eq h]
  obtain ⟨-, rfl⟩ := processed_iff.1 h
  rfl

/-- PROCESS changes no other record of CUR (R195). -/
theorem linkRead_cur_of_processed {j : Nat} (hj : j ≠ blockIndex s bx by_) :
    linkRead t.cur j = linkRead s.cur j := by
  rw [cur_of_processed h, linkRead_linkWrite_other _ _ hj]

/-- SLOTMAP of a block left clashed or skipped is empty (R194). -/
theorem slotmap_of_unassigned (hr : ¬ ReachedAssign t) : t.slotmap = SlotTable.empty := by
  rw [slotmap_processed h, processedMap_of_unassigned h hr, inverseMap_nil]

/-- PACKED0 and PACKED1 after PROCESS are the packed rows (R37, R152). -/
theorem packed_processed :
    t.packed0 = packRows (ctrlMode s) (processedMap s bx by_)
        (fillSlot (fillSel s) (bgEn s) (bgCol s) (processedMap s bx by_))
        t.pix[0] t.pix[1] t.pix[2] t.pix[3] ∧
      t.packed1 = packRows (ctrlMode s) (processedMap s bx by_)
        (fillSlot (fillSel s) (bgEn s) (bgCol s) (processedMap s bx by_))
        t.pix[4] t.pix[5] t.pix[6] t.pix[7] := by
  obtain ⟨-, rfl⟩ := processed_iff.1 h
  exact ⟨rfl, rfl⟩

/-- The packed rows of a block left clashed or skipped are 0 (R153, R194). -/
theorem packed_of_unassigned (hr : ¬ ReachedAssign t) : t.packed0 = 0 ∧ t.packed1 = 0 := by
  obtain ⟨hpacked0, hpacked1⟩ := packed_processed h
  rw [hpacked0, hpacked1, processedMap_of_unassigned h hr]
  exact ⟨packRows_empty _ _ _ _ _ _ _ _, packRows_empty _ _ _ _ _ _ _ _⟩

end

/-- A block that PROCESS left clashed or skipped did not reach Assign (R194, R196). -/
theorem not_reachedAssign {t : State} (h : t.clash = true ∨ t.skipped = true) :
    ¬ ReachedAssign t := by
  rintro ⟨hclash, hskip⟩
  rcases h with h | h
  · rw [hclash] at h
    cases h
  · rw [hskip] at h
    cases h

/-! ### The obligations -/

/-- Settles O18: where R191 and R233 to R235 allow it PROCESS completes, and `analyzeBlock_flags`
gives the flags. -/
theorem processCompletesByItsPath : Obligations.ProcessCompletesByItsPath := by
  intro s bx by_ hallowed
  have h : Processed s bx by_ (completeWith .ok (processUpdate Config.params bx by_ s)) :=
    processed_iff.2 ⟨hallowed, rfl⟩
  exact ⟨_, h.2, ⟨rfl, rfl, rfl⟩, rfl, processed_wasClashed h, processed_clash h,
    processed_repaired h, processed_skipped h, processed_anomaly h, rfl, processed_of_repaired h,
    processed_of_not_repaired h, processed_reports h, processed_frame h⟩

/-- Settles O19: the committed record field by field, and the other records by the frame of a bank
write. -/
theorem processCommitsOneRecord : Obligations.ProcessCommitsOneRecord := by
  intro s t bx by_ h
  obtain ⟨hprev, -⟩ := processed_frame h
  rw [committedRecord_of_processed h]
  exact ⟨rfl, rfl, rfl, rfl, rfl, rfl, rfl, rfl, fun _ => linkRead_cur_of_processed h,
    fun _ => by rw [hprev]⟩

/-- Settles O21: the map is empty, so no slot has a color and every pixel packs as the fill slot,
slot 0. -/
theorem emptyMapPacksSlotZero : Obligations.EmptyMapPacksSlotZero := by
  intro s t bx by_ h hleft
  have hr := not_reachedAssign hleft
  obtain ⟨hpacked0, hpacked1⟩ := packed_of_unassigned h hr
  have hslotmap := slotmap_of_unassigned h hr
  have hsummary : t.summary = 0 := by
    rw [summary_processed h, hslotmap]
    cases ctrlMode s <;> rfl
  exact ⟨hslotmap, hsummary, hpacked0, hpacked1, (processed_unassigned h hr).2⟩

/-- Settles O22: the block is left clashed or skipped, so its map is empty; the record shows the
final clash that CLASH shows. -/
theorem skipAfterAClashedPredecessor : Obligations.SkipAfterAClashedPredecessor := by
  intro s t bx by_ h hvalid hwas
  have hskip : t.clash = false → t.skipped = true := fun hc => by
    rw [← Bool.not_eq_true, processed_clash h, not_and, Bool.not_eq_false] at hc
    exact (processed_skipped h).2 ⟨hc, hvalid, hwas⟩
  have hr : ¬ ReachedAssign t := fun ⟨hc, hs⟩ => Bool.false_ne_true (hs.symm.trans (hskip hc))
  refine ⟨fun slot => ?_, hskip, ?_⟩
  · rw [slotmap_of_unassigned h hr, ← inverseMap_nil, slotColor_inverseMap]
    rfl
  · rw [committedRecord_of_processed h]
    exact processed_clash h

end Sys2Proof.Machine

/-!
What a step can do to the link banks, said once, and the two statements that follow from it: every
step keeps the invariant `BanksLegal`, and PREV changes by few events (44_frame_link.md R190, R195,
R197 to R199, R205, 40_host_access.md R104, R106).
-/

namespace Sys2Proof.Machine

/-! ### The record that PROCESS commits -/

/-- SLOTMAP after PROCESS gives no color two slots (R141). -/
theorem slotmap_injective {s t : State} {bx by_ : Nat} (h : Processed s bx by_ t) :
    TableInjective t.slotmap := by
  intro a b c ha hb
  rw [slotColor_processed h] at ha hb
  exact mapOk_slot_unique (processedMap_ok h) ha hb

/-- SLOTMAP after PROCESS in 2-color mode has no color at the slots 2 and 3 (R32, R140). -/
theorem slotmap_two_color {s t : State} {bx by_ : Nat} (hlegal : BanksLegal s)
    (h : Processed s bx by_ t) (hmode : ctrlMode s = .twoColor) :
    t.slotmap.s2 = none ∧ t.slotmap.s3 = none := by
  have hnone : ∀ slot : Slot, 2 ≤ slot.val → slotColor t.slotmap slot = none := fun slot hslot =>
    Option.eq_none_iff_forall_not_mem.2 fun c hc =>
      absurd (processedMap_two_color hlegal h hmode ((slotColor_processed h).1 hc)) (by omega)
  exact ⟨hnone 2 le_rfl, hnone 3 (by decide)⟩

/-- The record PROCESS commits is a legal one of the current mode (R195, R196). -/
theorem committedRecord_legal {s t : State} {bx by_ : Nat} (hlegal : BanksLegal s)
    (h : Processed s bx by_ t) : RecordLegal (ctrlMode s) (committedRecord s t bx by_) := by
  obtain ⟨hwas, hclash, -, -⟩ := processed_flagsLegal h
  rw [committedRecord_of_processed h]
  refine ⟨rfl, rfl, hwas, hclash, fun hleft => ?_, fun ha => (processed_anomaly h ha).1,
    slotmap_two_color hlegal h, slotmap_injective h⟩
  have hr := not_reachedAssign hleft
  exact ⟨slotmap_of_unassigned h hr, (processed_unassigned h hr).2⟩

/-- The index of a block inside the grid is below LINK_ENTRIES (R83, R191). -/
theorem blockIndex_lt {s : State} {bx by_ : Nat} (h : ProcessAllowed s bx by_) :
    blockIndex s bx by_ < Config.linkEntries := by
  obtain ⟨-, -, hx, hy, hgrid⟩ := h
  calc by_ * gridCols s + bx < by_ * gridCols s + gridCols s := by omega
    _ = (by_ + 1) * gridCols s := (Nat.succ_mul _ _).symm
    _ ≤ gridRows s * gridCols s := Nat.mul_le_mul_right _ hy
    _ = gridCols s * gridRows s := Nat.mul_comm _ _
    _ ≤ Config.linkEntries := hgrid

/-- PROCESS completes with an error and no other effect, or it runs (R194, R236). -/
theorem exec_process_cases {s t : State} {bx by_ : Nat} (h : exec (.process bx by_) s = .next t) :
    (∃ code, t = completeWith code s) ∨ Processed s bx by_ t := by
  have ht : processCommand Config.params bx by_ s = t := Host.Outcome.next.inj h
  rcases processCommand_cases Config.params bx by_ s with ⟨code, -, -, he⟩ | ⟨hnone, -⟩
  · exact .inl ⟨code, ht.symm.trans he⟩
  · exact .inr ⟨processError_eq_none.1 hnone, h⟩

/-! ### The effects on the banks -/

/-- The mode and the two banks: what the invariant `BanksLegal` is about. -/
structure Banks where
  /-- `CTRL.MODE`. -/
  mode : Mode
  /-- `Link[CUR]`. -/
  cur : LinkBank
  /-- `Link[PREV]`. -/
  prev : LinkBank

/-- The mode and the banks of a state. -/
def banksOf (s : State) : Banks := ⟨ctrlMode s, s.cur, s.prev⟩

/-- Both banks are legal in the mode. -/
def Banks.Legal (b : Banks) : Prop := BankLegal b.mode b.cur ∧ BankLegal b.mode b.prev

theorem banksLegal_iff {s : State} : BanksLegal s ↔ (banksOf s).Legal := Iff.rfl

theorem banksOf_eq {s t : State} (hctrl : t.ctrl = s.ctrl) (h : SameBanks s t) :
    banksOf t = banksOf s := by
  rw [banksOf, banksOf, ctrlMode, ctrlMode, hctrl, h.1, h.2]

/-- The events to come are no part of the banks. -/
theorem banksOf_inputs (s : State) (rest : List Input) :
    banksOf { s with inputs := rest } = banksOf s := rfl

/-- The answer to an access is no part of the banks. -/
theorem banksOf_answer (a : BusAnswer) (s : State) : banksOf (answer a s) = banksOf s := rfl

/-- What an event can do to the mode and the banks. `advances` is what a FRAMENEXT needs, and
`clears` what an invalidation of both banks needs. -/
inductive BankEffect (advances clears : Prop) (b b' : Banks) : Prop
  /-- Neither bank changes. -/
  | kept (h : b' = b)
  /-- PROCESS commits one record to CUR (R195). -/
  | committed (i : Nat) (r : LinkRecord) (hi : i < Config.linkEntries)
      (hr : b.Legal → RecordLegal b.mode r) (h : b' = { b with cur := linkWrite b.cur i r })
  /-- CUR becomes PREV (R198). -/
  | advanced (ha : advances) (h : b' = { b with cur := [], prev := b.cur })
  /-- Both banks are invalidated, in any mode (R104, R199). -/
  | cleared (hc : clears) (m : Mode) (h : b' = ⟨m, [], []⟩)

/-- The conditions of an effect can be weakened. -/
theorem bankEffect_imp {advances clears advances' clears' : Prop} {b b' : Banks}
    (h : BankEffect advances clears b b') (ha : advances → advances') (hc : clears → clears') :
    BankEffect advances' clears' b b' := by
  cases h with
  | kept h => exact .kept h
  | committed i r hi hr h => exact .committed i r hi hr h
  | advanced hadv h => exact .advanced (ha hadv) h
  | cleared hclear m h => exact .cleared (hc hclear) m h

/-! ### Commands -/

/-- A processed block commits a legal record at a legal index (R191, R195). -/
theorem bankEffect_processed {advances clears : Prop} {s t : State} {bx by_ : Nat}
    (h : Processed s bx by_ t) : BankEffect advances clears (banksOf s) (banksOf t) := by
  obtain ⟨hprev, -, ⟨hctrl, -⟩, -⟩ := processed_frame h
  refine .committed _ _ (blockIndex_lt h.1) (fun hlegal => committedRecord_legal hlegal h) ?_
  rw [banksOf, ctrlMode, hctrl, cur_of_processed h, hprev]
  rfl

/-- FRAMENEXT advances the frame, LINKRST and SRESET clear the banks, PROCESS commits a record, and
no other command touches them. -/
theorem bankEffect_commandResult (i : Instr) (s : State) :
    BankEffect (i = .framenext) (i = .linkrst ∨ i = .sreset) (banksOf s)
      (banksOf (commandResult i s)) := by
  cases i with
  | nop => exact .kept rfl
  | detect =>
    rw [commandResult]
    split <;> exact .kept rfl
  | repair =>
    obtain ⟨-, -, hbanks, ⟨hctrl, -⟩, -⟩ := repairUpdate_frame Config.params s
    rw [commandResult]
    split
    · exact .kept rfl
    · exact .kept (banksOf_eq hctrl hbanks)
  | process bx by_ =>
    rcases exec_process_cases (exec_eq (.process bx by_) s) with ⟨code, he⟩ | h
    · rw [he]
      exact .kept rfl
    · exact bankEffect_processed h
  | linkrst => exact .cleared (.inl rfl) _ rfl
  | framenext => exact .advanced rfl rfl
  | sreset => exact .cleared (.inr rfl) _ rfl

/-- The engine's turn completes the command `i`. -/
def EngineCompletes (s : State) (i : Instr) : Prop :=
  s.rst = false ∧ ∃ cmd, s.pending = some cmd ∧ decode cmd = .ok i

/-- What the engine's turn can do to the banks: what the command it completes can do (R109). -/
theorem bankEffect_afterEngine (s : State) :
    BankEffect (EngineCompletes s .framenext)
      (EngineCompletes s .linkrst ∨ EngineCompletes s .sreset) (banksOf s)
      (banksOf (afterEngine s)) := by
  unfold afterEngine
  split
  · exact .kept rfl
  · next hrst =>
    split
    · next cmd hcmd =>
      unfold completion
      split
      · next i hdec =>
        have hruns : EngineCompletes s i := ⟨by simpa using hrst, cmd, hcmd, hdec⟩
        exact bankEffect_imp (bankEffect_commandResult i s) (fun h => h ▸ hruns)
          (Or.imp (fun h => h ▸ hruns) fun h => h ▸ hruns)
      · exact .kept rfl
    · exact .kept rfl

/-! ### Accesses -/

/-- The write of `v` to the register invalidates both banks when it is performed: every write to
GRID, and a write to CTRL that changes MODE (R104, R106). -/
def InvalidatingWrite (s : State) (r : Reg) (v : Word) : Prop :=
  r = .grid ∨ (r = .ctrl ∧ v.getLsbD 0 ≠ s.ctrl.getLsbD 0)

/-- A performed write invalidates the banks or leaves them and the mode alone (R101). -/
theorem bankEffect_writeIdle {advances : Prop} (r : Reg) (v : Word) (s : State) :
    BankEffect advances (InvalidatingWrite s r v) (banksOf s) (banksOf (writeIdle r v s)) := by
  cases r with
  | ctrl =>
    rw [writeIdle]
    by_cases hmode : v.getLsbD 0 = s.ctrl.getLsbD 0
    · rw [writeCtrl_of_same_mode hmode]
      refine .kept ?_
      rw [banksOf, ctrlMode, modeOfCtrl_mask, (modeOfCtrl_eq_iff v s.ctrl).2 hmode]
      rfl
    · rw [writeCtrl_of_other_mode hmode]
      exact .cleared (.inr ⟨rfl, hmode⟩) _ rfl
  | grid => exact .cleared (.inl rfl) _ rfl
  | _ => exact .kept rfl

/-- A write touches the banks only where no command is pending (R102, R107). -/
theorem bankEffect_writeReg {advances : Prop} (r : Reg) (v : Word) (s : State) :
    BankEffect advances (s.pending = none ∧ InvalidatingWrite s r v) (banksOf s)
      (banksOf (writeReg r v s)) := by
  cases hbusy : busy s with
  | true =>
    rw [writeReg_busy hbusy]
    split <;> exact .kept rfl
  | false =>
    rw [writeReg_idle hbusy]
    exact bankEffect_imp (bankEffect_writeIdle r v s) id fun h =>
      ⟨Option.not_isSome_iff_eq_none.1 (Bool.eq_false_iff.1 hbusy), h⟩

/-- The access is a write that invalidates the banks, performed because the block is neither busy
nor held in reset. -/
def InvalidatingAccess (s : State) (a : BusAccess) : Prop :=
  s.rst = false ∧ s.pending = none ∧
    ∃ r v, InvalidatingWrite s r v ∧ a = .write .word (regOffset r) v

/-- An access that reaches a register is a word access at the register's offset (R20, R63). -/
theorem eq_of_accessTarget {width : AccessWidth} {off : BitVec 12} {r : Reg}
    (h : accessTarget width off = some r) : width = .word ∧ off = regOffset r := by
  cases width with
  | word => exact ⟨rfl, (regOffset_of_regAt h).symm⟩
  | half => cases h
  | byte => cases h

/-- Of the host's accesses only an invalidating write touches the banks (R67, R101, R260). -/
theorem bankEffect_hostAccess {advances : Prop} (p : Params) (a : BusAccess) (s : State) :
    BankEffect advances (InvalidatingAccess s a) (banksOf s) (banksOf (hostAccess p a s)) := by
  cases a with
  | read width off =>
    obtain ⟨a, n, he⟩ := hostAccess_read_frame p width off s
    rw [he]
    exact .kept rfl
  | write width off v =>
    unfold hostAccess
    split
    · exact .kept rfl
    · next hrst =>
      rcases hostWrite_cases width off v s with ⟨r, htarget, he⟩ | ⟨-, he⟩ <;> dsimp only <;>
        rw [he]
      · obtain ⟨rfl, rfl⟩ := eq_of_accessTarget htarget
        rw [banksOf_answer]
        exact bankEffect_imp (bankEffect_writeReg r v s) id fun ⟨hidle, hwrite⟩ =>
          ⟨by simpa using hrst, hidle, r, v, hwrite, rfl⟩
      · exact .kept rfl

/-! ### Steps -/

/-- The step invalidates both banks: LINKRST, SRESET, an invalidating write or an assertion of the
reset input (R199, R205). -/
def ClearsBanks (s : State) : Prop :=
  EngineRuns s .linkrst ∨ EngineRuns s .sreset ∨ (∃ v, HostWrites s .grid v) ∨
    (∃ v, HostWrites s .ctrl v ∧ v.getLsbD 0 ≠ s.ctrl.getLsbD 0) ∨ ResetAsserted s

/-- An invalidating access as the event of a step. -/
theorem clearsBanks_of_access {s : State} {a : BusAccess} {rest : List Input}
    (hin : s.inputs = .access a :: rest) (h : InvalidatingAccess s a) : ClearsBanks s := by
  obtain ⟨hrst, hidle, r, v, rfl | ⟨rfl, hmode⟩, rfl⟩ := h
  · exact .inr (.inr (.inl ⟨v, hrst, hidle, rest, hin⟩))
  · exact .inr (.inr (.inr (.inl ⟨v, ⟨hrst, hidle, rest, hin⟩, hmode⟩)))

/-- The completion of a command as the event of a step (R109; log 1). -/
theorem engineRuns_of_completes {s : State} {i : Instr}
    (hin : s.inputs = [] ∨ ∃ rest, s.inputs = .engine :: rest) (h : EngineCompletes s i) :
    EngineRuns s i := ⟨h.1, hin, h.2⟩

/-- The completion of LINKRST or SRESET as the event of a step (R197, R221). -/
theorem clearsBanks_of_completes {s : State}
    (hin : s.inputs = [] ∨ ∃ rest, s.inputs = .engine :: rest)
    (h : EngineCompletes s .linkrst ∨ EngineCompletes s .sreset) : ClearsBanks s := by
  rcases h with h | h
  · exact .inl (engineRuns_of_completes hin h)
  · exact .inr (.inl (engineRuns_of_completes hin h))

/-- What a step can do to the banks, by its event. -/
theorem bankEffect_afterStep (s : State) :
    BankEffect (EngineRuns s .framenext) (ClearsBanks s) (banksOf s) (banksOf (afterStep s)) := by
  unfold afterStep
  split
  · next hin =>
    exact bankEffect_imp (bankEffect_afterEngine s) (engineRuns_of_completes (.inl hin))
      (clearsBanks_of_completes (.inl hin))
  · next e rest hin =>
    rw [← banksOf_inputs s rest]
    cases e with
    | access a =>
      exact bankEffect_imp (bankEffect_hostAccess _ _ _) id fun h => clearsBanks_of_access hin h
    | engine =>
      exact bankEffect_imp (bankEffect_afterEngine _) (engineRuns_of_completes (.inr ⟨rest, hin⟩))
        (clearsBanks_of_completes (.inr ⟨rest, hin⟩))
    | rst asserted =>
      cases asserted with
      | false => exact .kept rfl
      | true => exact .cleared (.inr (.inr (.inr (.inr ⟨rest, hin⟩)))) _ rfl

/-! ### The invariant -/

/-- The empty bank is legal in every mode (R199). -/
theorem bankLegal_nil (m : Mode) : BankLegal m [] := ⟨linkBankWf_nil, by simp⟩

/-- Committing a legal record at a legal index keeps a bank legal (R190, R195). -/
theorem bankLegal_linkWrite {m : Mode} {bank : LinkBank} {i : Nat} {r : LinkRecord}
    (h : BankLegal m bank) (hi : i < Config.linkEntries) (hr : RecordLegal m r) :
    BankLegal m (linkWrite bank i r) := by
  obtain ⟨hwf, hrecords⟩ := h
  refine ⟨linkWrite_wf hwf i r, fun e he => ?_⟩
  rcases mem_linkWrite.1 he with ⟨rfl, -⟩ | ⟨he, -⟩
  · exact ⟨hi, hr⟩
  · exact hrecords e he

/-- Every effect on the banks keeps them legal. -/
theorem banks_legal_of_effect {advances clears : Prop} {b b' : Banks}
    (he : BankEffect advances clears b b') (hlegal : b.Legal) : b'.Legal := by
  have ⟨hcur, hprev⟩ := hlegal
  cases he with
  | kept h => exact h ▸ hlegal
  | committed i r hi hr h => exact h ▸ ⟨bankLegal_linkWrite hcur hi (hr hlegal), hprev⟩
  | advanced _ h => exact h ▸ ⟨bankLegal_nil _, hcur⟩
  | cleared _ m h => exact h ▸ ⟨bankLegal_nil m, bankLegal_nil m⟩

/-- Settles O56: each of the effects a step can have on the banks keeps them legal; a change of MODE
is one of those that invalidate them. -/
theorem stepKeepsBanksLegal : Obligations.StepKeepsBanksLegal := by
  intro s t h hstep
  rw [step_eq] at hstep
  obtain rfl := Host.Outcome.next.inj hstep
  exact banksLegal_iff.2 (banks_legal_of_effect (bankEffect_afterStep s) (banksLegal_iff.1 h))

/-! ### The previous frame -/

/-- PREV changes only where the frame advances or the banks are invalidated (R205). -/
theorem prev_of_effect {advances clears : Prop} {b b' : Banks}
    (he : BankEffect advances clears b b') (hprev : b'.prev ≠ b.prev) : advances ∨ clears := by
  cases he with
  | kept h => exact absurd (congrArg Banks.prev h) hprev
  | committed i r _ _ h => exact absurd (congrArg Banks.prev h) hprev
  | advanced ha _ => exact .inl ha
  | cleared hc _ _ => exact .inr hc

/-- Settles O32: PROCESS changes nothing in an error and one record otherwise; the events that can
change PREV are those of `bankEffect_afterStep`. -/
theorem previousFrameIsImmutable : Obligations.PreviousFrameIsImmutable := by
  refine ⟨fun s t bx by_ h => ?_, fun s t hstep hprev => ?_⟩
  · rcases exec_process_cases h with ⟨code, rfl⟩ | h
    · exact ⟨rfl, fun _ _ => rfl⟩
    · obtain ⟨hprev, -⟩ := processed_frame h
      exact ⟨hprev, fun _ => linkRead_cur_of_processed h⟩
  · rw [step_eq] at hstep
    obtain rfl := Host.Outcome.next.inj hstep
    exact prev_of_effect (bankEffect_afterStep s) hprev

end Sys2Proof.Machine

/-!
Frames: LINKRST and FRAMENEXT, the frame counts and the error list of a legal bank, and the slots
that a color keeps from one frame to the next (44_frame_link.md R197 to R201, R204).
-/

namespace Sys2Proof.Machine

/-! ### LINKRST and FRAMENEXT -/

/-- With CUR empty the frame counts read 0 (R34, R200). -/
theorem frameCounts_of_cur_nil {s : State} (h : s.cur = []) :
    framecntWord s = 0 ∧ frameFail s = false := by
  have herr : errCount s = 0 := by rw [errCount, h]; rfl
  have hanom : anomCount s = 0 := by rw [anomCount, h]; rfl
  rw [framecntWord, frameFail, herr, hanom]
  exact ⟨rfl, rfl⟩

/-- Settles O30: LINKRST leaves two empty banks, whose records all read invalid. -/
theorem linkrstInvalidatesBothBanks : Obligations.LinkrstInvalidatesBothBanks :=
  ⟨rfl, fun s => ⟨_, exec_eq .linkrst s, rfl, fun i => ⟨linkRead_nil i, linkRead_nil i⟩,
    frameCounts_of_cur_nil rfl⟩⟩

/-- Settles O31: FRAMENEXT leaves the CUR bank as PREV and an empty CUR bank. -/
theorem framenextAdvancesTheFrame : Obligations.FramenextAdvancesTheFrame :=
  ⟨rfl, fun s => ⟨_, exec_eq .framenext s, rfl, fun i => ⟨rfl, linkRead_nil i⟩,
    frameCounts_of_cur_nil rfl⟩⟩

/-! ### The frame counts and the error list -/

/-- The indexes of the entries with a property that the invalid record has not are, in a canonical
bank, the rising indexes whose records are read with it (R190; log 10). -/
theorem indexes_of_filter {bank : LinkBank} {n : Nat} (hwf : linkBankWf bank = true)
    (hlt : ∀ e ∈ bank, e.1 < n) {p : LinkRecord → Bool} (hp : p LinkRecord.invalid = false) :
    (bank.filter fun e => p e.2).map Prod.fst =
      (List.range n).filter fun i => p (linkRead bank i) := by
  obtain ⟨hsorted, -⟩ := linkBankWf_iff.1 hwf
  have hleft : ((bank.filter fun e => p e.2).map Prod.fst).Pairwise (· < ·) :=
    List.pairwise_map.2 (hsorted.filter _)
  have hright : ((List.range n).filter fun i => p (linkRead bank i)).Pairwise (· < ·) :=
    List.pairwise_lt_range.filter _
  have hmem : ∀ i, i ∈ (bank.filter fun e => p e.2).map Prod.fst ↔
      i ∈ (List.range n).filter fun i => p (linkRead bank i) := by
    intro i
    rw [List.mem_map, List.mem_filter, List.mem_range]
    constructor
    · rintro ⟨e, he, rfl⟩
      obtain ⟨he, hpe⟩ := List.mem_filter.1 he
      exact ⟨hlt e he, by rwa [linkRead_of_mem hsorted he]⟩
    · rintro ⟨-, hpi⟩
      have hread : linkRead bank i ≠ LinkRecord.invalid := fun hinv => by
        rw [hinv, hp] at hpi
        cases hpi
      exact ⟨_, List.mem_filter.2 ⟨mem_of_linkRead hread, hpi⟩, rfl⟩
  have hperm := (List.perm_ext_iff_of_nodup hleft.nodup hright.nodup).2 hmem
  exact hperm.eq_of_pairwise (fun _ _ _ _ hab hba => absurd hab (lt_asymm hba)) hleft hright

/-- The indexes of the CUR entries with such a property, in a legal bank. -/
theorem cur_indexes {s : State} (h : BanksLegal s) {p : LinkRecord → Bool}
    (hp : p LinkRecord.invalid = false) :
    (s.cur.filter fun e => p e.2).map Prod.fst =
      (List.range Config.linkEntries).filter fun i => p (linkRead s.cur i) := by
  obtain ⟨⟨hwf, hrecords⟩, -⟩ := h
  exact indexes_of_filter hwf (fun e he => (hrecords e he).1) hp

/-- The number of CUR entries with such a property is the number of CUR records below LINK_ENTRIES
that are read with it (R200). -/
theorem countP_cur {s : State} (h : BanksLegal s) {p : LinkRecord → Bool}
    (hp : p LinkRecord.invalid = false) :
    (s.cur.countP fun e => p e.2) =
      ((Finset.range Config.linkEntries).filter fun i => p (linkRead s.cur i) = true).card := by
  rw [List.countP_eq_length_filter, ← List.length_map (f := Prod.fst), cur_indexes h hp]
  exact (card_eq_length (List.nodup_range.filter _) fun i => by simp).symm

/-- A count of CUR records is below 2^16 (R34, R200; log 20). -/
theorem countP_cur_lt {s : State} (h : BanksLegal s) {p : LinkRecord → Bool}
    (hp : p LinkRecord.invalid = false) : (s.cur.countP fun e => p e.2) < 65536 := by
  rw [countP_cur h hp]
  have hle := Finset.card_filter_le (Finset.range Config.linkEntries)
    fun i => p (linkRead s.cur i) = true
  rw [Finset.card_range] at hle
  exact hle.trans_lt linkEntries_lt

/-- Settles O33: the entries of a legal bank with a flag are the records read with it, one each; at
most LINK_ENTRIES of them, so nothing is lost in the fields of FRAMECNT. -/
theorem frameCountsCountTheBank : Obligations.FrameCountsCountTheBank := by
  intro s h
  obtain ⟨herrField, hanomField⟩ := extractLsb'_framecntWord s
  have herrLt : errCount s < 65536 := countP_cur_lt (p := recordFailed) h rfl
  have hanomLt : anomCount s < 65536 := countP_cur_lt (p := recordAnomalous) h rfl
  refine ⟨?_, ?_, ?_, ?_, by simp [frameFail]⟩
  · rw [errCount, countP_cur (p := recordFailed) h rfl]
    simp only [recordFailed, Bool.and_eq_true]
  · rw [anomCount, countP_cur (p := recordAnomalous) h rfl]
    simp only [recordAnomalous, Bool.and_eq_true]
  · rw [herrField, BitVec.toNat_ofNat, Nat.mod_eq_of_lt herrLt]
  · rw [hanomField, BitVec.toNat_ofNat, Nat.mod_eq_of_lt hanomLt]

/-- Settles O34: the indexes of the failed entries are the rising indexes of the failed records. -/
theorem errorListInIndexOrder : Obligations.ErrorListInIndexOrder := by
  intro s h
  have hindexes := congrArg (List.map fun i => (i % gridCols s, i / gridCols s))
    (cur_indexes (p := recordFailed) h rfl)
  rwa [List.map_map] at hindexes

/-! ### Continuity -/

/-- What FRAMENEXT leaves, from its answer (R198). -/
theorem prev_of_exec_framenext {s t : State} (h : exec .framenext s = .next t) :
    t.prev = s.cur := by
  rw [exec_eq] at h
  obtain rfl := Host.Outcome.next.inj h
  rfl

/-- A block of the next frame at the same index finds, after one FRAMENEXT, the record that PROCESS
committed (R192, R198). -/
theorem previousRecord_of_committed {s t f s' : State} {bx by_ bx' by' : Nat}
    (hf : exec .framenext t = .next f) (hprev : s'.prev = f.prev)
    (hidx : blockIndex s' bx' by' = blockIndex s bx by_) :
    previousRecord s' bx' by' = committedRecord s t bx by_ := by
  rw [previousRecord, hprev, prev_of_exec_framenext hf, hidx, committedRecord]

/-- Only a block that reached Assign has a color at a slot (R194). -/
theorem reachedAssign_of_slotColor {s t : State} {bx by_ : Nat} (h : Processed s bx by_ t)
    {c : Color} {slot : Slot} (hc : slotColor t.slotmap slot = some c) : ReachedAssign t := by
  by_contra hr
  rw [slotColor_processed h, processedMap_of_unassigned h hr] at hc
  cases hc

/-- A color of the block that the previous record has at a slot gets that slot, on the two-pass path
and where the same background was declared when the record was written (R142, R144). -/
theorem slotColor_of_prior {s t : State} {bx by_ : Nat} (h : Processed s bx by_ t)
    (hr : ReachedAssign t) (hpath : usesGlobalTable (ctrlMode s) (gtabEn s) = false)
    (hi : (previousRecord s bx by_).valid = true → TableInjective (previousRecord s bx by_).slots)
    {c : Color} {slot : Slot} (hprior : PriorSlot (previousRecord s bx by_) c slot)
    (hbg : bgEn s = true → (c = bgCol s ↔ slot = 0))
    (hc : c ∈ presentSet (ctrlMode s) t.pix) : slotColor t.slotmap slot = some c := by
  by_cases hback : bgEn s = true ∧ c = bgCol s
  · obtain ⟨hen, rfl⟩ := hback
    rw [(hbg hen).1 rfl]
    exact (backgroundHasSlotZero s t bx by_ h hr hen).1
  · refine slotColor_of_reuses h hr hpath hi ⟨Finset.mem_filter.2 ⟨hc, hback⟩, hprior, ?_⟩
    exact fun ⟨hen, hzero⟩ => hback ⟨hen, (hbg hen).2 hzero⟩

/-- Settles O29: the previous record is the committed one, which does not stop the analysis; its
background has slot 0 and no other color has, so Pass 1 gives the color its slot again. -/
theorem continuityAcrossFrames : Obligations.ContinuityAcrossFrames := by
  intro s t f s' t' bx by_ bx' by' c slot h hwas hslot hf hprev hidx hbg hpath h' hclash hc
  have hrecord : previousRecord s' bx' by' = committedRecord s t bx by_ :=
    previousRecord_of_committed hf hprev hidx
  rw [committedRecord_of_processed h] at hrecord hslot
  have hr : ReachedAssign t := reachedAssign_of_slotColor h hslot
  have hr' : ReachedAssign t' := by
    refine ⟨hclash, ?_⟩
    rw [← Bool.not_eq_true, processed_skipped h', hrecord]
    exact fun ⟨_, _, hstop⟩ => Bool.false_ne_true (hwas.symm.trans hstop)
  refine slotColor_of_prior h' hr' hpath ?_ ?_ ?_ hc
  · rw [hrecord]
    exact fun _ => slotmap_injective h
  · rw [hrecord]
    exact ⟨rfl, hslot⟩
  · intro hen'
    have hen : bgEn s = true := by rw [bgEn, ← hbg]; exact hen'
    have hcol : bgCol s' = bgCol s := by rw [bgCol, bgCol, hbg]
    obtain ⟨hzero, honly⟩ := backgroundHasSlotZero s t bx by_ h hr hen
    rw [hcol]
    constructor
    · rintro rfl
      exact honly slot hslot
    · rintro rfl
      exact Option.some.inj (hslot.symm.trans hzero)

end Sys2Proof.Machine

/-!
The control commands: NOP, which only completes, and SRESET, which completes by Reset()
(45_control.md R220, R221, 60_exceptions.md R242, 70_reset_and_hazards.md R260).
-/

namespace Sys2Proof.Machine

/-! ### NOP -/

/-- A completion raises irq exactly where IRQ_EN is set (R109, R242). -/
theorem irq_completeWith (code : ErrCode) (s : State) :
    irq (completeWith code s) = irqEn s := Bool.true_and _

/-- Settles O10: NOP leaves the completion with OK; the word with an MBZ bit is ILLEGAL by its
number. -/
theorem nopOnlyCompletes : Obligations.NopOnlyCompletes :=
  ⟨rfl, (illegalWords 0x00000100).2 (by decide),
    fun s => ⟨_, exec_eq .nop s, rfl, irq_completeWith .ok s⟩⟩

/-! ### SRESET -/

/-- After Reset() STATUS reads 0: it shows fields of the block alone, and each is 0 at reset
(R28, R261). -/
theorem statusWordIdle_resetBlock (s : State) : statusWordIdle (resetBlock s) = 0 :=
  calc statusWordIdle (resetBlock s)
    _ = statusWordIdle State.reset := rfl
    _ = 0 := by decide

/-- Reset() clears DONE, so irq is low (R242, R260). -/
theorem irq_resetBlock (s : State) : irq (resetBlock s) = false := Bool.false_and _

/-- Settles O35: SRESET leaves the state of Reset(), with STATUS 0, no pending command and irq
low. -/
theorem sresetIsReset : Obligations.SresetIsReset :=
  ⟨rfl, fun s => ⟨_, exec_eq .sreset s, rfl, statusWordIdle_resetBlock s, rfl, irq_resetBlock s⟩⟩

end Sys2Proof.Machine

/-!
Exceptions: the codes of a command that cannot run, the unrepaired clash, irq and ERR_BUSY
(60_exceptions.md R230 to R242).
-/

namespace Sys2Proof.Machine

/-! ### The machine never stops -/

/-- Settles O50: `step_eq` gives the next state of every step. -/
theorem stepNeverStops : Obligations.StepNeverStops := fun s => ⟨_, step_eq s⟩

/-! ### The code of a command that cannot run -/

/-- DETECT with a row not written since reset raises NOPIX (R125, R234). -/
theorem exec_detect_of_unwritten {s : State} (h : s.pixvalid ≠ 0xFF) :
    exec .detect s = .next (completeWith .nopix s) := by
  rw [exec_eq, commandResult, if_pos h]

/-- REPAIR with a row not written since reset raises NOPIX (R175, R234). -/
theorem exec_repair_of_unwritten {s : State} (h : s.pixvalid ≠ 0xFF) :
    exec .repair s = .next (completeWith .nopix s) := by
  rw [exec_eq, commandResult, if_pos h]

/-- A PROCESS that finds an error completes with its code and no other effect (R194, R236). -/
theorem exec_process_of_error {s : State} {bx by_ : Nat} {code : ErrCode}
    (h : processError Config.params s bx by_ = some code) :
    exec (.process bx by_) s = .next (completeWith code s) := by
  rw [exec_eq, commandResult, processCommand, h]
  rfl

/-- `CheckIndex` raises INDEX outside the grid and for a grid larger than the banks (R191, R235). -/
theorem indexOk_eq_false {p : Params} {s : State} {bx by_ : Nat} :
    indexOk p s bx by_ = false ↔
      gridCols s ≤ bx ∨ gridRows s ≤ by_ ∨ p.linkEntries < gridCols s * gridRows s := by
  simp only [indexOk, Bool.and_eq_false_iff, decide_eq_false_iff_not, Nat.not_lt, Nat.not_le,
    or_assoc]

section
variable {p : Params} {s : State} {bx by_ : Nat}

/-- CFG comes first (R233, R237). -/
theorem processError_cfg (h : ctrlMode s = .fourColor ∧ bgEn s = false) :
    processError p s bx by_ = some .cfg := by
  rw [processError, if_pos h]

/-- NOPIX comes after CFG (R234, R237). -/
theorem processError_nopix (hcfg : ¬ (ctrlMode s = .fourColor ∧ bgEn s = false))
    (h : s.pixvalid ≠ 0xFF) : processError p s bx by_ = some .nopix := by
  rw [processError, if_neg hcfg, if_pos h]

/-- INDEX comes last (R235, R237). -/
theorem processError_index (hcfg : ¬ (ctrlMode s = .fourColor ∧ bgEn s = false))
    (hpix : s.pixvalid = 0xFF) (h : indexOk p s bx by_ = false) :
    processError p s bx by_ = some .index := by
  rw [processError, if_neg hcfg, if_neg (not_not_intro hpix), if_pos h]

end

/-- Settles O9: `decode` answers before any command runs, DETECT and REPAIR check the rows alone,
and `processError` tests the causes in the order of R237. -/
theorem commandErrorsInOrder : Obligations.CommandErrorsInOrder := by
  intro s
  refine ⟨fun cmd e hdec => ⟨_, completeCommand_of_error hdec s, rfl⟩,
    fun hpix => ⟨⟨_, exec_detect_of_unwritten hpix, rfl⟩, ⟨_, exec_repair_of_unwritten hpix, rfl⟩⟩,
    fun bx by_ => ⟨fun hcfg => ?_, fun hcfg hpix => ?_, fun hcfg hpix hindex => ?_⟩⟩
  · exact ⟨_, exec_process_of_error (processError_cfg hcfg), rfl⟩
  · exact ⟨_, exec_process_of_error (processError_nopix hcfg hpix), rfl⟩
  · exact ⟨_, exec_process_of_error
      (processError_index hcfg hpix (indexOk_eq_false.2 hindex)), rfl⟩

/-! ### The unrepaired clash -/

/-- A failed record that CUR reads at some index is counted (R200). -/
theorem errCount_pos_of_linkRead {s : State} {i : Nat}
    (h : recordFailed (linkRead s.cur i) = true) : 0 < errCount s := by
  have hvalid : linkRead s.cur i ≠ LinkRecord.invalid := fun he => by
    rw [he] at h
    cases h
  exact List.countP_pos_iff.2 ⟨_, mem_of_linkRead hvalid, h⟩

/-- FRAME_FAIL says that some record failed (R200). -/
theorem frameFail_iff {s : State} : frameFail s = true ↔ 0 < errCount s := by
  rw [frameFail, decide_eq_true_eq, Nat.pos_iff_ne_zero]

/-- A PROCESS that runs completes with OK (R194, R240). -/
theorem errcode_of_processed {s t : State} {bx by_ : Nat} (h : Processed s bx by_ t) :
    t.errcode = .ok := by
  obtain ⟨-, rfl⟩ := processed_iff.1 h
  rfl

/-- Settles O20: CLASH is 1, so the committed record, which shows CLASH in FINAL_CLASH, is a failed
one of the CUR bank; nothing was repaired, so the pixels stay. -/
theorem unrepairedClashFailsTheFrame : Obligations.UnrepairedClashFailsTheFrame := by
  intro s t bx by_ h hclashes hrepairEn
  have hclash : t.clash = true := (processed_clash h).2 ⟨hclashes, hrepairEn⟩
  have hnot : t.repaired = false := by
    rw [← Bool.not_eq_true, processed_repaired h, hrepairEn]
    exact fun hrep => Bool.false_ne_true hrep.2
  have hrecord := committedRecord_of_processed h
  have hfinal : (committedRecord s t bx by_).finalClash = true := by
    rw [hrecord]
    exact hclash
  have hfailed : recordFailed (committedRecord s t bx by_) = true := by
    rw [hrecord, recordFailed, hclash]
    rfl
  have hcount : 0 < errCount t := errCount_pos_of_linkRead hfailed
  exact ⟨errcode_of_processed h, hclash, hfinal, hcount, frameFail_iff.2 hcount,
    (processed_of_not_repaired h hnot).1⟩

/-! ### Completions and irq -/

/-- Every command but SRESET ends in a completion (R109) and keeps CTRL and ERR_BUSY. -/
theorem commandResult_completes {i : Instr} (hi : i ≠ .sreset) (s : State) :
    ∃ code u, commandResult i s = completeWith code u ∧ u.ctrl = s.ctrl ∧
      u.errBusy = s.errBusy := by
  unfold commandResult
  cases i with
  | sreset => exact absurd rfl hi
  | detect =>
    obtain ⟨-, -, -, ⟨hctrl, -⟩, -, herr⟩ := detectUpdate_frame s
    dsimp only
    split
    · exact ⟨_, _, rfl, rfl, rfl⟩
    · exact ⟨_, _, rfl, hctrl, herr⟩
  | repair =>
    obtain ⟨-, -, -, ⟨hctrl, -⟩, -, herr⟩ := repairUpdate_frame Config.params s
    dsimp only
    split
    · exact ⟨_, _, rfl, rfl, rfl⟩
    · exact ⟨_, _, rfl, hctrl, herr⟩
  | process bx by_ =>
    dsimp only
    rcases processCommand_cases Config.params bx by_ s with ⟨code, -, -, he⟩ | ⟨-, he⟩ <;>
      exact ⟨_, _, he, rfl, rfl⟩
  | _ => exact ⟨_, _, rfl, rfl, rfl⟩

/-- Settles O49: a completion sets DONE and keeps CTRL, and an acceptance clears DONE. -/
theorem interruptFollowsDone : Obligations.InterruptFollowsDone := by
  refine ⟨fun s => Bool.and_eq_true_iff, fun i s t hi h => ?_, fun s cmd => Bool.false_and _⟩
  rw [exec_eq] at h
  obtain rfl := Host.Outcome.next.inj h
  obtain ⟨code, u, he, hctrl, -⟩ := commandResult_completes hi s
  rw [he, irq_completeWith, irqEn, hctrl]
  exact ⟨rfl, rfl⟩

/-! ### ERR_BUSY -/

/-- What an event can do to ERR_BUSY. `sets` is what setting it needs, and `clears` what clearing it
needs. -/
inductive ErrBusyEffect (sets clears : Prop) (b b' : Bool) : Prop
  /-- ERR_BUSY stays. -/
  | kept (h : b' = b)
  /-- A write was dropped (R102, R239). -/
  | set (hs : sets) (h : b' = true)
  /-- STATUS bit 7 was written with 1, or the block was reset (R107, R260). -/
  | cleared (hc : clears) (h : b' = false)

/-- The conditions of an effect can be weakened. -/
theorem errBusyEffect_imp {sets clears sets' clears' : Prop} {b b' : Bool}
    (h : ErrBusyEffect sets clears b b') (hs : sets → sets') (hc : clears → clears') :
    ErrBusyEffect sets' clears' b b' := by
  cases h with
  | kept h => exact .kept h
  | set hsets h => exact .set (hs hsets) h
  | cleared hclears h => exact .cleared (hc hclears) h

/-- Of the commands SRESET alone touches ERR_BUSY (R221, R239). -/
theorem errBusyEffect_commandResult {sets : Prop} (i : Instr) (s : State) :
    ErrBusyEffect sets (i = .sreset) s.errBusy (commandResult i s).errBusy := by
  by_cases hi : i = .sreset
  · subst hi
    exact .cleared rfl rfl
  · obtain ⟨code, u, he, -, herr⟩ := commandResult_completes hi s
    rw [he, completeWith_errBusy]
    exact .kept herr

/-- The engine's turn touches ERR_BUSY only where it completes SRESET (R109, R239). -/
theorem errBusyEffect_afterEngine {sets : Prop} (s : State) :
    ErrBusyEffect sets (EngineCompletes s .sreset) s.errBusy (afterEngine s).errBusy := by
  unfold afterEngine
  split
  · exact .kept rfl
  · next hrst =>
    split
    · next cmd hcmd =>
      unfold completion
      split
      · next i hdec =>
        exact errBusyEffect_imp (errBusyEffect_commandResult i s) id fun hi =>
          ⟨by simpa using hrst, cmd, hcmd, hi ▸ hdec⟩
      · exact .kept rfl
    · exact .kept rfl

/-- A write of STATUS clears ERR_BUSY by bit 7 (R107). -/
theorem errBusyEffect_writeStatus {sets : Prop} (v : Word) (s : State) :
    ErrBusyEffect sets (v.getLsbD 7 = true) s.errBusy (writeStatus v s).errBusy := by
  cases hv : v.getLsbD 7 with
  | true => exact .cleared rfl (by rw [writeStatus_errBusy, hv, Bool.not_true, Bool.and_false])
  | false => exact .kept (by rw [writeStatus_errBusy, hv, Bool.not_false, Bool.and_true])

/-- Of the performed writes only that of STATUS touches ERR_BUSY (R101, R239). -/
theorem errBusyEffect_writeIdle {sets : Prop} (r : Reg) (v : Word) (s : State) :
    ErrBusyEffect sets (r = .status ∧ v.getLsbD 7 = true) s.errBusy (writeIdle r v s).errBusy := by
  cases r with
  | status => exact errBusyEffect_imp (errBusyEffect_writeStatus v s) id fun hv => ⟨rfl, hv⟩
  | ctrl =>
    rcases writeCtrl_cases v s with ⟨-, he⟩ | ⟨-, he⟩ <;> rw [writeIdle, he] <;> exact .kept rfl
  | _ => exact .kept rfl

/-- A write dropped because a command is pending sets ERR_BUSY (R102, R239). -/
theorem errBusyEffect_writeReg (r : Reg) (v : Word) (s : State) :
    ErrBusyEffect (s.pending.isSome = true ∧ r ≠ .status) (r = .status ∧ v.getLsbD 7 = true)
      s.errBusy (writeReg r v s).errBusy := by
  unfold writeReg
  split
  · next hdrop =>
    simp only [Bool.and_eq_true, bne_iff_ne] at hdrop
    exact .set hdrop rfl
  · exact errBusyEffect_writeIdle r v s

/-- The access is a write that is dropped when the reset input is released (R102). -/
def DroppedAccess (s : State) (a : BusAccess) : Prop :=
  s.pending.isSome = true ∧ ∃ r v, r ≠ .status ∧ a = .write .word (regOffset r) v

/-- The access writes 1 to STATUS bit 7 (R107). -/
def ClearingAccess (a : BusAccess) : Prop :=
  ∃ v : Word, a = .write .word (regOffset .status) v ∧ v.getLsbD 7 = true

/-- What a host access can do to ERR_BUSY (R67, R101, R238, R239, R260). -/
theorem errBusyEffect_hostAccess (p : Params) (a : BusAccess) (s : State) :
    ErrBusyEffect (DroppedAccess s a) (ClearingAccess a) s.errBusy (hostAccess p a s).errBusy := by
  cases a with
  | read width off =>
    obtain ⟨a, n, he⟩ := hostAccess_read_frame p width off s
    rw [he]
    exact .kept rfl
  | write width off v =>
    unfold hostAccess
    split
    · exact .kept rfl
    · rcases hostWrite_cases width off v s with ⟨r, htarget, he⟩ | ⟨-, he⟩ <;> dsimp only <;>
        rw [he, answer_errBusy]
      · obtain ⟨rfl, rfl⟩ := eq_of_accessTarget htarget
        exact errBusyEffect_imp (errBusyEffect_writeReg r v s)
          (fun ⟨hbusy, hr⟩ => ⟨hbusy, r, v, hr, rfl⟩) (fun ⟨hr, hv⟩ => ⟨v, hr ▸ rfl, hv⟩)
      · exact .kept rfl

/-- The event of the step is a write that a pending command makes the block drop (R102). -/
def DropsWrite (s : State) : Prop :=
  s.pending.isSome = true ∧
    ∃ rest r v, r ≠ .status ∧ s.inputs = .access (.write .word (regOffset r) v) :: rest

/-- The step writes 1 to STATUS bit 7, completes SRESET or asserts the reset input (R239). -/
def ClearsErrBusy (s : State) : Prop :=
  (∃ rest v, s.inputs = .access (.write .word (regOffset .status) v) :: rest ∧
    v.getLsbD 7 = true) ∨ EngineRuns s .sreset ∨ ResetAsserted s

/-- What a step can do to ERR_BUSY, by its event. -/
theorem errBusyEffect_afterStep (s : State) :
    ErrBusyEffect (DropsWrite s) (ClearsErrBusy s) s.errBusy (afterStep s).errBusy := by
  have hsreset : s.inputs = [] ∨ (∃ rest, s.inputs = .engine :: rest) →
      EngineCompletes s .sreset → ClearsErrBusy s := fun hin hc =>
    .inr (.inl (engineRuns_of_completes hin hc))
  unfold afterStep
  split
  · next hin => exact errBusyEffect_imp (errBusyEffect_afterEngine s) id (hsreset (.inl hin))
  · next e rest hin =>
    cases e with
    | access a =>
      refine errBusyEffect_imp (errBusyEffect_hostAccess _ a { s with inputs := rest }) ?_ ?_
      · rintro ⟨hbusy, r, v, hr, rfl⟩
        exact ⟨hbusy, rest, r, v, hr, hin⟩
      · rintro ⟨v, rfl, hv⟩
        exact .inl ⟨rest, v, hin, hv⟩
    | engine =>
      exact errBusyEffect_imp (errBusyEffect_afterEngine { s with inputs := rest }) id
        (hsreset (.inr ⟨rest, hin⟩))
    | rst asserted =>
      cases asserted with
      | false => exact .kept rfl
      | true => exact .cleared (.inr (.inr ⟨rest, hin⟩)) rfl

/-- ERR_BUSY becomes 1 only where it is set. -/
theorem sets_of_errBusyEffect {sets clears : Prop} {b b' : Bool}
    (he : ErrBusyEffect sets clears b b') (hb : b = false) (hb' : b' = true) : sets := by
  subst hb hb'
  cases he with
  | kept h => cases h
  | set hs _ => exact hs
  | cleared _ h => cases h

/-- ERR_BUSY becomes 0 only where it is cleared. -/
theorem clears_of_errBusyEffect {sets clears : Prop} {b b' : Bool}
    (he : ErrBusyEffect sets clears b b') (hb : b = true) (hb' : b' = false) : clears := by
  subst hb hb'
  cases he with
  | kept h => cases h
  | set _ h => cases h
  | cleared hc _ => exact hc

/-- Settles O53: a dropped write is `dropWrite`, which sets ERR_BUSY; the changes are those of
`errBusyEffect_afterStep`. -/
theorem errBusyChanges : Obligations.ErrBusyChanges := by
  intro s t hstep
  rw [step_eq] at hstep
  obtain rfl := Host.Outcome.next.inj hstep
  refine ⟨fun rest r v hrst hbusy hr hin => ?_, sets_of_errBusyEffect (errBusyEffect_afterStep s),
    clears_of_errBusyEffect (errBusyEffect_afterStep s)⟩
  have hwrite := (step_eq s).symm.trans (step_writeReg hrst hin)
  rw [Host.Outcome.next.inj hwrite, writeReg_dropped (s := { s with inputs := rest }) hbusy hr,
    answer_errBusy, dropWrite_errBusy]

end Sys2Proof.Machine

/-!
The reset input, and what reset leaves (70_reset_and_hazards.md R260, R261).
-/

namespace Sys2Proof.Machine

/-! ### The reset input -/

/-- A step that asserts the reset input performs Reset() and leaves the input asserted (R260). -/
theorem step_assertsReset {s : State} {rest : List Input} (h : s.inputs = .rst true :: rest) :
    step s = .next { resetBlock s with rst := true, inputs := rest } := by
  rw [step_eq, afterStep, h]
  rfl

/-- While the reset input is asserted no access is answered (R260; log 13). -/
theorem hostAccess_of_asserted {s : State} (hrst : s.rst = true) (p : Params) (a : BusAccess) :
    hostAccess p a s = answer .noAnswer s := by
  unfold hostAccess
  rw [if_pos hrst]

/-- A step that is an access with the reset input asserted (R260; log 13). -/
theorem step_access_of_asserted {s : State} {a : BusAccess} {rest : List Input}
    (hrst : s.rst = true) (h : s.inputs = .access a :: rest) :
    step s = .next (answer .noAnswer { s with inputs := rest }) := by
  rw [step_access h, hostAccess_of_asserted (s := { s with inputs := rest }) hrst]

/-- Settles O37: the step is `step_assertsReset`; it leaves the input asserted, so the next access
gets no answer. -/
theorem resetInputResets : Obligations.ResetInputResets := fun s rest hin =>
  ⟨_, step_assertsReset hin, rfl, rfl, fun _ _ hrest =>
    step_access_of_asserted (s := { resetBlock s with rst := true, inputs := rest }) rfl hrest⟩

/-! ### The reset values -/

/-- A table without a valid slot shows 0 (R32). -/
theorem slotTableWord_empty : slotTableWord SlotTable.empty = 0 := by decide

/-- The invalid record shows 0 (R40, R190). -/
theorem recordWord_invalid : recordWord LinkRecord.invalid = 0 := by decide

/-- Every record of the empty bank shows 0 (R40, R190). -/
theorem recordWord_linkRead_nil (i : Nat) : recordWord (linkRead [] i) = 0 := by
  rw [linkRead_nil, recordWord_invalid]

/-- Settles O36: the reset state is one that Reset() leaves, so STATUS is 0 and irq low; both banks
are empty, so FRAMECNT and every record show 0. The registers that are fields are 0 as given. -/
theorem resetValues : Obligations.ResetValues := by
  have hstatus : statusWordIdle State.reset = 0 := statusWordIdle_resetBlock State.reset
  have hirq : irq State.reset = false := irq_resetBlock State.reset
  obtain ⟨hframecnt, -⟩ := frameCounts_of_cur_nil (s := State.reset) rfl
  exact ⟨rfl, rfl, rfl, rfl, rfl, rfl, hstatus, rfl, rfl, slotTableWord_empty, rfl, rfl, rfl, rfl,
    rfl, rfl, rfl, hframecnt, hirq, fun i => ⟨recordWord_linkRead_nil i, recordWord_linkRead_nil i⟩⟩

/-! ### The invariants at reset -/

/-- The empty banks of reset are legal (R199, R261). -/
theorem banksLegal_reset : BanksLegal State.reset := ⟨bankLegal_nil _, bankLegal_nil _⟩

/-- Settles O57, from what each invariant says of the reset values. -/
theorem resetMeetsTheInvariants : Obligations.ResetMeetsTheInvariants :=
  ⟨reservedZero_reset, statusLegal_reset, banksLegal_reset⟩

end Sys2Proof.Machine
